-- ==== Sys2Proof/Word.lean ====
section
/-! DEFINITION. The word types of the block: bytes, and the 16 and 32 bit unsigned values of rules R8, R9, R12. -/

namespace Sys2Proof

/-- A byte: 8 bits, bit 7 the most significant (rule R12). -/
abbrev Byte := BitVec 8

/-- A `CNT_W` value: 16 bits unsigned (rule R8). -/
abbrev Word16 := BitVec 16

/-- An `LBA_W`, `GEOM_W` or `RESIDUE_W` value: 32 bits unsigned (rules R8, R9). -/
abbrev Word32 := BitVec 32

/-- `zeros(n)` of rule R12. -/
def zeros (n : Nat) : List Byte := List.replicate n 0

end Sys2Proof
end

