-- ==== Sys2Proof/Config.lean ====
section
/-! DEFINITION. What an implementation fixes (rules R8, R9), the types of what the collaborators answer and of the
transient latches, and the free values. -/

namespace Sys2Proof

namespace Config

/-! ## Sizes and constants fixed by the source (rule R8) -/

/-- `SENSE_LEN`. -/
abbrev senseLen : Nat := 18
/-- `SENSE_RESPONSE_CODE`. -/
def senseResponseCode : Byte := 0x70
/-- `SENSE_ADD_LEN`: 8 as the source says, never computed from the record's length (`90_conflicts.md` C6). -/
def senseAddLen : Byte := 8
/-- `MS6_LEN`. -/
abbrev ms6Len : Nat := 4
/-- `RC10_LEN`. -/
abbrev rc10Len : Nat := 8
/-- `MS6_WP`: the device-specific byte of a write-protected device. -/
def ms6Wp : Byte := 0x80

/-! ## The parameters the source leaves open (rule R9) -/

/-- `SENSE_RESET_POLICY`: when EXECUTE resets the sense record (rule R151). -/
inductive SensePolicy where
  | alwaysAtEntry
  | skipOnRequestSense
deriving DecidableEq, Repr

/-- `RC10_ORDER`: the field order of the READ CAPACITY(10) response (rule R91). -/
inductive Rc10Order where
  | sizeThenLba
  | lbaThenSize
deriving DecidableEq, Repr

/-- The parameters of one machine, a field for each row of rule R9 (U27: "parameter, one per value"); the two widths
among its rows are fixed at 32 bits, as decision D8 has them. DESIGN CHOICE (safe): State holds them, so that a
statement about every state covers every machine; no operation writes them (`notes/assumptions/12.md`). -/
structure Params where
  /-- `OPC_TEST_UNIT_READY`. -/
  opcTestUnitReady : Byte
  /-- `OPC_REQUEST_SENSE`. -/
  opcRequestSense : Byte
  /-- `OPC_INQUIRY`. -/
  opcInquiry : Byte
  /-- `OPC_MODE_SENSE_6`. -/
  opcModeSense6 : Byte
  /-- `OPC_PREVENT_ALLOW_MEDIUM_REMOVAL`. -/
  opcPreventAllowMediumRemoval : Byte
  /-- `OPC_READ_CAPACITY_10`. -/
  opcReadCapacity10 : Byte
  /-- `OPC_READ_10`. -/
  opcRead10 : Byte
  /-- `OPC_WRITE_10`. -/
  opcWrite10 : Byte
  /-- `KEY_GOOD`. -/
  keyGood : Byte
  /-- `KEY_ILLEGAL_REQUEST`. -/
  keyIllegalRequest : Byte
  /-- `ASC_NO_ADDITIONAL_INFORMATION`. -/
  ascNoAdditionalInformation : Byte
  /-- `ASC_INVALID_COMMAND`. -/
  ascInvalidCommand : Byte
  /-- `ASC_LBA_OUT_OF_RANGE`. -/
  ascLbaOutOfRange : Byte
  /-- `ASC_INVALID_FIELD_IN_CDB`. -/
  ascInvalidFieldInCdb : Byte
  /-- `ASCQ_NO_QUALIFIER`. -/
  ascqNoQualifier : Byte
  /-- `SENSE_OFF_RESPONSE_CODE`. -/
  senseOffResponseCode : Fin senseLen
  /-- `SENSE_OFF_KEY`. -/
  senseOffKey : Fin senseLen
  /-- `SENSE_OFF_ADD_LEN`. -/
  senseOffAddLen : Fin senseLen
  /-- `SENSE_OFF_ASC`. -/
  senseOffAsc : Fin senseLen
  /-- `SENSE_OFF_ASCQ`. -/
  senseOffAscq : Fin senseLen
  /-- `INQ_EVPD_BYTE`. -/
  inqEvpdByte : Nat
  /-- `INQ_EVPD_MASK`. -/
  inqEvpdMask : Byte
  /-- `INQ_PAGE_BYTE`. -/
  inqPageByte : Nat
  /-- `RS_ALLOC_BYTE`. -/
  rsAllocByte : Nat
  /-- `RW_LBA_OFF`. -/
  rwLbaOff : Nat
  /-- `RW_CNT_OFF`. -/
  rwCntOff : Nat
  /-- `INQUIRY_LEN`; a length is `RESIDUE_W` = 32 bits wide (decision D8). -/
  inquiryLen : Word32
  /-- `SENSE_RESET_POLICY`. -/
  policy : SensePolicy
  /-- `RC10_ORDER`. -/
  order : Rc10Order
deriving DecidableEq, Repr

/-- The spec's defaults (rule R9). PRESUMED (unsafe): all but the last two are general knowledge,
`notes/assumptions/11.md`, `notes/assumptions/19.md`. -/
def defaultParams : Params where
  opcTestUnitReady := 0x00
  opcRequestSense := 0x03
  opcInquiry := 0x12
  opcModeSense6 := 0x1A
  opcPreventAllowMediumRemoval := 0x1E
  opcReadCapacity10 := 0x25
  opcRead10 := 0x28
  opcWrite10 := 0x2A
  keyGood := 0x00
  keyIllegalRequest := 0x05
  ascNoAdditionalInformation := 0x00
  ascInvalidCommand := 0x20
  ascLbaOutOfRange := 0x21
  ascInvalidFieldInCdb := 0x24
  ascqNoQualifier := 0x00
  senseOffResponseCode := 0
  senseOffKey := 2
  senseOffAddLen := 7
  senseOffAsc := 12
  senseOffAscq := 13
  inqEvpdByte := 1
  inqEvpdMask := 0x01
  inqPageByte := 2
  rsAllocByte := 4
  rwLbaOff := 2
  rwCntOff := 7
  inquiryLen := 36
  policy := .alwaysAtEntry
  order := .sizeThenLba

end Config

/-! ## What crosses the ports, and the latches of one command -/

/-- An opaque handle of a block device or a transport: the block only passes it to port calls (rule R23). -/
abbrev Handle := Nat

/-- The answer of `getInfo()` (rules R28, R53). -/
structure Geometry where
  blockSize      : Word32
  blockCount     : Word32
  writeProtected : Bool
deriving DecidableEq, Repr, Inhabited

/-- One answer of a collaborator to one port call (rules R53, R54); a call uses the fields its port gives it.
`responds = false` is a collaborator that never answers (rule R70). -/
structure Answer where
  responds : Bool
  /-- `DevInfo`: the triple. -/
  geom     : Geometry
  /-- `DevRead`, `TrRx`: what is written into the scratch buffer from its start. -/
  data     : List Byte
  /-- `TrTx`: `bytesSent`; `TrRx`: `bytesReceived`. -/
  count    : Word32
deriving DecidableEq, Repr, Inhabited

/-- The direction `DIR` of a data command (rules R28, R201). -/
inductive Direction where
  | read
  | write
deriving DecidableEq, Repr, Inhabited

/-- The transient latches of a data command: `REQ.LBA`, `REQ.CNT` (rule R27), `DIR`, `IDX`, `GEOM` (rule R28). -/
structure Latches where
  lba  : Word32
  cnt  : Word16
  dir  : Direction
  idx  : Nat
  geom : Geometry
deriving DecidableEq, Repr, Inhabited

/-! ## Free values: nothing constrains them -/

/-- What the collaborator behind a handle answers to the n-th free draw, where no answer is scripted (rule R5: "an
oracle (any answer within the port's type)"). -/
opaque Config.freeAnswer : Handle → Nat → Answer

/-- What the latches hold once a data command is over (rules R27, R28: unspecified between commands). -/
opaque Config.freeLatches : Nat → Latches

end Sys2Proof
end

