-- ==== Sys2Proof/Syntax.lean ====
section
/-! DEFINITION. The operations of the block: one constructor per row of the opcode table, and the five host operations
as the caller issues them. -/

namespace Sys2Proof

/-- The operations of the block, one constructor per row of `opcode_table.json`. The nine command constructors stand
for the EXECUTE of that command (rule R96) and keep exactly the command bytes their handler reads (rule R85).
DEDUCED (safe): a byte no rule reads is no operand (`notes/assumptions/22.md`). -/
inductive Instr where
  /-- TEST UNIT READY (rule R153). -/
  | tur
  /-- REQUEST SENSE: CDB bytes 1, 2, 3 and the allocation length (rule R172). -/
  | reqsense (r1 r2 r3 alloc : Byte)
  /-- INQUIRY: the CDB byte that holds EVPD, and the page code (rule R171). -/
  | inquiry (flags page : Byte)
  /-- MODE SENSE(6) (rule R174). -/
  | modesense6
  /-- PREVENT/ALLOW MEDIUM REMOVAL (rule R154). -/
  | prevallow
  /-- READ CAPACITY(10) (rule R173). -/
  | readcap10
  /-- READ(10): starting logical block address and block count (rule R203). -/
  | read10 (lba : Word32) (cnt : Word16)
  /-- WRITE(10): starting logical block address and block count (rule R204). -/
  | write10 (lba : Word32) (cnt : Word16)
  /-- Any other opcode (rule R155). -/
  | unknown (op : Byte)
  /-- `INIT(T)` (rule R130). -/
  | init
  /-- `START(T, cfg)`: a reference, never `none` (rule R131). -/
  | start (ref : Nat)
  /-- `STOP(T)` (rule R132). -/
  | stop
  /-- `RESIDUE(T)` (rule R133). -/
  | residue
  /-- `EXECUTE(T, CDB)`: the command buffer, of any length (rule R150). -/
  | execute (cdb : List Byte)
deriving DecidableEq, Repr

/-- A host operation as the caller issues it (rule R95): the block decodes the command buffer itself. -/
inductive HostOp where
  | init
  | start (ref : Nat)
  | stop
  | residue
  | execute (cdb : List Byte)
deriving DecidableEq, Repr

/-- The host operation as an operation of the opcode table. -/
def HostOp.toInstr : HostOp → Instr
  | .init => .init
  | .start ref => .start ref
  | .stop => .stop
  | .residue => .residue
  | .execute cdb => .execute cdb

/-- The nine rows a command buffer can select (rule R84); the other five are host operations (rule R95). -/
def Instr.isCommand : Instr → Bool
  | .tur => true
  | .reqsense _ _ _ _ => true
  | .inquiry _ _ => true
  | .modesense6 => true
  | .prevallow => true
  | .readcap10 => true
  | .read10 _ _ => true
  | .write10 _ _ => true
  | .unknown _ => true
  | .init => false
  | .start _ => false
  | .stop => false
  | .residue => false
  | .execute _ => false

end Sys2Proof
end

