-- ==== Sys2Proof/WellFormed.lean ====
section
/-! DEFINITION. When a machine's parameters are legal, and when a term of `Instr` stands for something the block can be
given (rules R83, R85, R86). -/

namespace Sys2Proof

/-- The eight opcodes the block accepts (rule R83). -/
def acceptedOpcodes (p : Config.Params) : List Byte :=
  [p.opcTestUnitReady, p.opcRequestSense, p.opcInquiry, p.opcModeSense6, p.opcPreventAllowMediumRemoval,
   p.opcReadCapacity10, p.opcRead10, p.opcWrite10]

/-- The CDB positions of the command fields of INQUIRY (rule R171). -/
def inquiryPositions (p : Config.Params) : List Nat := [p.inqEvpdByte, p.inqPageByte]

/-- The CDB positions of the command fields of REQUEST SENSE (rule R172); the first three are no parameter (rule R9). -/
def requestSensePositions (p : Config.Params) : List Nat := [1, 2, 3, p.rsAllocByte]

/-- The CDB positions of the data request (rule R114). -/
def dataRequestPositions (p : Config.Params) : List Nat :=
  [p.rwLbaOff, p.rwLbaOff + 1, p.rwLbaOff + 2, p.rwLbaOff + 3, p.rwCntOff, p.rwCntOff + 1]

/-- A command's fields lie behind the opcode byte, inside its format of `len` bytes, on bytes of their own. -/
abbrev FieldsFit (positions : List Nat) (len : Nat) : Prop := positions.Nodup ∧ ∀ k ∈ positions, 0 < k ∧ k < len

/-- Legal parameters. The eight opcodes are pairwise different (rule R83). DEDUCED (safe): the named fields of the
sense record, and the fields of a command inside its format, have bytes of their own (rules R24, R81, R82;
`notes/assumptions/11.md`). -/
structure ParamsOk (p : Config.Params) : Prop where
  opcodes      : (acceptedOpcodes p).Nodup
  senseOffsets : [p.senseOffResponseCode, p.senseOffKey, p.senseOffAddLen, p.senseOffAsc, p.senseOffAscq].Nodup
  inquiry      : FieldsFit (inquiryPositions p) 6
  requestSense : FieldsFit (requestSensePositions p) 6
  dataRequest  : FieldsFit (dataRequestPositions p) 10

/-- The CDB positions read of a command (rule R85), the opcode's own left out. -/
def operandPositions (p : Config.Params) (op : Byte) : List Nat :=
  if op = p.opcInquiry then inquiryPositions p
  else if op = p.opcRequestSense then requestSensePositions p
  else if op = p.opcRead10 ∨ op = p.opcWrite10 then dataRequestPositions p
  else []

/-- The smallest safe `len(CDB)` of an opcode (rule R85): one past the last byte read. -/
def smallestSafeLength (p : Config.Params) (op : Byte) : Nat := (operandPositions p op).foldr (fun k n => max (k + 1) n) 1

/-- The command buffer holds every byte its handler reads (rules R85, R88); an empty buffer never does. -/
def cdbLongEnough (p : Config.Params) : List Byte → Bool
  | [] => false
  | op :: rest => decide (smallestSafeLength p op ≤ rest.length + 1)

/-- Well-formed operations: an unknown command's opcode is none of the eight (rule R86), and the buffer of an EXECUTE
holds every byte that is read of it (rule R88). Every other operand may take every value. -/
def Instr.wellFormed (p : Config.Params) : Instr → Bool
  | .unknown op => !(acceptedOpcodes p).contains op
  | .execute cdb => cdbLongEnough p cdb
  | .tur => true
  | .reqsense _ _ _ _ => true
  | .inquiry _ _ => true
  | .modesense6 => true
  | .prevallow => true
  | .readcap10 => true
  | .read10 _ _ => true
  | .write10 _ _ => true
  | .init => true
  | .start _ => true
  | .stop => true
  | .residue => true

end Sys2Proof
end

