-- ==== Sys2Proof/Decode.lean ====
section
/-! DEFINITION. The big-endian field codec (rules R110 to R116), the command decoder (rules R80 to R88), total on any
bytes, and the encoder written from the same tables. -/

namespace Sys2Proof

/-! ## Field functions -/

/-- `be16` (rule R110): the first byte is the most significant. -/
def be16 (b0 b1 : Byte) : Word16 := b0 ++ b1

/-- `be32` (rule R111): the first byte is the most significant. -/
def be32 (b0 b1 b2 b3 : Byte) : Word32 := b0 ++ b1 ++ b2 ++ b3

/-- `enc16` (rule R112). -/
def enc16 (v : Word16) : List Byte := [v.extractLsb' 8 8, v.extractLsb' 0 8]

/-- `enc32` (rule R113). -/
def enc32 (v : Word32) : List Byte :=
  [v.extractLsb' 24 8, v.extractLsb' 16 8, v.extractLsb' 8 8, v.extractLsb' 0 8]

/-! ## Reading a command buffer -/

/-- Why the decoder refuses a buffer: it ends before the byte that was to be read (rules R13, R88). -/
inductive DecodeReject where
  | cdbShort (index : Nat)
deriving DecidableEq, Repr

/-- Read `CDB[i]` (rules R13, R51). -/
def cdbByte (cdb : List Byte) (i : Nat) : Except DecodeReject Byte :=
  match cdb[i]? with
  | some b => .ok b
  | none => .error (.cdbShort i)

/-- `decodeDataRequest` (rule R114): `REQ.LBA` and `REQ.CNT`. -/
def decodeDataRequest (p : Config.Params) (cdb : List Byte) : Except DecodeReject (Word32 × Word16) := do
  let l0 ← cdbByte cdb p.rwLbaOff
  let l1 ← cdbByte cdb (p.rwLbaOff + 1)
  let l2 ← cdbByte cdb (p.rwLbaOff + 2)
  let l3 ← cdbByte cdb (p.rwLbaOff + 3)
  let c0 ← cdbByte cdb p.rwCntOff
  let c1 ← cdbByte cdb (p.rwCntOff + 1)
  .ok (be32 l0 l1 l2 l3, be16 c0 c1)

/-- Select the handler by the first byte (rules R84, R150), then read every byte of its row in rule R85. -/
def decode (p : Config.Params) (cdb : List Byte) : Except DecodeReject Instr := do
  let op ← cdbByte cdb 0
  if op = p.opcInquiry then do
    let flags ← cdbByte cdb p.inqEvpdByte
    let page ← cdbByte cdb p.inqPageByte
    .ok (.inquiry flags page)
  else if op = p.opcRequestSense then do
    let r1 ← cdbByte cdb 1
    let r2 ← cdbByte cdb 2
    let r3 ← cdbByte cdb 3
    let alloc ← cdbByte cdb p.rsAllocByte
    .ok (.reqsense r1 r2 r3 alloc)
  else if op = p.opcRead10 then do
    let req ← decodeDataRequest p cdb
    .ok (.read10 req.1 req.2)
  else if op = p.opcWrite10 then do
    let req ← decodeDataRequest p cdb
    .ok (.write10 req.1 req.2)
  else if op = p.opcReadCapacity10 then .ok .readcap10
  else if op = p.opcTestUnitReady then .ok .tur
  else if op = p.opcPreventAllowMediumRemoval then .ok .prevallow
  else if op = p.opcModeSense6 then .ok .modesense6
  else .ok (.unknown op)

/-! ## The encoder -/

/-- Put the values at the positions of a buffer. -/
def placeAt : List Nat → List Byte → List Byte → List Byte
  | k :: ks, v :: vs, buf => placeAt ks vs (buf.set k v)
  | _, _, buf => buf

/-- A command of `len` bytes: the opcode, the fields' bytes at their positions, every ignored byte zero. -/
def encodeFields (len : Nat) (op : Byte) (positions : List Nat) (values : List Byte) : List Byte :=
  placeAt positions values ((zeros len).set 0 op)

/-- `encodeDataRequest` (rule R115). -/
def encodeDataRequest (p : Config.Params) (op : Byte) (lba : Word32) (cnt : Word16) : List Byte :=
  encodeFields 10 op (dataRequestPositions p) (enc32 lba ++ enc16 cnt)

/-- The bytes of a command in its nominal format (rules R81, R82), ignored bytes zero; a host operation has no wire
encoding (rule R95). An unknown opcode has no format of its own: its one byte that is read. -/
def encode (p : Config.Params) : Instr → Option (List Byte)
  | .tur => some (encodeFields 6 p.opcTestUnitReady [] [])
  | .reqsense r1 r2 r3 alloc =>
    some (encodeFields 6 p.opcRequestSense (requestSensePositions p) [r1, r2, r3, alloc])
  | .inquiry flags page => some (encodeFields 6 p.opcInquiry (inquiryPositions p) [flags, page])
  | .modesense6 => some (encodeFields 6 p.opcModeSense6 [] [])
  | .prevallow => some (encodeFields 6 p.opcPreventAllowMediumRemoval [] [])
  | .readcap10 => some (encodeFields 10 p.opcReadCapacity10 [] [])
  | .read10 lba cnt => some (encodeDataRequest p p.opcRead10 lba cnt)
  | .write10 lba cnt => some (encodeDataRequest p p.opcWrite10 lba cnt)
  | .unknown op => some [op]
  | .init => none
  | .start _ => none
  | .stop => none
  | .residue => none
  | .execute _ => none

/-! ## The opcode table's own numbering of bits -/

/-- The command buffer whose bits are `w` as `opcode_table.json` numbers them: byte k is bits 8k+7 to 8k, every bit
from `nbits` on is zero, and the buffer is as long as the longest format, ten bytes (rule R82). -/
def cdbOfTableWord (nbits w : Nat) : List Byte :=
  (List.range 10).map fun k => BitVec.ofNat 8 ((w % 2 ^ nbits) / 2 ^ (8 * k))

/-- What the decoder reads from a table word, with the parameters the table is written for: the spec's defaults. -/
def decodeTableWord (nbits w : Nat) : Option Instr :=
  match decode Config.defaultParams (cdbOfTableWord nbits w) with
  | .ok i => some i
  | .error _ => none

end Sys2Proof
end

