-- ==== Sys2Proof/Machine/State.lean ====
section
/-! DEFINITION. The state of the block as plain data, the ways an operation can stop, and the state after reset. -/

namespace Sys2Proof.Machine

/-- `T.RUN` (rule R21): no numeric encoding exists. -/
inductive RunState where
  | stopped
  | ready
deriving DecidableEq, Repr

/-- The two statuses an `EXECUTE` returns (rule R15): no numeric encoding exists. -/
inductive Status where
  | success
  | failed
deriving DecidableEq, Repr

/-- What the last host operation returned (rule R97). -/
inductive Returned where
  | nothing
  | status (st : Status)
  | residue (bytes : Word32)
deriving DecidableEq, Repr

/-- A port call an operation can be stuck at (rules R53, R54, R70). -/
inductive PortCall where
  /-- `DevInfo()`. -/
  | devInfo
  /-- `DevRead(lba)`. -/
  | devRead (lba : Word32)
  /-- `DevWrite(lba)`. -/
  | devWrite (lba : Word32)
  /-- `TrTx` of a fixed response. -/
  | txResponse
  /-- `TrTx` of a block, in the READ(10) loop. -/
  | txBlock
  /-- `TrRx` of a block, in the WRITE(10) loop. -/
  | rxBlock
deriving DecidableEq, Repr

/-- The life of the target. -/
inductive Phase where
  /-- Never initialised: every field is unspecified (rule R262). -/
  | uninit
  /-- Between host operations (rule R247). -/
  | idle
  /-- Inside an operation that a collaborator never answers (rules R70, R244). -/
  | stuck (call : PortCall)
deriving DecidableEq, Repr

/-- The scratch-buffer grant (rule R67). -/
inductive BufOwner where
  | none
  | dev
  | tr
deriving DecidableEq, Repr

/-- A configuration record (rule R23): exactly four fields, owned by the caller. -/
structure Configuration where
  dev : Handle
  tr  : Handle
  buf : List Byte
  inq : List Byte
deriving DecidableEq, Repr

/-- The records the caller has prepared, by reference: a sparse store, strictly rising references, a reference not
listed leads to no record (`notes/assumptions/8.md`, `17.md`). -/
abbrev Memory := List (Nat × Configuration)

/-- An event of the trace (rule R57), with the handle the call was made on (`notes/assumptions/15.md`). -/
inductive Event where
  | getInfo (dev : Handle) (answer : Geometry)
  | devRead (dev : Handle) (lba : Word32) (data : List Byte)
  | devWrite (dev : Handle) (lba : Word32) (data : List Byte)
  | tx (tr : Handle) (bytes : List Byte) (len sent : Word32)
  | rx (tr : Handle) (len : Word32) (data : List Byte) (got : Word32)
deriving DecidableEq, Repr

/-- What the caller does next (rules R5, R263, R265). -/
inductive CallerAction where
  /-- Start a host operation; `overlaps` is true when the caller does not wait for the one before it to return, which
  rule R265 forbids. -/
  | call (op : HostOp) (overlaps : Bool)
  /-- Prepare or edit, between operations, a configuration record the caller owns (rules R264, R267). -/
  | prepare (ref : Nat) (record : Configuration)
deriving DecidableEq, Repr

/-- The state: the target record, the transient latches, the records a reference leads to, the parameters, and the
inputs and outputs of the block. -/
structure State where
  /-- The life of the target (rules R70, R262). -/
  phase   : Phase
  /-- `T.RUN` (rule R21). -/
  run     : RunState
  /-- `T.CFG` (rule R22): the spec's own `none` or reference. -/
  cfg     : Option Nat
  /-- `T.SENSE` (rule R24). -/
  sense   : Vector Byte Config.senseLen
  /-- `T.RESIDUE` (rule R26). -/
  residue : Word32
  /-- `REQ`, `DIR`, `IDX`, `GEOM` (rules R27, R28). -/
  latch   : Latches
  /-- The configuration records (rules R22, R23). -/
  mem     : Memory
  /-- The parameters of this machine (rule R9). -/
  params  : Config.Params
  /-- The caller's pending actions, oldest first (rule R5). -/
  callers : List CallerAction
  /-- The collaborators' scripted answers, in the order of the calls they answer (rule R5). -/
  answers : List Answer
  /-- The model's own counter that free values are drawn at. -/
  tick    : Nat
  /-- The events so far, oldest first (rule R57). -/
  trace   : List Event
  /-- What the last operation returned (rules R6, R97). -/
  ret     : Returned
deriving DecidableEq, Repr

/-- The model faults (rule R243). The state after one has no meaning; where port calls can have come before it, it
carries the trace up to the failing call (rule R213). All are safe: the model stops where the original would go on in
a way the spec does not give. -/
inductive Fault where
  /-- `F_UNINIT`: every host operation but INIT, on a target never initialised (rule R262). Safe. -/
  | uninit
  /-- `F_NOCFG`: a port call, `BUF` or the template needed while `T.CFG = none` (rule R157). Safe. -/
  | noCfg
  /-- `F_CDBSHORT`: EXECUTE of a buffer that ends before a byte its command reads (rule R51). Safe. -/
  | cdbShort
  /-- `F_TXOVER`: a transmit answered with more than it was asked (rule R54). Safe. -/
  | txOver (trace : List Event)
  /-- `F_BUFSIZE`: a data command about to move a block through a buffer of another size (rule R202). Safe. -/
  | bufSize (trace : List Event)
  /-- `F_REENTRY`: a host operation started while another is running on the target (rule R265). Safe. -/
  | reentry
  /-- The bound reference leads to no record, against rules R264 and R267: raised where `F_NOCFG` is, by every use of
  the configuration. Safe (`notes/assumptions/8.md`). -/
  | noRecord
  /-- The template of the bound record has fewer than `INQUIRY_LEN` bytes, against rule R264 (d): raised by the INQUIRY
  that would transmit it. Safe (`notes/assumptions/25.md`). -/
  | shortTemplate
deriving DecidableEq, Repr

/-- Refusals. -/
inductive Refusal where
  /-- Raised by `exec` alone, for an operation that has no meaning yet; none is left. Safe. -/
  | notModelled (mnemonic : String)
deriving DecidableEq, Repr

/-- The state after reset, which is `INIT` (rules R36, R260, R261): those rules give the run-state, the binding, the
sense record and the residue. What they leave open is the model's choice here.
* `latch`, unspecified after `INIT`: DESIGN CHOICE (unsafe), zeros (`notes/assumptions/10.md`).
* `mem`, for `BUF` and the caller's records, which R36 and R261 leave unspecified: DESIGN CHOICE (unsafe), an empty
  record store, in which every reference dangles until the caller prepares its record (`notes/assumptions/8.md`).
* `answers`: DESIGN CHOICE (unsafe), an empty script, so that free values answer until one is scripted; `tick`: DESIGN
  CHOICE (unsafe), zero (both `notes/assumptions/4.md`).
* `callers`, `trace` and `ret`: DESIGN CHOICE (safe), nothing asked, observed or returned yet (`notes/assumptions/2.md`,
  `notes/assumptions/16.md`).
* `params`: the spec's defaults, PRESUMED where it takes them from general knowledge (`notes/assumptions/11.md`,
  `notes/assumptions/12.md`, `notes/assumptions/19.md`). -/
def State.reset : State where
  phase   := .idle
  run     := .stopped
  cfg     := none
  sense   := Vector.replicate Config.senseLen 0
  residue := 0
  latch   := { lba := 0, cnt := 0, dir := .read, idx := 0,
               geom := { blockSize := 0, blockCount := 0, writeProtected := false } }
  mem     := []
  params  := Config.defaultParams
  callers := []
  answers := []
  tick    := 0
  trace   := []
  ret     := .nothing

end Sys2Proof.Machine
end

