-- ==== Sys2Proof/Machine/Flags.lean ====
section
/-! DEFINITION. The condition state of the block (rule R32): the sense record as bytes (rules R140 to R146), the
shortfall of a transmit (rule R170), and the range check (rule R202). -/

namespace Sys2Proof.Machine

/-- The 18 bytes `setSense` stores (rule R140): zeros, then the five named fields. -/
def senseRecord (p : Config.Params) (key code qualifier : Byte) : Vector Byte Config.senseLen :=
  ((((((Vector.replicate Config.senseLen (0 : Byte)).set p.senseOffResponseCode Config.senseResponseCode).set
    p.senseOffKey key).set p.senseOffAddLen Config.senseAddLen).set
    p.senseOffAsc code).set p.senseOffAscq qualifier)

/-- `SENSE_RESET` (rule R145). -/
def senseReset : Vector Byte Config.senseLen := Vector.replicate Config.senseLen 0

/-- `SENSE_OK` (rules R141, R145). -/
def senseOk (p : Config.Params) : Vector Byte Config.senseLen :=
  senseRecord p p.keyGood p.ascNoAdditionalInformation p.ascqNoQualifier

/-- `SENSE_INVALID_COMMAND` (rule R145). -/
def senseInvalidCommand (p : Config.Params) : Vector Byte Config.senseLen :=
  senseRecord p p.keyIllegalRequest p.ascInvalidCommand p.ascqNoQualifier

/-- `SENSE_INVALID_FIELD` (rule R145). -/
def senseInvalidField (p : Config.Params) : Vector Byte Config.senseLen :=
  senseRecord p p.keyIllegalRequest p.ascInvalidFieldInCdb p.ascqNoQualifier

/-- `SENSE_LBA_OUT_OF_RANGE` (rule R145). -/
def senseLbaOutOfRange (p : Config.Params) : Vector Byte Config.senseLen :=
  senseRecord p p.keyIllegalRequest p.ascLbaOutOfRange p.ascqNoQualifier

/-- The five values the record can have between host operations (rules R25, R145). -/
def reachableSense (p : Config.Params) : List (Vector Byte Config.senseLen) :=
  [senseReset, senseOk p, senseInvalidCommand p, senseInvalidField p, senseLbaOutOfRange p]

/-- `length - sent` of `transmitData` (rule R170); exact, as `sent` is at most `length` (rule R120). -/
def shortfall (length sent : Word32) : Word32 := length - sent

/-- The range check of a data command passes: the sum is exact, never wrapped (rule R202). -/
def inRange (lba : Word32) (cnt : Word16) (blockCount : Word32) : Bool :=
  decide (lba.toNat + cnt.toNat ≤ blockCount.toNat)

/-- INQUIRY's two fields are as they must be (rule R171). -/
def inquiryFieldsValid (p : Config.Params) (flags page : Byte) : Bool :=
  decide (flags &&& p.inqEvpdMask = 0 ∧ page = 0)

/-- REQUEST SENSE's four bytes are as they must be (rule R172). -/
def requestSenseFieldsValid (r1 r2 r3 alloc : Byte) : Bool :=
  decide (r1 = 0 ∧ r2 = 0 ∧ r3 = 0 ∧ alloc = BitVec.ofNat 8 Config.senseLen)

end Sys2Proof.Machine
end

