-- ==== Sys2Proof/Machine/Operands.lean ====
section
/-! DEFINITION. The fixed responses (rules R90 to R93, R117 to R119) and the scratch buffer as an operand: what a fill
leaves in it, and the address of the block that is moved. -/

namespace Sys2Proof.Machine

/-- `packReadCapacity10` (rule R117); the last block address wraps for a device of no blocks. -/
def packReadCapacity10 (order : Config.Rc10Order) (blockSize blockCount : Word32) : List Byte :=
  match order with
  | .sizeThenLba => enc32 blockSize ++ enc32 (blockCount - 1)
  | .lbaThenSize => enc32 (blockCount - 1) ++ enc32 blockSize

/-- `packModeSense6` (rule R118). -/
def packModeSense6 (writeProtected : Bool) : List Byte :=
  [BitVec.ofNat 8 (Config.ms6Len - 1), 0x00, if writeProtected then Config.ms6Wp else 0x00, 0x00]

/-- The new content of a buffer that a collaborator fills from its start: as many bytes as the buffer has, and what
the answer does not cover stays (rules R29, R53, R54; `notes/assumptions/5.md`). -/
def fill (old data : List Byte) : List Byte := (data ++ old.drop data.length).take old.length

/-- The block a data command moves next: `REQ.LBA + IDX` (rules R200, R207). -/
def blockLba (l : Latches) : Word32 := l.lba + BitVec.ofNat 32 l.idx

/-- The reset policy's answer to "does EXECUTE reset the sense record now?" (rule R151). -/
def resetsSense (policy : Config.SensePolicy) (isRequestSense : Bool) : Bool :=
  match policy with
  | .alwaysAtEntry => true
  | .skipOnRequestSense => !isRequestSense

end Sys2Proof.Machine
end

