-- ==== Sys2Proof/Machine/Ops.lean ====
section
/-! DEFINITION. The named operations every meaning is made of: field updates, the configuration store, the guard of a
host operation, the port calls (rules R14, R53, R54), reporting an error (rules R230, R239) and its end (rule R240). -/

namespace Sys2Proof.Machine

/-! ## The configuration store -/

/-- References strictly rising: the one canonical form. -/
abbrev Memory.wf (m : Memory) : Prop := m.Pairwise fun a b => a.1 < b.1

/-- The record a reference leads to. -/
def Memory.read : Memory → Nat → Option Configuration
  | [], _ => none
  | (k, c) :: rest, ref => if k = ref then some c else Memory.read rest ref

/-- Put a record under a reference, keeping the canonical form. -/
def Memory.write : Memory → Nat → Configuration → Memory
  | [], ref, c => [(ref, c)]
  | (k, old) :: rest, ref, c =>
    if ref < k then (ref, c) :: (k, old) :: rest
    else if ref = k then (ref, c) :: rest
    else (k, old) :: Memory.write rest ref c

/-! ## Field updates -/

/-- `setSense` (rule R140): all 18 bytes in one step. -/
def State.setSense (s : State) (key code qualifier : Byte) : State :=
  { s with sense := senseRecord s.params key code qualifier }

/-- `setSenseOk` (rule R141). -/
def State.setSenseOk (s : State) : State :=
  s.setSense s.params.keyGood s.params.ascNoAdditionalInformation s.params.ascqNoQualifier

/-- `T.RESIDUE <- r`. -/
def State.setResidue (s : State) (r : Word32) : State := { s with residue := r }

/-- Append an event to the trace (rule R57). -/
def State.emit (s : State) (e : Event) : State := { s with trace := s.trace ++ [e] }

/-- The value an operation returns (rule R97). -/
def State.returns (s : State) (r : Returned) : State := { s with ret := r }

/-- `BUF <- bytes`, in the record under `ref` (rule R13). -/
def State.setBuf (s : State) (ref : Nat) (c : Configuration) (bytes : List Byte) : State :=
  { s with mem := s.mem.write ref { c with buf := bytes } }

/-- `REQ.LBA`, `REQ.CNT` and `DIR` (rules R114, R201). -/
def State.latchRequest (s : State) (lba : Word32) (cnt : Word16) (dir : Direction) : State :=
  { s with latch := { s.latch with lba := lba, cnt := cnt, dir := dir } }

/-- `GEOM`, the one answer a data command uses (rule R202). -/
def State.latchGeometry (s : State) (g : Geometry) : State := { s with latch := { s.latch with geom := g } }

/-- `IDX <- i` (rule R200). -/
def State.setIdx (s : State) (i : Nat) : State := { s with latch := { s.latch with idx := i } }

/-- A data command is over: its latches are unspecified from now on (rules R27, R28, R209). -/
def State.dropLatches (s : State) : State :=
  { s with latch := Config.freeLatches s.tick, tick := s.tick + 1 }

/-- The operation is stuck at a port call (rule R70). -/
def State.stuckAt (s : State) (call : PortCall) : State := { s with phase := .stuck call }

/-! ## The scratch-buffer arbiter -/

/-- `BUF_OWNER` (rules R67, R211), derived from where the operation stands. -/
def State.bufOwner (s : State) : BufOwner :=
  match s.phase with
  | .stuck (.devRead _) => .dev
  | .stuck (.devWrite _) => .dev
  | .stuck .txBlock => .tr
  | .stuck .rxBlock => .tr
  | .stuck .devInfo => .none
  | .stuck .txResponse => .none
  | .uninit => .none
  | .idle => .none

/-! ## The oracle of the collaborators -/

/-- The answer to the next port call: the scripted one, and where the script has run out a free value within the
port's contract, which is `count ≤ limit` (rules R5, R54; `notes/assumptions/4.md`). Rule R35 leaves targets on one
device or transport to the caller; DESIGN CHOICE (unsafe for a claim about two such targets, safe for one target): a
free answer depends on the handle and on the target's own `tick` alone, so two targets that hold the same handle draw
the same free answer at equal ticks (`notes/assumptions/1.md`, `notes/assumptions/4.md`). -/
def State.answer (s : State) (h : Handle) (limit : Word32) : Answer :=
  match s.answers with
  | a :: _ => a
  | [] =>
    let a := Config.freeAnswer h s.tick
    { a with responds := true, count := if a.count ≤ limit then a.count else limit }

/-- The answer has been given. -/
def State.consume (s : State) : State := { s with answers := s.answers.tail, tick := s.tick + 1 }

/-! ## Computations that may stop inside -/

/-- How a computation of one host operation ends: with a value, stuck at a port call, or with a model fault. -/
inductive Run (α : Type) where
  | done (a : α) (s : State)
  | stuck (s : State)
  | fault (f : Fault)

/-- Go on after a computation that ended with a value. -/
def Run.bind {α β : Type} (r : Run α) (k : α → State → Run β) : Run β :=
  match r with
  | .done a s => k a s
  | .stuck s => .stuck s
  | .fault f => .fault f

/-- End an `EXECUTE`: the status is returned; a stuck one returns nothing. -/
def Run.finish (r : Run Status) : Host.Outcome State Fault Refusal :=
  match r with
  | .done st s => .next (s.returns (.status st))
  | .stuck s => .next s
  | .fault f => .fault f

/-- Use the bound configuration record, read anew at every use (rules R14, R157, R267). -/
def withRecord {α : Type} (s : State) (k : Nat → Configuration → Run α) : Run α :=
  match s.cfg with
  | none => .fault .noCfg
  | some ref =>
    match s.mem.read ref with
    | none => .fault .noRecord
    | some c => k ref c

/-- One blocking port call (rules R61, R70): the call is made, it is answered, and only then the block goes on. -/
def portCall {α : Type} (s : State) (h : Handle) (limit : Word32) (call : PortCall)
    (k : Answer → State → Run α) : Run α :=
  if (s.answer h limit).responds then k (s.answer h limit) s.consume else .stuck (s.stuckAt call)

/-! ## The primitives of rule R14 -/

/-- `DevInfo()` (rule R53). -/
def devInfo (s : State) : Run Geometry :=
  withRecord s fun _ c => portCall s c.dev 0 .devInfo fun a s' => .done a.geom (s'.emit (.getInfo c.dev a.geom))

/-- `DevRead(lba)` (rule R53): the answer is the new content of `BUF`. -/
def devRead (lba : Word32) (s : State) : Run Unit :=
  withRecord s fun ref c => portCall s c.dev 0 (.devRead lba) fun a s' =>
    .done () ((s'.setBuf ref c (fill c.buf a.data)).emit (.devRead c.dev lba (fill c.buf a.data)))

/-- `DevWrite(lba)` (rule R53): the current content of `BUF`; no answer is examined. -/
def devWrite (lba : Word32) (s : State) : Run Unit :=
  withRecord s fun _ c => portCall s c.dev 0 (.devWrite lba) fun _ s' =>
    .done () (s'.emit (.devWrite c.dev lba c.buf))

/-- `TrTx(bytes, len)` (rule R54): `bytesSent`, which must not exceed `len`. -/
def trTx (call : PortCall) (bytes : List Byte) (len : Word32) (s : State) : Run Word32 :=
  withRecord s fun _ c => portCall s c.tr len call fun a s' =>
    if a.count ≤ len then .done a.count (s'.emit (.tx c.tr bytes len a.count)) else .fault (.txOver s'.trace)

/-- `TrRx(len)` (rule R54): the answer is the new content of `BUF`; the count is ignored. -/
def trRx (len : Word32) (s : State) : Run Unit :=
  withRecord s fun ref c => portCall s c.tr len .rxBlock fun a s' =>
    .done () ((s'.setBuf ref c (fill c.buf a.data)).emit (.rx c.tr len (fill c.buf a.data) a.count))

/-! ## Reporting an error, and its end -/

/-- `fail(k, c, q)` (rules R14, R230, R239), the block's one way to take an exception: the sense record is written and
the `EXECUTE` ends with `FAILED`; control goes nowhere and nothing is saved. -/
def failWith (key code qualifier : Byte) (s : State) : Run Status :=
  .done .failed (s.setSense key code qualifier)

/-- Step 1 of `EXECUTE` (rules R151, R240), the only end of an error condition: there is no return operation. -/
def State.enterExecute (s : State) (isRequestSense : Bool) : State :=
  if resetsSense s.params.policy isRequestSense then (s.returns .nothing).setSenseOk else s.returns .nothing

/-- Every host operation but INIT needs an initialised target on which nothing runs (rules R262, R265). -/
def onTarget (s : State) (k : State → Host.Outcome State Fault Refusal) : Host.Outcome State Fault Refusal :=
  match s.phase with
  | .uninit => .fault .uninit
  | .stuck _ => .fault .reentry
  | .idle => k s

/-- One command as an `EXECUTE` (rules R96, R150): step 1, then the handler, then its status. -/
def runExecute (isRequestSense : Bool) (handler : State → Run Status) (s : State) :
    Host.Outcome State Fault Refusal :=
  onTarget s fun s => (handler (s.enterExecute isRequestSense)).finish

/-- `transmitData` (rule R170): a short transmit records the residue and fails; a full one writes nothing. -/
def transmitData (bytes : List Byte) (len : Word32) (s : State) : Run Status :=
  (trTx .txResponse bytes len s).bind fun sent s =>
    if shortfall len sent = 0 then .done .success s
    else .done .failed (s.setResidue (shortfall len sent))

end Sys2Proof.Machine
end

