-- ==== Sys2Proof/Machine/DataTransfer.lean ====
section
/-! DEFINITION. The block data-transfer sequencer: READ(10) and WRITE(10) (rules R200 to R213). -/

namespace Sys2Proof.Machine

/-- One block (rules R67, R200): a fill of the scratch buffer, then its drain. The counts are discarded (rule R205). -/
def moveBlock (s : State) : Run Unit :=
  match s.latch.dir with
  | .read =>
    (devRead (blockLba s.latch) s).bind fun _ s =>
      withRecord s fun _ c => (trTx .txBlock c.buf s.latch.geom.blockSize s).bind fun _ s => .done () s
  | .write =>
    (trRx s.latch.geom.blockSize s).bind fun _ s => devWrite (blockLba s.latch) s

/-- The loop of rule R200, by the number of blocks still to move; it never exits early (rule R205). -/
def blockLoop : Nat → State → Run Unit
  | 0, s => .done () s
  | n + 1, s => (moveBlock s).bind fun _ s => blockLoop n (s.setIdx (s.latch.idx + 1))

/-- After the range check has passed: the buffer test, then the blocks (rules R200, R202). -/
def transferBlocks (s : State) : Run Status :=
  withRecord s fun _ c =>
    if 1 ≤ s.latch.cnt.toNat ∧ c.buf.length ≠ s.latch.geom.blockSize.toNat then .fault (.bufSize s.trace)
    else (blockLoop s.latch.cnt.toNat (s.setIdx 0)).bind fun _ s => .done .success s.dropLatches

/-- The error of a request beyond the device (rule R233). -/
def failOutOfRange (s : State) : Run Status :=
  failWith s.params.keyIllegalRequest s.params.ascLbaOutOfRange s.params.ascqNoQualifier s

/-- `DataTransfer` (rules R200 to R202), from the decoded request on. -/
def dataTransfer (dir : Direction) (lba : Word32) (cnt : Word16) (s : State) : Run Status :=
  (devInfo (s.latchRequest lba cnt dir)).bind fun g s =>
    if inRange s.latch.lba s.latch.cnt g.blockCount then transferBlocks (s.latchGeometry g)
    else failOutOfRange (s.latchGeometry g).dropLatches

/-- READ(10) (rule R203). -/
def execRead10 (lba : Word32) (cnt : Word16) (s : State) : Host.Outcome State Fault Refusal :=
  runExecute false (dataTransfer .read lba cnt) s

/-- WRITE(10) (rule R204). -/
def execWrite10 (lba : Word32) (cnt : Word16) (s : State) : Host.Outcome State Fault Refusal :=
  runExecute false (dataTransfer .write lba cnt) s

end Sys2Proof.Machine
end

