-- ==== Sys2Proof/Machine/FixedResponse.lean ====
section
/-! DEFINITION. The fixed-response commands: INQUIRY, REQUEST SENSE, READ CAPACITY(10), MODE SENSE(6) (rules R170 to
R177). -/

namespace Sys2Proof.Machine

/-- The error of a command whose fields are not as they must be (rule R232). -/
def failInvalidField (s : State) : Run Status :=
  failWith s.params.keyIllegalRequest s.params.ascInvalidFieldInCdb s.params.ascqNoQualifier s

/-- The bytes an INQUIRY transmits: the first `INQUIRY_LEN` bytes of the bound template (rules R93, R171). DESIGN
CHOICE (safe): a template that has fewer, against rule R264 (d), is a fault (`notes/assumptions/25.md`). -/
def withTemplate {α : Type} (s : State) (k : List Byte → Run α) : Run α :=
  withRecord s fun _ c =>
    if s.params.inquiryLen.toNat ≤ c.inq.length then k (c.inq.take s.params.inquiryLen.toNat)
    else .fault .shortTemplate

/-- `Inquiry` (rule R171). -/
def inquiryHandler (flags page : Byte) (s : State) : Run Status :=
  if inquiryFieldsValid s.params flags page then
    withTemplate s fun template => transmitData template s.params.inquiryLen s
  else failInvalidField s

/-- `RequestSense` (rule R172): the record as it stands, not cleared afterwards. -/
def requestSenseHandler (r1 r2 r3 alloc : Byte) (s : State) : Run Status :=
  if requestSenseFieldsValid r1 r2 r3 alloc then
    transmitData s.sense.toList (BitVec.ofNat 32 Config.senseLen) s
  else failInvalidField s

/-- `ReadCapacity10` (rule R173). -/
def readCapacityHandler (s : State) : Run Status :=
  (devInfo s).bind fun g s =>
    transmitData (packReadCapacity10 s.params.order g.blockSize g.blockCount) (BitVec.ofNat 32 Config.rc10Len) s

/-- `ModeSense6` (rule R174). -/
def modeSenseHandler (s : State) : Run Status :=
  (devInfo s).bind fun g s =>
    transmitData (packModeSense6 g.writeProtected) (BitVec.ofNat 32 Config.ms6Len) s

/-- INQUIRY (rule R171). -/
def execInquiry (flags page : Byte) (s : State) : Host.Outcome State Fault Refusal :=
  runExecute false (inquiryHandler flags page) s

/-- REQUEST SENSE (rule R172). -/
def execReqsense (r1 r2 r3 alloc : Byte) (s : State) : Host.Outcome State Fault Refusal :=
  runExecute true (requestSenseHandler r1 r2 r3 alloc) s

/-- READ CAPACITY(10) (rule R173). -/
def execReadcap10 (s : State) : Host.Outcome State Fault Refusal := runExecute false readCapacityHandler s

/-- MODE SENSE(6) (rule R174). -/
def execModesense6 (s : State) : Host.Outcome State Fault Refusal := runExecute false modeSenseHandler s

end Sys2Proof.Machine
end

