-- ==== Sys2Proof/Machine/Lifecycle.lean ====
section
/-! DEFINITION. The lifecycle operations INIT, START, STOP, RESIDUE (rules R130 to R137). -/

namespace Sys2Proof.Machine

/-- What INIT leaves (rules R36, R130): the four fields of the target at their reset values, nothing else touched. -/
def State.afterInit (s : State) : State :=
  { s with phase := .idle, run := .stopped, sense := senseReset, residue := 0, cfg := none, ret := .nothing }

/-- `INIT(T)` (rule R130): valid on any target on which nothing runs, one never initialised included. -/
def execInit (s : State) : Host.Outcome State Fault Refusal :=
  match s.phase with
  | .stuck _ => .fault .reentry
  | .uninit => .next s.afterInit
  | .idle => .next s.afterInit

/-- `START(T, cfg)` (rule R131): the reference is bound, not looked into. -/
def execStart (ref : Nat) (s : State) : Host.Outcome State Fault Refusal :=
  onTarget s fun s => .next (State.returns { s with cfg := some ref, run := .ready } .nothing)

/-- `STOP(T)` (rule R132). -/
def execStop (s : State) : Host.Outcome State Fault Refusal :=
  onTarget s fun s => .next (State.returns { s with cfg := none, run := .stopped } .nothing)

/-- `RESIDUE(T)` (rule R133). -/
def execResidue (s : State) : Host.Outcome State Fault Refusal :=
  onTarget s fun s => .next (s.returns (.residue s.residue))

end Sys2Proof.Machine
end

