-- ==== Sys2Proof/Machine/NoData.lean ====
section
/-! DEFINITION. The commands that make no port call: TEST UNIT READY, PREVENT/ALLOW MEDIUM REMOVAL and every unknown
opcode (rules R153 to R155). -/

namespace Sys2Proof.Machine

/-- `NoOp` (rule R153). -/
def noOp (s : State) : Run Status := .done .success s.setSenseOk

/-- TEST UNIT READY (rule R153). -/
def execTur (s : State) : Host.Outcome State Fault Refusal := runExecute false noOp s

/-- PREVENT/ALLOW MEDIUM REMOVAL (rule R154). -/
def execPrevallow (s : State) : Host.Outcome State Fault Refusal := runExecute false noOp s

/-- The error of an opcode that is none of the eight (rule R234). -/
def failInvalidCommand (s : State) : Run Status :=
  failWith s.params.keyIllegalRequest s.params.ascInvalidCommand s.params.ascqNoQualifier s

/-- An unknown opcode (rule R155): which one makes no difference. -/
def execUnknown (_op : Byte) (s : State) : Host.Outcome State Fault Refusal :=
  runExecute false failInvalidCommand s

end Sys2Proof.Machine
end

