-- ==== Sys2Proof/Machine/Execute.lean ====
section
/-! DEFINITION. `EXECUTE` (rules R150 to R158): decode a command buffer and run the command it selects. -/

namespace Sys2Proof.Machine

/-- The nine-way selection of rule R152. A command buffer never selects a host operation (rule R95); one started from
inside a running EXECUTE would be a re-entry (rule R265). -/
def runCommand (i : Instr) (s : State) : Host.Outcome State Fault Refusal :=
  match i with
  | .tur => execTur s
  | .reqsense r1 r2 r3 alloc => execReqsense r1 r2 r3 alloc s
  | .inquiry flags page => execInquiry flags page s
  | .modesense6 => execModesense6 s
  | .prevallow => execPrevallow s
  | .readcap10 => execReadcap10 s
  | .read10 lba cnt => execRead10 lba cnt s
  | .write10 lba cnt => execWrite10 lba cnt s
  | .unknown op => execUnknown op s
  | .init => .fault .reentry
  | .start _ => .fault .reentry
  | .stop => .fault .reentry
  | .residue => .fault .reentry
  | .execute _ => .fault .reentry

/-- `EXECUTE(T, CDB)` (rule R150); a buffer that ends too early is `F_CDBSHORT` (rules R51, R85). -/
def execExecute (cdb : List Byte) (s : State) : Host.Outcome State Fault Refusal :=
  onTarget s fun s =>
    match decode s.params cdb with
    | .ok i => runCommand i s
    | .error (.cdbShort _) => .fault .cdbShort

end Sys2Proof.Machine
end

