-- ==== Sys2Proof/Machine/Dispatch.lean ====
section
/-! DEFINITION. One arm per operation of the opcode table. -/

namespace Sys2Proof.Machine

def exec (i : Instr) (s : State) : Host.Outcome State Fault Refusal :=
  match i with
  | .tur => Sys2Proof.Machine.execTur s
  | .reqsense r1 r2 r3 alloc => Sys2Proof.Machine.execReqsense r1 r2 r3 alloc s
  | .inquiry flags page => Sys2Proof.Machine.execInquiry flags page s
  | .modesense6 => Sys2Proof.Machine.execModesense6 s
  | .prevallow => Sys2Proof.Machine.execPrevallow s
  | .readcap10 => Sys2Proof.Machine.execReadcap10 s
  | .read10 lba cnt => Sys2Proof.Machine.execRead10 lba cnt s
  | .write10 lba cnt => Sys2Proof.Machine.execWrite10 lba cnt s
  | .unknown op => Sys2Proof.Machine.execUnknown op s
  | .init => Sys2Proof.Machine.execInit s
  | .start ref => Sys2Proof.Machine.execStart ref s
  | .stop => Sys2Proof.Machine.execStop s
  | .residue => Sys2Proof.Machine.execResidue s
  | .execute cdb => Sys2Proof.Machine.execExecute cdb s

end Sys2Proof.Machine
end

