-- ==== Sys2Proof/Machine/Caller.lean ====
section
/-! DEFINITION. The caller's side of a step (rules R5, R6, R263, R265): fetching the next action and running it. -/

namespace Sys2Proof.Machine

/-- The first of the actions, if any, is a host operation started without waiting (rule R265). DESIGN CHOICE (safe):
the flag speaks of the very next action alone. A call marked as overlapping that stands behind a `prepare` is not taken
to overlap the operation before that `prepare`: it runs as any other call, and on a stuck target, where the `prepare` is
never reached, it is never started (`notes/assumptions/7.md`). -/
def nextOverlaps : List CallerAction → Bool
  | [] => false
  | .call _ overlaps :: _ => overlaps
  | .prepare _ _ :: _ => false

/-- The caller's action, on a target on which nothing runs; `rest` is what the caller does after it. A host operation
that the caller starts while this one runs is a re-entry (rule R265). DESIGN CHOICE (safe): the overlap is tested
first, so that an overlapped operation on a target never initialised is F_REENTRY, not F_UNINIT; rules R262 and R265
give the two no order (`notes/assumptions/13.md`). -/
def stepAction (a : CallerAction) (rest : List CallerAction) (s : State) : Host.Outcome State Fault Refusal :=
  match a with
  | .prepare ref record => .next { s with mem := s.mem.write ref record, callers := rest }
  | .call op _ =>
    if nextOverlaps rest then .fault .reentry else exec op.toInstr { s with callers := rest }

/-- The next action, if the caller has one; otherwise the block is idle and keeps its state (rules R247, R261). -/
def stepCaller (s : State) : Host.Outcome State Fault Refusal :=
  match s.callers with
  | [] => .next s
  | a :: rest => stepAction a rest s

/-- An operation that is stuck never returns (rules R70, R244), so a caller that waits for it does nothing more; an
operation started all the same is a re-entry (rule R265). -/
def stepStuck (s : State) : Host.Outcome State Fault Refusal :=
  if nextOverlaps s.callers then .fault .reentry else .next s

/-- The caller's one pending action: `EXECUTE` of a table word's command buffer. -/
def fetchActions (nbits w : Nat) : List CallerAction := [.call (.execute (cdbOfTableWord nbits w)) false]

/-- No operation is running: the phase a fetch needs. -/
def Phase.released : Phase → Phase
  | .stuck _ => .idle
  | .uninit => .uninit
  | .idle => .idle

end Sys2Proof.Machine
end

