-- ==== Sys2Proof/Machine/Step.lean ====
section
/-! DEFINITION. One step: the caller's next action (rules R5, R6). -/

namespace Sys2Proof.Machine

/-- One step. -/
def step (s : State) : Host.Outcome State Fault Refusal :=
  match s.phase with
  | .stuck _ => stepStuck s
  | .uninit => stepCaller s
  | .idle => stepCaller s

/-- The state whose very next step is `EXECUTE` of the table word's command buffer (`notes/assumptions/2.md`). -/
def State.withFetchWord (s : State) (nbits w : Nat) : State :=
  { s with callers := fetchActions nbits w, phase := s.phase.released }

end Sys2Proof.Machine
end

