-- ==== Sys2Proof/Machine/Targets.lean ====
section
/-! DEFINITION. Several targets (rules R35, R68, R246): fully independent, each with its own state; the caller picks
whose operation runs next, and each operation is atomic for its own target. Two of them may hold the same device or
transport handle, which rule R35 leaves to the caller; how they are then answered is the model's choice
(`notes/assumptions/1.md`). -/

namespace Sys2Proof.Machine

/-- The targets, by position; there is no identifier register (rule R246). -/
abbrev Targets := List State

/-- One step of the k-th target; no such target, no change. -/
def stepTarget (ts : Targets) (k : Nat) : Host.Outcome Targets Fault Refusal :=
  match ts[k]? with
  | none => .next ts
  | some s =>
    match step s with
    | .next s' => .next (ts.set k s')
    | .fault f => .fault f
    | .refused r => .refused r

end Sys2Proof.Machine
end

