-- ==== Sys2Proof/Safety.lean ====
section
/-! DEFINITION. The terms claims are stated in: the invariant of the state, the bound record, the answers a command
meets, and the spec's named assumptions on well-behaved collaborators (rule R56) as properties of a trace. -/

namespace Sys2Proof.Machine

/-! ## The invariant -/

/-- What every state between and inside host operations satisfies: the configuration store is in canonical form; on an
initialised target the sense record is one of the five values of rule R145, and a configuration is bound exactly when
the run-state is READY (rule R135); the parameters are legal (rule R83). A target never initialised has unspecified
fields (rule R262). -/
structure State.Inv (s : State) : Prop where
  memory : s.mem.wf
  sense  : s.phase ≠ .uninit → s.sense ∈ reachableSense s.params
  bound  : s.phase ≠ .uninit → (s.cfg = none ↔ s.run = .stopped)
  params : ParamsOk s.params

/-- Nothing runs on the target and it is initialised. -/
abbrev State.Idle (s : State) : Prop := s.phase = .idle

/-- The configuration record `c` is bound, under the reference `ref`. -/
structure State.Bound (s : State) (ref : Nat) (c : Configuration) : Prop where
  reference : s.cfg = some ref
  record    : s.mem.read ref = some c

/-- The sense record of a target is left at what step 1 of EXECUTE makes it (rule R151). -/
def entrySense (s : State) (isRequestSense : Bool) : Vector Byte Config.senseLen :=
  if resetsSense s.params.policy isRequestSense then senseOk s.params else s.sense

/-! ## The answers a command meets -/

/-- The answer to the (k+1)-th port call from here on, on handle `h` with contract bound `limit`. -/
def State.answerAfter (s : State) (k : Nat) (h : Handle) (limit : Word32) : Answer :=
  (State.consume^[k] s).answer h limit

/-- The scratch buffer after the first `k` blocks of a data command that are filled by the answers number `first`,
`first + 2`, … of handle `h` (rules R203, R204). -/
def bufferAfter (s : State) (h : Handle) (limit : Word32) (first : Nat) (old : List Byte) : Nat → List Byte
  | 0 => old
  | k + 1 => fill (bufferAfter s h limit first old k) (s.answerAfter (first + 2 * k) h limit).data

/-- Every port call that this command really makes from `s` is answered within the contract (rules R53, R54), and the
record it uses is as rule R264 asks: for the calls of a fixed response its transmit, for a data command in range the
calls of each block, and a buffer of one block where there is a block to move. Nothing is asked of a command that makes
no port call. -/
def State.AnsweredInContract (s : State) : Instr → Prop
  | .tur => True
  | .prevallow => True
  | .unknown _ => True
  | .inquiry flags page => inquiryFieldsValid s.params flags page = true →
    ∃ ref c, s.Bound ref c ∧ s.params.inquiryLen.toNat ≤ c.inq.length ∧
      (s.answer c.tr s.params.inquiryLen).responds = true ∧
      (s.answer c.tr s.params.inquiryLen).count ≤ s.params.inquiryLen
  | .reqsense r1 r2 r3 alloc => requestSenseFieldsValid r1 r2 r3 alloc = true →
    ∃ ref c, s.Bound ref c ∧ (s.answer c.tr 18).responds = true ∧ (s.answer c.tr 18).count ≤ 18
  | .readcap10 => ∃ ref c, s.Bound ref c ∧ (s.answerAfter 0 c.dev 0).responds = true ∧
      (s.answerAfter 1 c.tr 8).responds = true ∧ (s.answerAfter 1 c.tr 8).count ≤ 8
  | .modesense6 => ∃ ref c, s.Bound ref c ∧ (s.answerAfter 0 c.dev 0).responds = true ∧
      (s.answerAfter 1 c.tr 4).responds = true ∧ (s.answerAfter 1 c.tr 4).count ≤ 4
  | .read10 lba cnt => ∃ ref c g, s.Bound ref c ∧ (s.answerAfter 0 c.dev 0).responds = true ∧
      (s.answerAfter 0 c.dev 0).geom = g ∧
      (lba.toNat + cnt.toNat ≤ g.blockCount.toNat → (1 ≤ cnt.toNat → c.buf.length = g.blockSize.toNat) ∧
        ∀ k, k < cnt.toNat → (s.answerAfter (1 + 2 * k) c.dev 0).responds = true ∧
          (s.answerAfter (2 + 2 * k) c.tr g.blockSize).responds = true ∧
          (s.answerAfter (2 + 2 * k) c.tr g.blockSize).count ≤ g.blockSize)
  | .write10 lba cnt => ∃ ref c g, s.Bound ref c ∧ (s.answerAfter 0 c.dev 0).responds = true ∧
      (s.answerAfter 0 c.dev 0).geom = g ∧
      (lba.toNat + cnt.toNat ≤ g.blockCount.toNat → (1 ≤ cnt.toNat → c.buf.length = g.blockSize.toNat) ∧
        ∀ k, k < cnt.toNat → (s.answerAfter (1 + 2 * k) c.tr g.blockSize).responds = true ∧
          (s.answerAfter (2 + 2 * k) c.dev 0).responds = true)
  | .init => True
  | .start _ => True
  | .stop => True
  | .residue => True
  | .execute _ => True

/-! ## What a command leaves -/

/-- A fixed-response command has run to its end (rules R156, R170, R176): the events `evs` and no others were made, the
sense record is `sense`, of a response of `len` bytes `sent` went out, and nothing else of the target, of the records
or of the caller's actions has changed. -/
structure RespondsWith (s t : State) (evs : List Event) (sense : Vector Byte Config.senseLen) (len sent : Word32) :
    Prop where
  phase   : t.phase = .idle
  run     : t.run = s.run
  cfg     : t.cfg = s.cfg
  sense   : t.sense = sense
  residue : t.residue = if sent = len then s.residue else len - sent
  latch   : t.latch = s.latch
  mem     : t.mem = s.mem
  params  : t.params = s.params
  callers : t.callers = s.callers
  answers : t.answers = s.answers.drop evs.length
  trace   : t.trace = s.trace ++ evs
  ret     : t.ret = .status (if sent = len then .success else .failed)

/-- A data command has run to its end (rules R156, R209): the events `evs` and no others were made, the sense record
is `sense`, the status `st`, the buffer of the bound record holds `buf`, and nothing else of the target, of the records
or of the caller's actions has changed. The latches are free (rule R27). -/
structure TransferEnds (s t : State) (ref : Nat) (c : Configuration) (evs : List Event)
    (sense : Vector Byte Config.senseLen) (st : Status) (buf : List Byte) : Prop where
  phase   : t.phase = .idle
  run     : t.run = s.run
  cfg     : t.cfg = s.cfg
  sense   : t.sense = sense
  residue : t.residue = s.residue
  bound   : t.mem.read ref = some { c with buf := buf }
  others  : ∀ r, r ≠ ref → t.mem.read r = s.mem.read r
  params  : t.params = s.params
  callers : t.callers = s.callers
  answers : t.answers = s.answers.drop evs.length
  trace   : t.trace = s.trace ++ evs
  ret     : t.ret = .status st

/-- A data command has come to a port call that is never answered (rules R70, R213): it is stuck at `call`, the events
`evs` and no others were made, the buffer of the bound record holds `buf`, nothing is returned, and nothing else of the
target, of the records or of the caller's actions has changed, but that step 1 has made the sense record OK. -/
structure TransferStuck (s t : State) (ref : Nat) (c : Configuration) (evs : List Event) (call : PortCall)
    (buf : List Byte) : Prop where
  phase   : t.phase = .stuck call
  run     : t.run = s.run
  cfg     : t.cfg = s.cfg
  sense   : t.sense = senseOk s.params
  residue : t.residue = s.residue
  bound   : t.mem.read ref = some { c with buf := buf }
  others  : ∀ r, r ≠ ref → t.mem.read r = s.mem.read r
  params  : t.params = s.params
  callers : t.callers = s.callers
  trace   : t.trace = s.trace ++ evs
  ret     : t.ret = .nothing

/-- A command has come to a port call outside the block loop that is never answered (rules R70, R213): it is stuck at
`call`, the events `evs` and no others were made, the sense record is `sense`, the latches hold `latch`, nothing is
returned, and nothing else of the target, of the records or of the caller's actions has changed. -/
structure HangsAt (s t : State) (evs : List Event) (call : PortCall) (sense : Vector Byte Config.senseLen)
    (latch : Latches) : Prop where
  phase   : t.phase = .stuck call
  owner   : t.bufOwner = .none
  run     : t.run = s.run
  cfg     : t.cfg = s.cfg
  sense   : t.sense = sense
  residue : t.residue = s.residue
  latch   : t.latch = latch
  mem     : t.mem = s.mem
  params  : t.params = s.params
  callers : t.callers = s.callers
  answers : t.answers = s.answers.drop evs.length
  trace   : t.trace = s.trace ++ evs
  ret     : t.ret = .nothing

/-- The command an `EXECUTE` runs: a command constructor itself, or what the buffer decodes to. -/
def runsCommand (p : Config.Params) (i j : Instr) : Prop :=
  (i.isCommand = true ∧ j = i) ∨ ∃ cdb, i = .execute cdb ∧ decode p cdb = .ok j

/-- The operations that are an `EXECUTE`: the nine commands, and EXECUTE of a buffer. -/
def isExecute (i : Instr) : Prop := i.isCommand = true ∨ ∃ cdb, i = .execute cdb

/-! ## Traces -/

/-- The bytes the initiator receives (rule R57): the first `sent` bytes of every transmit, in order. -/
def transmitted : List Event → List Byte
  | [] => []
  | .tx _ bytes _ sent :: rest => bytes.take sent.toNat ++ transmitted rest
  | .getInfo _ _ :: rest => transmitted rest
  | .devRead _ _ _ :: rest => transmitted rest
  | .devWrite _ _ _ :: rest => transmitted rest
  | .rx _ _ _ _ :: rest => transmitted rest

/-- The content of a block device, by block (rule R52): collaborator state, outside the block. -/
abbrev DeviceContent := Nat → List Byte

/-- The content after the writes of a trace, on a device whose writes take effect and that changes by nothing else
(`WB-D3`, `WB-D4`). -/
def contentAfter (d : DeviceContent) : List Event → DeviceContent
  | [] => d
  | .devWrite _ lba data :: rest => contentAfter (fun k => if k = lba.toNat then data else d k) rest
  | .getInfo _ _ :: rest => contentAfter d rest
  | .devRead _ _ _ :: rest => contentAfter d rest
  | .tx _ _ _ _ :: rest => contentAfter d rest
  | .rx _ _ _ _ :: rest => contentAfter d rest

/-- Every read returns the current content (`WB-D2`, with `WB-D3`, `WB-D4`). -/
def readsReturnContent (d : DeviceContent) : List Event → Prop
  | [] => True
  | .devRead _ lba data :: rest => data = d lba.toNat ∧ readsReturnContent d rest
  | .devWrite _ lba data :: rest => readsReturnContent (fun k => if k = lba.toNat then data else d k) rest
  | .getInfo _ _ :: rest => readsReturnContent d rest
  | .tx _ _ _ _ :: rest => readsReturnContent d rest
  | .rx _ _ _ _ :: rest => readsReturnContent d rest

/-- Every transmit is answered with the length asked (`WB-T1`). -/
def fullTransmits (evs : List Event) : Prop :=
  ∀ tr bytes len sent, Event.tx tr bytes len sent ∈ evs → sent = len

/-- Every receive delivers the next bytes of what the initiator sent, in order (`WB-T2`). -/
def receivesInOrder (incoming : List Byte) : List Event → Prop
  | [] => True
  | .rx _ len data _ :: rest => data = incoming.take len.toNat ∧ receivesInOrder (incoming.drop len.toNat) rest
  | .getInfo _ _ :: rest => receivesInOrder incoming rest
  | .devRead _ _ _ :: rest => receivesInOrder incoming rest
  | .devWrite _ _ _ :: rest => receivesInOrder incoming rest
  | .tx _ _ _ _ :: rest => receivesInOrder incoming rest

/-- The events of the blocks of a READ(10), from block `i` on, for the buffer contents `bufs` (rule R203). -/
def readEvents (c : Configuration) (bs : Word32) (lba : Word32) (sent : Nat → Word32) (buf : Nat → List Byte) (n : Nat) :
    List Event :=
  (List.range n).flatMap fun i =>
    [.devRead c.dev (lba + BitVec.ofNat 32 i) (buf (i + 1)), .tx c.tr (buf (i + 1)) bs (sent i)]

/-- The events of the blocks of a WRITE(10) (rule R204). -/
def writeEvents (c : Configuration) (bs : Word32) (lba : Word32) (got : Nat → Word32) (buf : Nat → List Byte) (n : Nat) :
    List Event :=
  (List.range n).flatMap fun i =>
    [.rx c.tr bs (buf (i + 1)) (got i), .devWrite c.dev (lba + BitVec.ofNat 32 i) (buf (i + 1))]

end Sys2Proof.Machine
end

