-- ==== Sys2Proof/Certificates/Slice0/Obligations.lean ====
section
/-! DEFINITION. The statements about the block, from the spec's rules. Tier and basis of each are in
`OBLIGATIONS.json`. -/

open Sys2Proof Sys2Proof.Machine

/-! ## Reset and lifecycle -/

/-- R261: what the reset operation leaves, and that the block then waits for the next host operation.
The idle step by which it waits is the model's own (`notes/assumptions/3.md`). -/
def Obligations.ResetIsStoppedUnboundAndWaits : Prop :=
  State.reset.run = .stopped ∧ State.reset.cfg = none ∧ State.reset.sense = Vector.replicate 18 0 ∧
    State.reset.residue = 0 ∧ step State.reset = .next State.reset

/-- R130: INIT on any target on which nothing runs, one never initialised included, writes the four fields and
touches no record, buffer or collaborator. That it leaves the latches, which R36 calls unspecified after it, as they were
is the model's choice (`notes/assumptions/10.md`), and the trace and the returned value are the model's own fields
(`notes/assumptions/16.md`). -/
def Obligations.InitResetsTheFourFields : Prop :=
  ∀ s : State, (∀ call, s.phase ≠ .stuck call) →
    exec .init s = .next { s with phase := .idle, run := .stopped, cfg := none, sense := Vector.replicate 18 0,
                                  residue := 0, ret := .nothing }

/-- R131: START binds the reference and makes the target READY, from any state, whatever the record; on a target never
initialised it is F_UNINIT (the spec's decision D18). -/
def Obligations.StartBindsAndMakesReady : Prop :=
  ∀ (s : State) (ref : Nat),
    (s.Idle → exec (.start ref) s = .next { s with cfg := some ref, run := .ready, ret := .nothing }) ∧
    (s.phase = .uninit → exec (.start ref) s = .fault .uninit)

/-- R132: STOP unbinds and stops; on a target never initialised it is F_UNINIT (D18). -/
def Obligations.StopUnbindsAndStops : Prop :=
  ∀ s : State,
    (s.Idle → exec .stop s = .next { s with cfg := none, run := .stopped, ret := .nothing }) ∧
    (s.phase = .uninit → exec .stop s = .fault .uninit)

/-- R133: RESIDUE returns the register and changes no state; on a target never initialised it is F_UNINIT (D18). -/
def Obligations.ResidueReturnsTheRegister : Prop :=
  ∀ s : State,
    (s.Idle → exec .residue s = .next { s with ret := .residue s.residue }) ∧
    (s.phase = .uninit → exec .residue s = .fault .uninit)

/-- R262, R243: on a target never initialised every operation but INIT is F_UNINIT. -/
def Obligations.UninitialisedTargetAcceptsOnlyInit : Prop :=
  ∀ (i : Instr) (s : State), s.phase = .uninit →
    (i ≠ .init → exec i s = .fault .uninit) ∧ (i = .init → ∃ t, exec i s = .next t ∧ t.Idle)

/-- R243, R265: an operation started while another is running on the target is F_REENTRY, whichever it is; so is one
that the caller starts, without waiting, while the operation of a step runs, be the target initialised or never
initialised. That the model can express this is its own choice (`notes/assumptions/7.md`); so is that an overlapped
operation on a target never initialised is F_REENTRY and not the F_UNINIT of R262, two rules the spec does not order
(`notes/assumptions/13.md`). -/
def Obligations.StartingAnOperationWhileOneRunsFaults : Prop :=
  (∀ (i : Instr) (s : State) (call : PortCall), s.phase = .stuck call → exec i s = .fault .reentry) ∧
  (∀ (s : State) (op op' : HostOp) (ov : Bool) (rest : List CallerAction),
    (s.phase = .idle ∨ s.phase = .uninit) → s.callers = .call op ov :: .call op' true :: rest →
      step s = .fault .reentry) ∧
  (∀ (s : State) (call : PortCall) (op : HostOp) (rest : List CallerAction),
    s.phase = .stuck call → s.callers = .call op true :: rest → step s = .fault .reentry)

/-- R135, R156: the run-state machine and the binding, over every operation: only INIT, START and STOP move them, only
INIT leads out of a target never initialised, and a binding goes with READY. -/
def Obligations.OnlyLifecycleOperationsMoveTheRunState : Prop :=
  ∀ (i : Instr) (s t : State), exec i s = .next t →
    (i = .init → t.run = .stopped ∧ t.cfg = none) ∧
    (∀ ref, i = .start ref → t.run = .ready ∧ t.cfg = some ref) ∧
    (i = .stop → t.run = .stopped ∧ t.cfg = none) ∧
    (i ≠ .init → (∀ ref, i ≠ .start ref) → i ≠ .stop → t.run = s.run ∧ t.cfg = s.cfg) ∧
    (s.phase = .uninit → i = .init) ∧ ((s.cfg = none ↔ s.run = .stopped) → (t.cfg = none ↔ t.run = .stopped))

/-- R136: the run-state gates nothing. An EXECUTE from a state that differs in the run-state alone does the same, fault
for fault and field for field, and keeps that difference. -/
def Obligations.RunStateGatesNoExecute : Prop :=
  ∀ (i : Instr) (s : State) (x : RunState), isExecute i →
    exec i { s with run := x } =
      match exec i s with
      | .next t => .next { t with run := x }
      | .fault f => .fault f
      | .refused r => .refused r

/-! ## The sense record -/

/-- R140: `setSense` writes all 18 bytes, whatever stood there, and nothing else: the five named fields at their
offsets (at 0, 2, 7, 12 and 13 with the defaults of `notes/assumptions/11.md`), every other byte zero. -/
def Obligations.SetSenseStoresAllEighteenBytes : Prop :=
  ∀ (s : State) (key code qualifier : Byte),
    (∀ i : Fin 18, (s.setSense key code qualifier).sense[i] =
      if i = s.params.senseOffAscq then qualifier else if i = s.params.senseOffAsc then code
      else if i = s.params.senseOffAddLen then 8 else if i = s.params.senseOffKey then key
      else if i = s.params.senseOffResponseCode then 0x70 else 0) ∧
    (s.params = Config.defaultParams → ∀ (i : Nat) (h : i < 18), (s.setSense key code qualifier).sense[i] =
      if i = 0 then 0x70 else if i = 2 then key else if i = 7 then 8 else if i = 12 then code
      else if i = 13 then qualifier else 0) ∧
    { s.setSense key code qualifier with sense := s.sense } = s

/-- R141, R142, R145: the named records, from the seven code values of the machine, and byte for byte with the defaults
(`notes/assumptions/11.md`). -/
def Obligations.NamedSenseRecordsHaveTheirBytes : Prop :=
  senseReset.toList = [0, 0, 0, 0, 0, 0, 0, 0, 0, 0, 0, 0, 0, 0, 0, 0, 0, 0] ∧
  (senseOk Config.defaultParams).toList = [0x70, 0, 0, 0, 0, 0, 0, 8, 0, 0, 0, 0, 0, 0, 0, 0, 0, 0] ∧
  (senseInvalidCommand Config.defaultParams).toList =
    [0x70, 0, 5, 0, 0, 0, 0, 8, 0, 0, 0, 0, 0x20, 0, 0, 0, 0, 0] ∧
  (senseInvalidField Config.defaultParams).toList =
    [0x70, 0, 5, 0, 0, 0, 0, 8, 0, 0, 0, 0, 0x24, 0, 0, 0, 0, 0] ∧
  (senseLbaOutOfRange Config.defaultParams).toList =
    [0x70, 0, 5, 0, 0, 0, 0, 8, 0, 0, 0, 0, 0x21, 0, 0, 0, 0, 0] ∧
  ∀ s : State,
    s.setSenseOk = { s with sense := senseOk s.params } ∧
    (s.setSense s.params.keyGood s.params.ascNoAdditionalInformation s.params.ascqNoQualifier).sense =
      senseOk s.params ∧
    (s.setSense s.params.keyIllegalRequest s.params.ascInvalidCommand s.params.ascqNoQualifier).sense =
      senseInvalidCommand s.params ∧
    (s.setSense s.params.keyIllegalRequest s.params.ascInvalidFieldInCdb s.params.ascqNoQualifier).sense =
      senseInvalidField s.params ∧
    (s.setSense s.params.keyIllegalRequest s.params.ascLbaOutOfRange s.params.ascqNoQualifier).sense =
      senseLbaOutOfRange s.params

/-- R151 (c), R231 under the default policy, command by command: the record an EXECUTE leaves is the no-error one, but
for the one sense error its command can have, which it then leaves together with FAILED; a stuck command and a recorded
short transfer leave the no-error record, whatever the residue was before. That the constructor `unknown` of an accepted opcode,
to which no buffer decodes, is an unknown command too is the model's choice (`notes/assumptions/23.md`). -/
def Obligations.SenseAfterExecuteIsThisCommandsOwn : Prop :=
  ∀ (i j : Instr) (s t : State), s.params.policy = .alwaysAtEntry → runsCommand s.params i j → exec i s = .next t →
    (t.ret ≠ .status .failed → t.sense = senseOk s.params) ∧
    (∀ op, j = .unknown op → t.ret = .status .failed ∧ t.sense = senseInvalidCommand s.params) ∧
    (∀ flags page, j = .inquiry flags page → ¬ (flags &&& s.params.inqEvpdMask = 0 ∧ page = 0) →
      t.ret = .status .failed ∧ t.sense = senseInvalidField s.params) ∧
    (∀ r1 r2 r3 alloc, j = .reqsense r1 r2 r3 alloc → ¬ (r1 = 0 ∧ r2 = 0 ∧ r3 = 0 ∧ alloc = 18) →
      t.ret = .status .failed ∧ t.sense = senseInvalidField s.params) ∧
    (∀ lba cnt, (j = .read10 lba cnt ∨ j = .write10 lba cnt) → t.ret = .status .failed →
      t.sense = senseLbaOutOfRange s.params) ∧
    ((j = .tur ∨ j = .prevallow ∨ j = .readcap10 ∨ j = .modesense6 ∨
        (∃ flags page, j = .inquiry flags page ∧ flags &&& s.params.inqEvpdMask = 0 ∧ page = 0) ∨
        j = .reqsense 0 0 0 18) → t.sense = senseOk s.params) ∧
    (∀ (evs : List Event) (tr : Handle) (bytes : List Byte) (len sent : Word32),
      (∀ lba cnt, j ≠ .read10 lba cnt ∧ j ≠ .write10 lba cnt) → t.trace = s.trace ++ evs ++ [.tx tr bytes len sent] →
      sent < len → t.ret = .status .failed ∧ t.sense = senseOk s.params)

/-! ## The dispatcher -/

/-- R153, R154: TEST UNIT READY and PREVENT/ALLOW MEDIUM REMOVAL always succeed, on a stopped target too, make no port
call and leave the no-error record and nothing else. -/
def Obligations.NoDataCommandsAlwaysSucceed : Prop :=
  ∀ s : State, s.Idle →
    exec .tur s = .next { s with sense := senseOk s.params, ret := .status .success } ∧
    exec .prevallow s = .next { s with sense := senseOk s.params, ret := .status .success }

/-- R87, R150: EXECUTE of any buffer that begins with one of their two opcodes does the same, whatever follows. -/
def Obligations.ExecuteOfNoDataOpcodesSucceeds : Prop :=
  ∀ (s : State) (rest : List Byte), s.Idle → ParamsOk s.params →
    exec (.execute (s.params.opcTestUnitReady :: rest)) s =
      .next { s with sense := senseOk s.params, ret := .status .success } ∧
    exec (.execute (s.params.opcPreventAllowMediumRemoval :: rest)) s =
      .next { s with sense := senseOk s.params, ret := .status .success }

/-- R155: every other opcode, whatever follows it, fails with ILLEGAL REQUEST, INVALID COMMAND and makes no port
call. -/
def Obligations.UnknownOpcodesFailWithInvalidCommand : Prop :=
  ∀ (s : State) (op : Byte) (rest : List Byte), s.Idle → op ∉ acceptedOpcodes s.params →
    exec (.execute (op :: rest)) s = .next { s with sense := senseInvalidCommand s.params, ret := .status .failed } ∧
    exec (.unknown op) s = .next { s with sense := senseInvalidCommand s.params, ret := .status .failed }

/-- R84, R152: the first byte alone selects the command, one of nine, by the machine's eight opcodes. Their default
values are those of `notes/assumptions/11.md`. -/
def Obligations.FirstByteSelectsOneOfNineCommands : Prop :=
  acceptedOpcodes Config.defaultParams = [0x00, 0x03, 0x12, 0x1A, 0x1E, 0x25, 0x28, 0x2A] ∧
  ∀ (p : Config.Params) (op : Byte) (rest : List Byte) (i : Instr), decode p (op :: rest) = .ok i →
    (i = .tur ∧ op = p.opcTestUnitReady) ∨ (∃ r1 r2 r3 alloc, i = .reqsense r1 r2 r3 alloc ∧ op = p.opcRequestSense) ∨
    (∃ flags page, i = .inquiry flags page ∧ op = p.opcInquiry) ∨ (i = .modesense6 ∧ op = p.opcModeSense6) ∨
    (i = .prevallow ∧ op = p.opcPreventAllowMediumRemoval) ∨ (i = .readcap10 ∧ op = p.opcReadCapacity10) ∨
    (∃ lba cnt, i = .read10 lba cnt ∧ op = p.opcRead10) ∨ (∃ lba cnt, i = .write10 lba cnt ∧ op = p.opcWrite10) ∨
    (i = .unknown op ∧ op ∉ acceptedOpcodes p)

/-- R150: EXECUTE of a buffer is the command the decoder reads from it. -/
def Obligations.ExecuteRunsTheDecodedCommand : Prop :=
  ∀ (cdb : List Byte) (i : Instr) (s : State), decode s.params cdb = .ok i →
    i.isCommand = true ∧ exec (.execute cdb) s = exec i s

/-- R150, R158: EXECUTE of any buffer that holds the bytes its command reads returns a status, whenever every port call
that this command really makes is answered within the contract, and the buffer is one block where the command has a
block to move. That a template longer than `INQUIRY_LEN` serves an INQUIRY too, which R264 (d) does not allow, is the
model's choice (`notes/assumptions/25.md`). -/
def Obligations.ExecuteCompletesWithinTheContract : Prop :=
  ∀ (s : State) (cdb : List Byte), s.Idle → ParamsOk s.params → cdbLongEnough s.params cdb = true →
    ∃ i, decode s.params cdb = .ok i ∧
      (s.AnsweredInContract i → ∃ t st, exec (.execute cdb) s = .next t ∧ t.Idle ∧ t.ret = .status st)

/-- R51, R85, R88: EXECUTE is F_CDBSHORT exactly when the buffer is empty or ends before the last byte its opcode's row
reads, whatever the bytes that are there hold; with the default positions (`notes/assumptions/11.md`) the smallest safe
lengths are those of rule R85. -/
def Obligations.ShortBuffersFaultAndNoOthers : Prop :=
  (∀ (s : State) (cdb : List Byte), s.Idle → ParamsOk s.params →
    (exec (.execute cdb) s = .fault .cdbShort ↔
      cdb = [] ∨ ∃ op, cdb.head? = some op ∧
        ((op = s.params.opcInquiry ∧ (cdb.length ≤ s.params.inqEvpdByte ∨ cdb.length ≤ s.params.inqPageByte)) ∨
          (op = s.params.opcRequestSense ∧ (cdb.length ≤ 3 ∨ cdb.length ≤ s.params.rsAllocByte)) ∨
          ((op = s.params.opcRead10 ∨ op = s.params.opcWrite10) ∧
            (cdb.length ≤ s.params.rwLbaOff + 3 ∨ cdb.length ≤ s.params.rwCntOff + 1))))) ∧
  ∀ op : Byte, smallestSafeLength Config.defaultParams op =
    if op = 0x12 then 3 else if op = 0x03 then 5 else if op = 0x28 ∨ op = 0x2A then 9 else 1

/-- R85, R87: a byte that is not in its opcode's row cannot affect anything. -/
def Obligations.UnlistedBytesDoNotMatter : Prop :=
  ∀ (s : State) (op : Byte) (rest rest' : List Byte),
    (∀ k ∈ operandPositions s.params op, (op :: rest)[k]? = (op :: rest')[k]?) →
    exec (.execute (op :: rest)) s = exec (.execute (op :: rest')) s

/-- R157: what every command does while no configuration is bound. That the constructor `unknown` of an accepted opcode,
to which no buffer decodes, is an unknown command too is the model's choice (`notes/assumptions/23.md`). -/
def Obligations.CommandsOnAnUnboundTarget : Prop :=
  ∀ s : State, s.Idle → s.cfg = none →
    exec .tur s = .next { s with sense := senseOk s.params, ret := .status .success } ∧
    exec .prevallow s = .next { s with sense := senseOk s.params, ret := .status .success } ∧
    (∀ op, exec (.unknown op) s = .next { s with sense := senseInvalidCommand s.params, ret := .status .failed }) ∧
    (∀ flags page : Byte, exec (.inquiry flags page) s =
      if flags &&& s.params.inqEvpdMask = 0 ∧ page = 0 then .fault .noCfg
      else .next { s with sense := senseInvalidField s.params, ret := .status .failed }) ∧
    (∀ r1 r2 r3 alloc : Byte, exec (.reqsense r1 r2 r3 alloc) s =
      if r1 = 0 ∧ r2 = 0 ∧ r3 = 0 ∧ alloc = 18 then .fault .noCfg
      else .next { s with sense := senseInvalidField s.params, ret := .status .failed }) ∧
    exec .readcap10 s = .fault .noCfg ∧ exec .modesense6 s = .fault .noCfg ∧
    (∀ lba cnt, exec (.read10 lba cnt) s = .fault .noCfg ∧ exec (.write10 lba cnt) s = .fault .noCfg)

/-! ## Fixed responses -/

/-- R170, R213: `transmitData` on a bound target whose transport answers: one TX event; a full transmit succeeds and
writes nothing, a short one records the shortfall and fails; an answer over the length is F_TXOVER, and an unbound
target is F_NOCFG. That the fault carries the trace up to the failing call is the model's choice
(`notes/assumptions/14.md`). -/
def Obligations.TransmitDataRecordsTheShortfall : Prop :=
  ∀ (s : State) (ref : Nat) (c : Configuration) (bytes : List Byte) (len : Word32),
    (s.Bound ref c → (s.answer c.tr len).responds = true →
      ((s.answer c.tr len).count = len →
        transmitData bytes len s = .done .success (s.consume.emit (.tx c.tr bytes len len))) ∧
      ((s.answer c.tr len).count < len →
        transmitData bytes len s = .done .failed
          { s.consume.emit (.tx c.tr bytes len (s.answer c.tr len).count) with
            residue := len - (s.answer c.tr len).count }) ∧
      (len < (s.answer c.tr len).count → transmitData bytes len s = .fault (.txOver s.trace))) ∧
    (s.cfg = none → transmitData bytes len s = .fault .noCfg)

/-- R171: INQUIRY. With EVPD clear and page code zero it offers the `INQUIRY_LEN` bytes of the template in one TX;
otherwise it fails with INVALID FIELD IN CDB before any port call. The flag bits outside the EVPD mask are ignored.
`INQUIRY_LEN` is a parameter of the machine; its default of 36 is presumed (`notes/assumptions/19.md`). That a template
longer than `INQUIRY_LEN`, which R264 (d) does not allow, is sent by its first `INQUIRY_LEN` bytes is the model's choice
(`notes/assumptions/25.md`). -/
def Obligations.InquirySendsTheTemplateOrFails : Prop :=
  ∀ (s : State) (flags page : Byte) (n : Word32), s.Idle → s.params.inquiryLen = n →
    (∀ (ref : Nat) (c : Configuration), flags &&& s.params.inqEvpdMask = 0 → page = 0 → s.Bound ref c →
      n.toNat ≤ c.inq.length → (s.answer c.tr n).responds = true → (s.answer c.tr n).count ≤ n →
      ∃ t, exec (.inquiry flags page) s = .next t ∧
        RespondsWith s t [.tx c.tr (c.inq.take n.toNat) n (s.answer c.tr n).count] (senseOk s.params) n
          (s.answer c.tr n).count) ∧
    ((flags &&& s.params.inqEvpdMask ≠ 0 ∨ page ≠ 0) →
      exec (.inquiry flags page) s = .next { s with sense := senseInvalidField s.params, ret := .status .failed })

/-- R172: REQUEST SENSE. With the reserved bytes zero and an allocation length of 18 it sends the record as it stands
after step 1 and leaves it; otherwise it fails with INVALID FIELD IN CDB before any port call. -/
def Obligations.RequestSenseSendsTheRecordOrFails : Prop :=
  ∀ (s : State) (r1 r2 r3 alloc : Byte), s.Idle →
    (∀ (ref : Nat) (c : Configuration), r1 = 0 → r2 = 0 → r3 = 0 → alloc = 18 → s.Bound ref c →
      (s.answer c.tr 18).responds = true → (s.answer c.tr 18).count ≤ 18 →
      ∃ (t : State) (record : Vector Byte 18), exec (.reqsense r1 r2 r3 alloc) s = .next t ∧
        (s.params.policy = .alwaysAtEntry → record = senseOk s.params) ∧
        (s.params.policy = .skipOnRequestSense → record = s.sense) ∧
        RespondsWith s t [.tx c.tr record.toList 18 (s.answer c.tr 18).count] record 18 (s.answer c.tr 18).count) ∧
    ((r1 ≠ 0 ∨ r2 ≠ 0 ∨ r3 ≠ 0 ∨ alloc ≠ 18) →
      exec (.reqsense r1 r2 r3 alloc) s = .next { s with sense := senseInvalidField s.params, ret := .status .failed })

/-- R173, R117: READ CAPACITY(10) asks for the geometry once and sends the block size and the last block address,
big-endian, in the order of the parameter; the last address of an empty device wraps. -/
def Obligations.ReadCapacitySendsSizeAndLastBlock : Prop :=
  ∀ (s : State) (ref : Nat) (c : Configuration) (g : Geometry) (sent : Word32), s.Idle → s.Bound ref c →
    (s.answerAfter 0 c.dev 0).responds = true → (s.answerAfter 0 c.dev 0).geom = g →
    (s.answerAfter 1 c.tr 8).responds = true → (s.answerAfter 1 c.tr 8).count = sent → sent ≤ 8 →
    ∃ (t : State) (bytes : List Byte), exec .readcap10 s = .next t ∧
      (s.params.order = .sizeThenLba → bytes = enc32 g.blockSize ++ enc32 (g.blockCount - 1)) ∧
      (s.params.order = .lbaThenSize → bytes = enc32 (g.blockCount - 1) ++ enc32 g.blockSize) ∧
      RespondsWith s t [.getInfo c.dev g, .tx c.tr bytes 8 sent] (senseOk s.params) 8 sent

/-- R174, R118: MODE SENSE(6) asks for the geometry once and sends four bytes whose third has bit 7 set exactly when
the device reports write-protected. -/
def Obligations.ModeSenseSendsTheWriteProtectBit : Prop :=
  ∀ (s : State) (ref : Nat) (c : Configuration) (g : Geometry) (sent : Word32), s.Idle → s.Bound ref c →
    (s.answerAfter 0 c.dev 0).responds = true → (s.answerAfter 0 c.dev 0).geom = g →
    (s.answerAfter 1 c.tr 4).responds = true → (s.answerAfter 1 c.tr 4).count = sent → sent ≤ 4 →
    ∃ t, exec .modesense6 s = .next t ∧
      RespondsWith s t
        [.getInfo c.dev g, .tx c.tr [3, 0, if g.writeProtected = true then 0x80 else 0, 0] 4 sent] (senseOk s.params) 4 sent

/-- R54, R171 to R174, R213, R243: a transport that answers a fixed response with more than its length is F_TXOVER, for
each of the four; the events before the failing call have happened. That the fault carries them is the model's choice
(`notes/assumptions/14.md`); `INQUIRY_LEN` is a parameter, its default presumed (`notes/assumptions/19.md`), and that
a template longer than it is sent in part is the model's choice (`notes/assumptions/25.md`). -/
def Obligations.OverlongTransmitAnswersFault : Prop :=
  ∀ (s : State) (ref : Nat) (c : Configuration) (n : Word32), s.Idle → s.Bound ref c → s.params.inquiryLen = n →
    (n.toNat ≤ c.inq.length → (s.answer c.tr n).responds = true → n < (s.answer c.tr n).count →
      ∀ flags : Byte, flags &&& s.params.inqEvpdMask = 0 →
        exec (.inquiry flags 0) s = .fault (.txOver s.trace)) ∧
    ((s.answer c.tr 18).responds = true → 18 < (s.answer c.tr 18).count →
      exec (.reqsense 0 0 0 18) s = .fault (.txOver s.trace)) ∧
    (∀ g, (s.answerAfter 0 c.dev 0).responds = true → (s.answerAfter 0 c.dev 0).geom = g →
      ((s.answerAfter 1 c.tr 8).responds = true → 8 < (s.answerAfter 1 c.tr 8).count →
        exec .readcap10 s = .fault (.txOver (s.trace ++ [.getInfo c.dev g]))) ∧
      ((s.answerAfter 1 c.tr 4).responds = true → 4 < (s.answerAfter 1 c.tr 4).count →
        exec .modesense6 s = .fault (.txOver (s.trace ++ [.getInfo c.dev g]))))

/-- R26: the residue register is written by INIT and by a short transmit of a fixed response, and by nothing else. -/
def Obligations.ResidueMovesOnlyOnShortResponses : Prop :=
  ∀ (i : Instr) (s t : State), exec i s = .next t → t.residue ≠ s.residue →
    (i = .init ∧ t.residue = 0) ∨
    (isExecute i ∧ t.ret = .status .failed ∧
      ∃ (evs : List Event) (tr : Handle) (bytes : List Byte) (len sent : Word32),
        t.trace = s.trace ++ evs ++ [.tx tr bytes len sent] ∧ sent < len ∧
        t.residue.toNat = len.toNat - sent.toNat)

/-! ## Data commands -/

/-- R233, R202: a data command whose exact sum is beyond the device's block count fails with LBA OUT OF RANGE after the
geometry query and before any data call. -/
def Obligations.OutOfRangeRequestsFailBeforeAnyData : Prop :=
  ∀ (s : State) (ref : Nat) (c : Configuration) (lba : Word32) (cnt : Word16) (g : Geometry), s.Idle → s.Bound ref c →
    (s.answerAfter 0 c.dev 0).responds = true → (s.answerAfter 0 c.dev 0).geom = g →
    g.blockCount.toNat < lba.toNat + cnt.toNat →
    (∃ t, exec (.read10 lba cnt) s = .next t ∧
      TransferEnds s t ref c [.getInfo c.dev g] (senseLbaOutOfRange s.params) .failed c.buf) ∧
    (∃ t, exec (.write10 lba cnt) s = .next t ∧
      TransferEnds s t ref c [.getInfo c.dev g] (senseLbaOutOfRange s.params) .failed c.buf)

/-- R203, R205, R206, R209: a READ(10) that passes the check, whose buffer is one block and whose collaborators answer
within their contract, succeeds whatever counts its transmits are answered with: the geometry query, then for each block
a fill from the device and its transmit, at addresses rising by one. What a fill of another length than BUF's leaves in
it is the model's reading (`notes/assumptions/5.md`). -/
def Obligations.ReadMovesEveryBlockFromDeviceToTransport : Prop :=
  ∀ (s : State) (ref : Nat) (c : Configuration) (lba : Word32) (cnt : Word16) (g : Geometry), s.Idle → s.Bound ref c →
    (s.answerAfter 0 c.dev 0).responds = true → (s.answerAfter 0 c.dev 0).geom = g →
    lba.toNat + cnt.toNat ≤ g.blockCount.toNat →
    (1 ≤ cnt.toNat → c.buf.length = g.blockSize.toNat) →
    (∀ k, k < cnt.toNat → (s.answerAfter (1 + 2 * k) c.dev 0).responds = true ∧
      (s.answerAfter (2 + 2 * k) c.tr g.blockSize).responds = true ∧
      (s.answerAfter (2 + 2 * k) c.tr g.blockSize).count ≤ g.blockSize) →
    ∃ t, exec (.read10 lba cnt) s = .next t ∧
      TransferEnds s t ref c
        (.getInfo c.dev g :: readEvents c g.blockSize lba
          (fun k => (s.answerAfter (2 + 2 * k) c.tr g.blockSize).count) (bufferAfter s c.dev 0 1 c.buf) cnt.toNat)
        (senseOk s.params) .success (bufferAfter s c.dev 0 1 c.buf cnt.toNat)

/-- R204, R205, R206, R209, R210: the same for WRITE(10): for each block a fill from the transport and its write to the
device, whether or not the device reports write-protected. What a fill of another length than BUF's leaves in it is the
model's reading (`notes/assumptions/5.md`). -/
def Obligations.WriteMovesEveryBlockFromTransportToDevice : Prop :=
  ∀ (s : State) (ref : Nat) (c : Configuration) (lba : Word32) (cnt : Word16) (g : Geometry), s.Idle → s.Bound ref c →
    (s.answerAfter 0 c.dev 0).responds = true → (s.answerAfter 0 c.dev 0).geom = g →
    lba.toNat + cnt.toNat ≤ g.blockCount.toNat →
    (1 ≤ cnt.toNat → c.buf.length = g.blockSize.toNat) →
    (∀ k, k < cnt.toNat → (s.answerAfter (1 + 2 * k) c.tr g.blockSize).responds = true ∧
      (s.answerAfter (2 + 2 * k) c.dev 0).responds = true) →
    ∃ t, exec (.write10 lba cnt) s = .next t ∧
      TransferEnds s t ref c
        (.getInfo c.dev g :: writeEvents c g.blockSize lba
          (fun k => (s.answerAfter (1 + 2 * k) c.tr g.blockSize).count) (bufferAfter s c.tr g.blockSize 1 c.buf) cnt.toNat)
        (senseOk s.params) .success (bufferAfter s c.tr g.blockSize 1 c.buf cnt.toNat)

/-- R208: a count of zero moves nothing, is no error up to one past the last block, does not look at the buffer's size,
and does not excuse an address beyond that. -/
def Obligations.ZeroCountMovesNothing : Prop :=
  ∀ (s : State) (ref : Nat) (c : Configuration) (lba : Word32) (g : Geometry), s.Idle → s.Bound ref c →
    (s.answerAfter 0 c.dev 0).responds = true → (s.answerAfter 0 c.dev 0).geom = g →
    (lba ≤ g.blockCount →
      (∃ t, exec (.read10 lba 0) s = .next t ∧ TransferEnds s t ref c [.getInfo c.dev g] (senseOk s.params) .success c.buf) ∧
      (∃ t, exec (.write10 lba 0) s = .next t ∧ TransferEnds s t ref c [.getInfo c.dev g] (senseOk s.params) .success c.buf)) ∧
    (g.blockCount < lba →
      (∃ t, exec (.read10 lba 0) s = .next t ∧
        TransferEnds s t ref c [.getInfo c.dev g] (senseLbaOutOfRange s.params) .failed c.buf) ∧
      (∃ t, exec (.write10 lba 0) s = .next t ∧
        TransferEnds s t ref c [.getInfo c.dev g] (senseLbaOutOfRange s.params) .failed c.buf))

/-- R202, R243: a data command that passes the check and is about to move a block through a buffer of another size is
F_BUFSIZE; the geometry query has happened. That the fault carries the trace up to there is the model's choice
(`notes/assumptions/14.md`). -/
def Obligations.WrongBufferSizeFaults : Prop :=
  ∀ (s : State) (ref : Nat) (c : Configuration) (lba : Word32) (cnt : Word16) (g : Geometry), s.Idle → s.Bound ref c →
    (s.answerAfter 0 c.dev 0).responds = true → (s.answerAfter 0 c.dev 0).geom = g →
    lba.toNat + cnt.toNat ≤ g.blockCount.toNat → 1 ≤ cnt.toNat → c.buf.length ≠ g.blockSize.toNat →
    exec (.read10 lba cnt) s = .fault (.bufSize (s.trace ++ [.getInfo c.dev g])) ∧
    exec (.write10 lba cnt) s = .fault (.bufSize (s.trace ++ [.getInfo c.dev g]))

/-- R206: whatever the collaborators do, a data command that has run to its end has failed exactly when its exact sum is
beyond the block count of its own geometry query. -/
def Obligations.DataCommandsFailOnlyOnRange : Prop :=
  ∀ (i : Instr) (lba : Word32) (cnt : Word16) (s t : State) (evs : List Event),
    (i = .read10 lba cnt ∨ i = .write10 lba cnt) → exec i s = .next t → t.Idle → t.trace = s.trace ++ evs →
    ∃ (dev : Handle) (g : Geometry), evs.head? = some (.getInfo dev g) ∧
      (g.blockCount.toNat < lba.toNat + cnt.toNat → t.ret = .status .failed ∧ t.sense = senseLbaOutOfRange s.params) ∧
      (lba.toNat + cnt.toNat ≤ g.blockCount.toNat → t.ret = .status .success ∧ t.sense = senseOk s.params)

/-- R207: whatever the collaborators do, every block a data command reads or writes has an address of the request, never
wrapped, and below the block count of the command's own geometry query. -/
def Obligations.DataCommandsStayInTheRequestedRange : Prop :=
  ∀ (i : Instr) (lba : Word32) (cnt : Word16) (s t : State) (evs : List Event),
    (i = .read10 lba cnt ∨ i = .write10 lba cnt) → exec i s = .next t → t.trace = s.trace ++ evs →
    ∀ (dev : Handle) (l : Word32) (data : List Byte),
      (Event.devRead dev l data ∈ evs ∨ Event.devWrite dev l data ∈ evs) →
      ∃ (g : Geometry) (k : Nat), evs.head? = some (.getInfo dev g) ∧ k < cnt.toNat ∧
        l.toNat = lba.toNat + k ∧ l.toNat < g.blockCount.toNat

/-- R70, R211, R213: a READ(10) whose k-th block meets a call that is never answered stays at that call: the blocks
before have happened, the buffer is granted to the party that does not answer, nothing is returned. What a fill of
another length than BUF's leaves in it is the model's reading (`notes/assumptions/5.md`). -/
def Obligations.ReadCanHangAtEitherCallOfABlock : Prop :=
  ∀ (s : State) (ref : Nat) (c : Configuration) (lba : Word32) (cnt : Word16) (g : Geometry) (k : Nat), s.Idle →
    s.Bound ref c → (s.answerAfter 0 c.dev 0).responds = true → (s.answerAfter 0 c.dev 0).geom = g →
    lba.toNat + cnt.toNat ≤ g.blockCount.toNat → c.buf.length = g.blockSize.toNat → k < cnt.toNat →
    (∀ j, j < k → (s.answerAfter (1 + 2 * j) c.dev 0).responds = true ∧
      (s.answerAfter (2 + 2 * j) c.tr g.blockSize).responds = true ∧
      (s.answerAfter (2 + 2 * j) c.tr g.blockSize).count ≤ g.blockSize) →
    ((s.answerAfter (1 + 2 * k) c.dev 0).responds = false →
      ∃ t, exec (.read10 lba cnt) s = .next t ∧ t.bufOwner = .dev ∧
        TransferStuck s t ref c
          (.getInfo c.dev g :: readEvents c g.blockSize lba
            (fun j => (s.answerAfter (2 + 2 * j) c.tr g.blockSize).count) (bufferAfter s c.dev 0 1 c.buf) k)
          (.devRead (lba + BitVec.ofNat 32 k)) (bufferAfter s c.dev 0 1 c.buf k)) ∧
    ((s.answerAfter (1 + 2 * k) c.dev 0).responds = true →
      (s.answerAfter (2 + 2 * k) c.tr g.blockSize).responds = false →
      ∃ t, exec (.read10 lba cnt) s = .next t ∧ t.bufOwner = .tr ∧
        TransferStuck s t ref c
          (.getInfo c.dev g :: readEvents c g.blockSize lba
            (fun j => (s.answerAfter (2 + 2 * j) c.tr g.blockSize).count) (bufferAfter s c.dev 0 1 c.buf) k ++
            [.devRead c.dev (lba + BitVec.ofNat 32 k) (bufferAfter s c.dev 0 1 c.buf (k + 1))])
          .txBlock (bufferAfter s c.dev 0 1 c.buf (k + 1)))

/-- R70, R211, R213: the same for WRITE(10), with the model's reading of a fill (`notes/assumptions/5.md`). -/
def Obligations.WriteCanHangAtEitherCallOfABlock : Prop :=
  ∀ (s : State) (ref : Nat) (c : Configuration) (lba : Word32) (cnt : Word16) (g : Geometry) (k : Nat), s.Idle →
    s.Bound ref c → (s.answerAfter 0 c.dev 0).responds = true → (s.answerAfter 0 c.dev 0).geom = g →
    lba.toNat + cnt.toNat ≤ g.blockCount.toNat → c.buf.length = g.blockSize.toNat → k < cnt.toNat →
    (∀ j, j < k → (s.answerAfter (1 + 2 * j) c.tr g.blockSize).responds = true ∧
      (s.answerAfter (2 + 2 * j) c.dev 0).responds = true) →
    ((s.answerAfter (1 + 2 * k) c.tr g.blockSize).responds = false →
      ∃ t, exec (.write10 lba cnt) s = .next t ∧ t.bufOwner = .tr ∧
        TransferStuck s t ref c
          (.getInfo c.dev g :: writeEvents c g.blockSize lba
            (fun j => (s.answerAfter (1 + 2 * j) c.tr g.blockSize).count) (bufferAfter s c.tr g.blockSize 1 c.buf) k)
          .rxBlock (bufferAfter s c.tr g.blockSize 1 c.buf k)) ∧
    ((s.answerAfter (1 + 2 * k) c.tr g.blockSize).responds = true →
      (s.answerAfter (2 + 2 * k) c.dev 0).responds = false →
      ∃ t, exec (.write10 lba cnt) s = .next t ∧ t.bufOwner = .dev ∧
        TransferStuck s t ref c
          (.getInfo c.dev g :: writeEvents c g.blockSize lba
            (fun j => (s.answerAfter (1 + 2 * j) c.tr g.blockSize).count) (bufferAfter s c.tr g.blockSize 1 c.buf) k ++
            [.rx c.tr g.blockSize (bufferAfter s c.tr g.blockSize 1 c.buf (k + 1))
              (s.answerAfter (1 + 2 * k) c.tr g.blockSize).count])
          (.devWrite (lba + BitVec.ofNat 32 k)) (bufferAfter s c.tr g.blockSize 1 c.buf (k + 1)))

/-- R54, R213: a READ(10) whose k-th transmit is answered with more than a block is F_TXOVER, and the blocks before it
and the fill of this one have happened. That the fault carries the trace up to the failing call is the model's choice
(`notes/assumptions/14.md`), and how a fill leaves BUF its reading (`notes/assumptions/5.md`). -/
def Obligations.ReadFaultsOnAnOverlongBlockTransmit : Prop :=
  ∀ (s : State) (ref : Nat) (c : Configuration) (lba : Word32) (cnt : Word16) (g : Geometry) (k : Nat), s.Idle →
    s.Bound ref c → (s.answerAfter 0 c.dev 0).responds = true → (s.answerAfter 0 c.dev 0).geom = g →
    lba.toNat + cnt.toNat ≤ g.blockCount.toNat → c.buf.length = g.blockSize.toNat → k < cnt.toNat →
    (∀ j, j < k → (s.answerAfter (1 + 2 * j) c.dev 0).responds = true ∧
      (s.answerAfter (2 + 2 * j) c.tr g.blockSize).responds = true ∧
      (s.answerAfter (2 + 2 * j) c.tr g.blockSize).count ≤ g.blockSize) →
    (s.answerAfter (1 + 2 * k) c.dev 0).responds = true →
    (s.answerAfter (2 + 2 * k) c.tr g.blockSize).responds = true →
    g.blockSize < (s.answerAfter (2 + 2 * k) c.tr g.blockSize).count →
    exec (.read10 lba cnt) s = .fault (.txOver (s.trace ++
      (.getInfo c.dev g :: readEvents c g.blockSize lba
        (fun j => (s.answerAfter (2 + 2 * j) c.tr g.blockSize).count) (bufferAfter s c.dev 0 1 c.buf) k ++
        [.devRead c.dev (lba + BitVec.ofNat 32 k) (bufferAfter s c.dev 0 1 c.buf (k + 1))])))

/-! ## Data commands under well-behaved collaborators (rule R212) -/

/-- R212 (a): with `WB-D1`, `WB-D2`, `WB-D4`, `WB-T1` and `WB-C1` a READ(10) that passes the check transmits exactly
`REQ.CNT * BLOCK_SIZE` bytes, equal to the device contents of the blocks asked for, in order. -/
def Obligations.ReadTransmitsTheDeviceContents : Prop :=
  ∀ (lba : Word32) (cnt : Word16) (s t : State) (evs : List Event) (d : DeviceContent),
    exec (.read10 lba cnt) s = .next t → t.ret = .status .success → t.trace = s.trace ++ evs →
    readsReturnContent d evs → fullTransmits evs →
    transmitted evs = (List.range cnt.toNat).flatMap (fun k => d (lba.toNat + k)) ∧
    ∃ (dev : Handle) (g : Geometry), evs.head? = some (.getInfo dev g) ∧
      (transmitted evs).length = cnt.toNat * g.blockSize.toNat

/-- R212 (b): with `WB-D1`, `WB-D3`, `WB-T2` and `WB-C1` a WRITE(10) that passes the check leaves the blocks of the
request equal to the bytes the initiator sent, in order, and every other block unchanged. -/
def Obligations.WriteStoresTheReceivedBytes : Prop :=
  ∀ (lba : Word32) (cnt : Word16) (s t : State) (evs : List Event) (d : DeviceContent) (incoming : List Byte),
    exec (.write10 lba cnt) s = .next t → t.ret = .status .success → t.trace = s.trace ++ evs →
    receivesInOrder incoming evs →
    ∃ (dev : Handle) (g : Geometry), evs.head? = some (.getInfo dev g) ∧
      ∀ k, contentAfter d evs k =
        if lba.toNat ≤ k ∧ k < lba.toNat + cnt.toNat then
          (incoming.drop ((k - lba.toNat) * g.blockSize.toNat)).take g.blockSize.toNat
        else d k

/-- R212 (c): under both sets of assumptions a WRITE(10) followed by a READ(10) of the same range transmits the bytes
received. -/
def Obligations.ReadAfterWriteTransmitsTheReceivedBytes : Prop :=
  ∀ (lba : Word32) (cnt : Word16) (s t u : State) (evs evs' : List Event) (d : DeviceContent) (incoming : List Byte)
    (dev dev' : Handle) (g : Geometry),
    exec (.write10 lba cnt) s = .next t → t.ret = .status .success → t.trace = s.trace ++ evs →
    exec (.read10 lba cnt) t = .next u → u.ret = .status .success → u.trace = t.trace ++ evs' →
    evs.head? = some (.getInfo dev g) → evs'.head? = some (.getInfo dev' g) →
    receivesInOrder incoming evs → readsReturnContent d (evs ++ evs') → fullTransmits evs' →
    transmitted evs' = incoming.take (cnt.toNat * g.blockSize.toNat)

/-! ## The whole machine -/

/-- R156: the complete set of things an EXECUTE can change: the sense record, the residue (no data or no-data command
does), the bound record's buffer at its old size (only a data command does), the collaborators through the trace, and
what is returned. That a fill keeps the buffer's size is the model's reading (`notes/assumptions/5.md`). -/
def Obligations.ExecuteChangesNothingElse : Prop :=
  ∀ (i : Instr) (s t : State), isExecute i → exec i s = .next t →
    t.run = s.run ∧ t.cfg = s.cfg ∧ t.params = s.params ∧ t.callers = s.callers ∧
    (∀ ref, s.mem.read ref = none → t.mem.read ref = none) ∧
    (∀ ref c, s.mem.read ref = some c → ∃ buf : List Byte, t.mem.read ref = some { c with buf := buf } ∧
      buf.length = c.buf.length ∧ (s.cfg ≠ some ref → buf = c.buf)) ∧
    (i.isCommand = true → (∀ lba cnt, i ≠ .read10 lba cnt ∧ i ≠ .write10 lba cnt) →
      t.mem = s.mem ∧ t.latch = s.latch) ∧
    ((i = .tur ∨ i = .prevallow ∨ (∃ op, i = .unknown op) ∨ ∃ lba cnt, i = .read10 lba cnt ∨ i = .write10 lba cnt) →
      t.residue = s.residue)

/-- R64: every operation's events come after all earlier ones; no operation takes an event back. -/
def Obligations.TheTraceOnlyGrows : Prop :=
  ∀ (i : Instr) (s t : State), exec i s = .next t → s.trace <+: t.trace

/-- R274: the exact number of port calls of every operation that has run to its end. -/
def Obligations.PortCallCountsAreExact : Prop :=
  ∀ (i : Instr) (s t : State), exec i s = .next t → t.phase = .idle →
    ((i = .tur ∨ i = .prevallow ∨ (∃ op, i = .unknown op) ∨ i = .init ∨ (∃ ref, i = .start ref) ∨ i = .stop ∨
      i = .residue) → t.trace.length = s.trace.length) ∧
    (∀ flags page, i = .inquiry flags page →
      t.trace.length = s.trace.length + if flags &&& s.params.inqEvpdMask = 0 ∧ page = 0 then 1 else 0) ∧
    (∀ r1 r2 r3 alloc, i = .reqsense r1 r2 r3 alloc →
      t.trace.length = s.trace.length + if r1 = 0 ∧ r2 = 0 ∧ r3 = 0 ∧ alloc = 18 then 1 else 0) ∧
    ((i = .readcap10 ∨ i = .modesense6) → t.trace.length = s.trace.length + 2) ∧
    (∀ lba cnt, (i = .read10 lba cnt ∨ i = .write10 lba cnt) →
      t.trace.length = s.trace.length + if t.ret = .status .success then 1 + 2 * cnt.toNat else 1)

/-- R158, R237: where every scripted answer is given, an EXECUTE that does not fault returns a status and leaves the
target ready for the next operation, after a failure as after a success. That calls past the script are answered is the
model's choice (`notes/assumptions/4.md`). -/
def Obligations.ExecuteReturnsAndNothingIsFatal : Prop :=
  ∀ (i : Instr) (s t : State), isExecute i → (∀ a ∈ s.answers, a.responds = true) → exec i s = .next t →
    t.Idle ∧ ∃ st, t.ret = .status st

/-- R70, R244: an operation that is stuck never returns: without a re-entry every further step leaves the state as it
is, and it was the EXECUTE's unanswered call that made it so, with nothing returned. That the call was a scripted one
rests on the model's choice that calls past the script are always answered (`notes/assumptions/4.md`). -/
def Obligations.AStuckOperationNeverReturns : Prop :=
  (∀ (s : State) (call : PortCall), s.phase = .stuck call → nextOverlaps s.callers = false → step s = .next s) ∧
  (∀ (i : Instr) (s t : State) (call : PortCall), exec i s = .next t → t.phase = .stuck call →
    isExecute i ∧ t.ret = .nothing ∧ ∃ a ∈ s.answers, a.responds = false)

/-- One step runs the caller's next operation (rules R5, R6); an EXECUTE runs the command its buffer decodes to. The
queue of the caller's actions is the model's own (`notes/assumptions/3.md`). -/
def Obligations.StepRunsTheCallersNextOperation : Prop :=
  ∀ (s : State) (op : HostOp) (ov : Bool) (rest : List CallerAction), (∀ call, s.phase ≠ .stuck call) →
    s.callers = .call op ov :: rest → nextOverlaps rest = false →
    step s = exec op.toInstr { s with callers := rest } ∧
    ∀ cdb i, op = .execute cdb → decode s.params cdb = .ok i → step s = exec i { s with callers := rest }

/-- R263, R267 (the model's own action, `notes/assumptions/9.md`): a record the caller edits between operations is the
one the next operation reads; the action is taken off the queue, and the target and every other record stay. -/
def Obligations.PreparedRecordsAreSeenByTheNextCommand : Prop :=
  ∀ (s : State) (ref : Nat) (record : Configuration) (rest : List CallerAction), (∀ call, s.phase ≠ .stuck call) →
    s.callers = .prepare ref record :: rest →
    ∃ t, step s = .next t ∧ t.callers = rest ∧ (s.cfg = some ref → t.Bound ref record) ∧ t.mem.read ref = some record ∧
      (∀ r, r ≠ ref → t.mem.read r = s.mem.read r) ∧ { t with mem := s.mem, callers := s.callers } = s

/-- R68, R35: an operation of one target leaves every other target as it is. Several targets as a list is the model's
reading (`notes/assumptions/1.md`). -/
def Obligations.TargetsAreIndependent : Prop :=
  ∀ (ts ts' : Targets) (k : Nat), stepTarget ts k = .next ts' →
    ts'.length = ts.length ∧ (∀ j, j ≠ k → ts'[j]? = ts[j]?) ∧
    (∀ s, ts[k]? = some s → ∃ s', step s = .next s' ∧ ts'[k]? = some s')

/-- R25, R83, R135, R145 and the canonical form of the store: the invariant holds after reset, where the store is empty
by the model's choice (`notes/assumptions/8.md`). -/
def Obligations.ResetSatisfiesTheInvariant : Prop := State.reset.Inv

/-- R25, R135, R145: every step keeps the invariant: the sense record is one of the five values, a configuration is
bound exactly when the run-state is READY, the store keeps its canonical form, and the parameters stay legal (R83), in a
stuck state too. -/
def Obligations.EveryStepKeepsTheInvariant : Prop :=
  ∀ s t : State, s.Inv → step s = .next t → t.Inv

/-! ## Encodings -/

/-- R110 to R116: the field functions are big-endian and each undoes the other; so do the data request's, wherever in a
ten-byte command its two fields lie. With the default positions (`notes/assumptions/11.md`) its layout is that of
R115. -/
def Obligations.CodecRoundTrips : Prop :=
  (∀ b0 b1 : Byte, enc16 (be16 b0 b1) = [b0, b1] ∧ (be16 b0 b1).toNat = b0.toNat * 256 + b1.toNat) ∧
  (∀ v : Word16, ∃ b0 b1, enc16 v = [b0, b1] ∧ be16 b0 b1 = v) ∧
  (∀ b0 b1 b2 b3 : Byte, enc32 (be32 b0 b1 b2 b3) = [b0, b1, b2, b3] ∧
    (be32 b0 b1 b2 b3).toNat = b0.toNat * 2 ^ 24 + b1.toNat * 2 ^ 16 + b2.toNat * 2 ^ 8 + b3.toNat) ∧
  (∀ v : Word32, ∃ b0 b1 b2 b3, enc32 v = [b0, b1, b2, b3] ∧ be32 b0 b1 b2 b3 = v) ∧
  (∀ (op : Byte) (lba : Word32) (cnt : Word16),
    encodeDataRequest Config.defaultParams op lba cnt = [op, 0] ++ enc32 lba ++ [0] ++ enc16 cnt ++ [0]) ∧
  ∀ p : Config.Params, FieldsFit (dataRequestPositions p) 10 →
    (∀ (op : Byte) (lba : Word32) (cnt : Word16),
      decodeDataRequest p (encodeDataRequest p op lba cnt) = .ok (lba, cnt)) ∧
    (∀ (op : Byte) (cdb : List Byte) (lba : Word32) (cnt : Word16), cdb.length = 10 →
      decodeDataRequest p cdb = .ok (lba, cnt) →
      (encodeDataRequest p op lba cnt).length = 10 ∧ (encodeDataRequest p op lba cnt)[0]? = some op ∧
      ∀ k, 0 < k → k < 10 → (encodeDataRequest p op lba cnt)[k]? =
        if k ∈ dataRequestPositions p then cdb[k]? else some 0)

/-- Decoding what the encoder makes of a well-formed command gives the command back, with every operand at every value,
on a machine of any legal parameters; every command has an encoding and no host operation has one (rule R95). -/
def Obligations.DecodingUndoesEncoding : Prop :=
  ∀ (p : Config.Params) (i : Instr), ParamsOk p → i.wellFormed p = true →
    (i.isCommand = true → ∃ bytes, encode p i = some bytes ∧ decode p bytes = .ok i) ∧
    (i.isCommand = false → encode p i = none)

/-- Words written out from the spec's tables and examples decode to what they stand for (rules R81, R82, R96), with the
default parameters (`notes/assumptions/11.md`). -/
def Obligations.WrittenOutWordsDecode : Prop :=
  decode Config.defaultParams [0x00, 0, 0, 0, 0, 0] = .ok .tur ∧
  decode Config.defaultParams [0x03, 0, 0, 0, 0x12, 0] = .ok (.reqsense 0 0 0 18) ∧
  decode Config.defaultParams [0x12, 0x01, 0x83, 0, 0x24, 0] = .ok (.inquiry 0x01 0x83) ∧
  decode Config.defaultParams [0x1A, 0, 0x3F, 0, 0xC0, 0] = .ok .modesense6 ∧
  decode Config.defaultParams [0x1E, 0, 0, 0, 0x01, 0] = .ok .prevallow ∧
  decode Config.defaultParams [0x25, 0, 0, 0, 0, 0, 0, 0, 0, 0] = .ok .readcap10 ∧
  decode Config.defaultParams [0x28, 0, 0, 0, 0x03, 0xE6, 0, 0, 0x03, 0] = .ok (.read10 998 3) ∧
  decode Config.defaultParams [0x2A, 0, 0xFF, 0xFF, 0xFF, 0xFF, 0, 0xFF, 0xFF, 0] = .ok (.write10 4294967295 65535) ∧
  decode Config.defaultParams [0x35, 0, 0, 0, 0, 0, 0, 0, 0, 0] = .ok (.unknown 0x35) ∧
  decode Config.defaultParams [0x12, 0x01] = .error (.cdbShort 2) ∧ decode Config.defaultParams [] = .error (.cdbShort 0)

/-! ## Calls outside the block loop that are never answered, and records that are not as they must be -/

/-- R70, R213: a command that asks for the geometry and is never answered stays at that very call: no event was made,
step 1 has made the sense record OK, and nothing is returned; a data command has latched its request. -/
def Obligations.GeometryQueriesCanHang : Prop :=
  ∀ (s : State) (ref : Nat) (c : Configuration), s.Idle → s.Bound ref c → (s.answer c.dev 0).responds = false →
    (∃ t, exec .readcap10 s = .next t ∧ HangsAt s t [] .devInfo (senseOk s.params) s.latch) ∧
    (∃ t, exec .modesense6 s = .next t ∧ HangsAt s t [] .devInfo (senseOk s.params) s.latch) ∧
    ∀ (lba : Word32) (cnt : Word16),
      (∃ t, exec (.read10 lba cnt) s = .next t ∧
        HangsAt s t [] .devInfo (senseOk s.params) { s.latch with lba := lba, cnt := cnt, dir := .read }) ∧
      (∃ t, exec (.write10 lba cnt) s = .next t ∧
        HangsAt s t [] .devInfo (senseOk s.params) { s.latch with lba := lba, cnt := cnt, dir := .write })

/-- R70, R213: a fixed response whose transmit is never answered stays at that very call, for each of the four: the
geometry query before it, where the command makes one, has happened, and no other event; nothing is returned, no
residue is recorded, and the sense record is what step 1 made it. That a template longer than `INQUIRY_LEN`, which R264
(d) does not allow, serves an INQUIRY too is the model's choice (`notes/assumptions/25.md`). -/
def Obligations.FixedResponsesCanHangAtTheirTransmit : Prop :=
  ∀ (s : State) (ref : Nat) (c : Configuration), s.Idle → s.Bound ref c →
    (∀ flags : Byte, flags &&& s.params.inqEvpdMask = 0 → s.params.inquiryLen.toNat ≤ c.inq.length →
      (s.answer c.tr s.params.inquiryLen).responds = false →
      ∃ t, exec (.inquiry flags 0) s = .next t ∧ HangsAt s t [] .txResponse (senseOk s.params) s.latch) ∧
    ((s.answer c.tr 18).responds = false →
      ∃ (t : State) (record : Vector Byte 18), exec (.reqsense 0 0 0 18) s = .next t ∧
        (s.params.policy = .alwaysAtEntry → record = senseOk s.params) ∧
        (s.params.policy = .skipOnRequestSense → record = s.sense) ∧
        HangsAt s t [] .txResponse record s.latch) ∧
    (∀ g, (s.answerAfter 0 c.dev 0).responds = true → (s.answerAfter 0 c.dev 0).geom = g →
      ((s.answerAfter 1 c.tr 8).responds = false →
        ∃ t, exec .readcap10 s = .next t ∧ HangsAt s t [.getInfo c.dev g] .txResponse (senseOk s.params) s.latch) ∧
      ((s.answerAfter 1 c.tr 4).responds = false →
        ∃ t, exec .modesense6 s = .next t ∧ HangsAt s t [.getInfo c.dev g] .txResponse (senseOk s.params) s.latch))

/-- The model's own two faults on a record that is not as rules R264 and R267 ask: a bound reference that leads to no
record stops every command where F_NOCFG would (`notes/assumptions/8.md`), and a template shorter than `INQUIRY_LEN`
stops the INQUIRY that would send it (`notes/assumptions/25.md`). The commands that need no record complete. -/
def Obligations.UnsuitableRecordsStopByName : Prop :=
  ∀ s : State, s.Idle →
    (∀ ref, s.cfg = some ref → s.mem.read ref = none →
      exec .tur s = .next { s with sense := senseOk s.params, ret := .status .success } ∧
      exec .prevallow s = .next { s with sense := senseOk s.params, ret := .status .success } ∧
      (∀ flags : Byte, flags &&& s.params.inqEvpdMask = 0 → exec (.inquiry flags 0) s = .fault .noRecord) ∧
      exec (.reqsense 0 0 0 18) s = .fault .noRecord ∧ exec .readcap10 s = .fault .noRecord ∧
      exec .modesense6 s = .fault .noRecord ∧
      ∀ lba cnt, exec (.read10 lba cnt) s = .fault .noRecord ∧ exec (.write10 lba cnt) s = .fault .noRecord) ∧
    (∀ ref c, s.Bound ref c → c.inq.length < s.params.inquiryLen.toNat →
      ∀ flags : Byte, flags &&& s.params.inqEvpdMask = 0 → exec (.inquiry flags 0) s = .fault .shortTemplate)
end

