-- ==== Sys2Proof/Laws/State.lean ====
section
/-! SUPPORT. The record updates of the state, field by field: what each writes and what it leaves alone. -/

namespace Sys2Proof.Machine.State

variable (s : State)

/-! ## `setSense` -/

@[simp] theorem setSense_phase (key code qualifier : Byte) : (s.setSense key code qualifier).phase = s.phase := rfl
@[simp] theorem setSense_run (key code qualifier : Byte) : (s.setSense key code qualifier).run = s.run := rfl
@[simp] theorem setSense_cfg (key code qualifier : Byte) : (s.setSense key code qualifier).cfg = s.cfg := rfl
@[simp] theorem setSense_sense (key code qualifier : Byte) : (s.setSense key code qualifier).sense = senseRecord s.params key code qualifier := rfl
@[simp] theorem setSense_residue (key code qualifier : Byte) : (s.setSense key code qualifier).residue = s.residue := rfl
@[simp] theorem setSense_latch (key code qualifier : Byte) : (s.setSense key code qualifier).latch = s.latch := rfl
@[simp] theorem setSense_mem (key code qualifier : Byte) : (s.setSense key code qualifier).mem = s.mem := rfl
@[simp] theorem setSense_params (key code qualifier : Byte) : (s.setSense key code qualifier).params = s.params := rfl
@[simp] theorem setSense_callers (key code qualifier : Byte) : (s.setSense key code qualifier).callers = s.callers := rfl
@[simp] theorem setSense_answers (key code qualifier : Byte) : (s.setSense key code qualifier).answers = s.answers := rfl
@[simp] theorem setSense_tick (key code qualifier : Byte) : (s.setSense key code qualifier).tick = s.tick := rfl
@[simp] theorem setSense_trace (key code qualifier : Byte) : (s.setSense key code qualifier).trace = s.trace := rfl
@[simp] theorem setSense_ret (key code qualifier : Byte) : (s.setSense key code qualifier).ret = s.ret := rfl

/-! ## `setSenseOk` -/

@[simp] theorem setSenseOk_phase : (s.setSenseOk).phase = s.phase := rfl
@[simp] theorem setSenseOk_run : (s.setSenseOk).run = s.run := rfl
@[simp] theorem setSenseOk_cfg : (s.setSenseOk).cfg = s.cfg := rfl
@[simp] theorem setSenseOk_sense : (s.setSenseOk).sense = senseOk s.params := rfl
@[simp] theorem setSenseOk_residue : (s.setSenseOk).residue = s.residue := rfl
@[simp] theorem setSenseOk_latch : (s.setSenseOk).latch = s.latch := rfl
@[simp] theorem setSenseOk_mem : (s.setSenseOk).mem = s.mem := rfl
@[simp] theorem setSenseOk_params : (s.setSenseOk).params = s.params := rfl
@[simp] theorem setSenseOk_callers : (s.setSenseOk).callers = s.callers := rfl
@[simp] theorem setSenseOk_answers : (s.setSenseOk).answers = s.answers := rfl
@[simp] theorem setSenseOk_tick : (s.setSenseOk).tick = s.tick := rfl
@[simp] theorem setSenseOk_trace : (s.setSenseOk).trace = s.trace := rfl
@[simp] theorem setSenseOk_ret : (s.setSenseOk).ret = s.ret := rfl

/-! ## `setResidue` -/

@[simp] theorem setResidue_phase (r : Word32) : (s.setResidue r).phase = s.phase := rfl
@[simp] theorem setResidue_run (r : Word32) : (s.setResidue r).run = s.run := rfl
@[simp] theorem setResidue_cfg (r : Word32) : (s.setResidue r).cfg = s.cfg := rfl
@[simp] theorem setResidue_sense (r : Word32) : (s.setResidue r).sense = s.sense := rfl
@[simp] theorem setResidue_residue (r : Word32) : (s.setResidue r).residue = r := rfl
@[simp] theorem setResidue_latch (r : Word32) : (s.setResidue r).latch = s.latch := rfl
@[simp] theorem setResidue_mem (r : Word32) : (s.setResidue r).mem = s.mem := rfl
@[simp] theorem setResidue_params (r : Word32) : (s.setResidue r).params = s.params := rfl
@[simp] theorem setResidue_callers (r : Word32) : (s.setResidue r).callers = s.callers := rfl
@[simp] theorem setResidue_answers (r : Word32) : (s.setResidue r).answers = s.answers := rfl
@[simp] theorem setResidue_tick (r : Word32) : (s.setResidue r).tick = s.tick := rfl
@[simp] theorem setResidue_trace (r : Word32) : (s.setResidue r).trace = s.trace := rfl
@[simp] theorem setResidue_ret (r : Word32) : (s.setResidue r).ret = s.ret := rfl

/-! ## `emit` -/

@[simp] theorem emit_phase (e : Event) : (s.emit e).phase = s.phase := rfl
@[simp] theorem emit_run (e : Event) : (s.emit e).run = s.run := rfl
@[simp] theorem emit_cfg (e : Event) : (s.emit e).cfg = s.cfg := rfl
@[simp] theorem emit_sense (e : Event) : (s.emit e).sense = s.sense := rfl
@[simp] theorem emit_residue (e : Event) : (s.emit e).residue = s.residue := rfl
@[simp] theorem emit_latch (e : Event) : (s.emit e).latch = s.latch := rfl
@[simp] theorem emit_mem (e : Event) : (s.emit e).mem = s.mem := rfl
@[simp] theorem emit_params (e : Event) : (s.emit e).params = s.params := rfl
@[simp] theorem emit_callers (e : Event) : (s.emit e).callers = s.callers := rfl
@[simp] theorem emit_answers (e : Event) : (s.emit e).answers = s.answers := rfl
@[simp] theorem emit_tick (e : Event) : (s.emit e).tick = s.tick := rfl
@[simp] theorem emit_trace (e : Event) : (s.emit e).trace = s.trace ++ [e] := rfl
@[simp] theorem emit_ret (e : Event) : (s.emit e).ret = s.ret := rfl

/-! ## `returns` -/

@[simp] theorem returns_phase (r : Returned) : (s.returns r).phase = s.phase := rfl
@[simp] theorem returns_run (r : Returned) : (s.returns r).run = s.run := rfl
@[simp] theorem returns_cfg (r : Returned) : (s.returns r).cfg = s.cfg := rfl
@[simp] theorem returns_sense (r : Returned) : (s.returns r).sense = s.sense := rfl
@[simp] theorem returns_residue (r : Returned) : (s.returns r).residue = s.residue := rfl
@[simp] theorem returns_latch (r : Returned) : (s.returns r).latch = s.latch := rfl
@[simp] theorem returns_mem (r : Returned) : (s.returns r).mem = s.mem := rfl
@[simp] theorem returns_params (r : Returned) : (s.returns r).params = s.params := rfl
@[simp] theorem returns_callers (r : Returned) : (s.returns r).callers = s.callers := rfl
@[simp] theorem returns_answers (r : Returned) : (s.returns r).answers = s.answers := rfl
@[simp] theorem returns_tick (r : Returned) : (s.returns r).tick = s.tick := rfl
@[simp] theorem returns_trace (r : Returned) : (s.returns r).trace = s.trace := rfl
@[simp] theorem returns_ret (r : Returned) : (s.returns r).ret = r := rfl

/-! ## `setBuf` -/

@[simp] theorem setBuf_phase (ref : Nat) (c : Configuration) (bytes : List Byte) : (s.setBuf ref c bytes).phase = s.phase := rfl
@[simp] theorem setBuf_run (ref : Nat) (c : Configuration) (bytes : List Byte) : (s.setBuf ref c bytes).run = s.run := rfl
@[simp] theorem setBuf_cfg (ref : Nat) (c : Configuration) (bytes : List Byte) : (s.setBuf ref c bytes).cfg = s.cfg := rfl
@[simp] theorem setBuf_sense (ref : Nat) (c : Configuration) (bytes : List Byte) : (s.setBuf ref c bytes).sense = s.sense := rfl
@[simp] theorem setBuf_residue (ref : Nat) (c : Configuration) (bytes : List Byte) : (s.setBuf ref c bytes).residue = s.residue := rfl
@[simp] theorem setBuf_latch (ref : Nat) (c : Configuration) (bytes : List Byte) : (s.setBuf ref c bytes).latch = s.latch := rfl
@[simp] theorem setBuf_mem (ref : Nat) (c : Configuration) (bytes : List Byte) : (s.setBuf ref c bytes).mem = s.mem.write ref { c with buf := bytes } := rfl
@[simp] theorem setBuf_params (ref : Nat) (c : Configuration) (bytes : List Byte) : (s.setBuf ref c bytes).params = s.params := rfl
@[simp] theorem setBuf_callers (ref : Nat) (c : Configuration) (bytes : List Byte) : (s.setBuf ref c bytes).callers = s.callers := rfl
@[simp] theorem setBuf_answers (ref : Nat) (c : Configuration) (bytes : List Byte) : (s.setBuf ref c bytes).answers = s.answers := rfl
@[simp] theorem setBuf_tick (ref : Nat) (c : Configuration) (bytes : List Byte) : (s.setBuf ref c bytes).tick = s.tick := rfl
@[simp] theorem setBuf_trace (ref : Nat) (c : Configuration) (bytes : List Byte) : (s.setBuf ref c bytes).trace = s.trace := rfl
@[simp] theorem setBuf_ret (ref : Nat) (c : Configuration) (bytes : List Byte) : (s.setBuf ref c bytes).ret = s.ret := rfl

/-! ## `latchRequest` -/

@[simp] theorem latchRequest_phase (lba : Word32) (cnt : Word16) (dir : Direction) : (s.latchRequest lba cnt dir).phase = s.phase := rfl
@[simp] theorem latchRequest_run (lba : Word32) (cnt : Word16) (dir : Direction) : (s.latchRequest lba cnt dir).run = s.run := rfl
@[simp] theorem latchRequest_cfg (lba : Word32) (cnt : Word16) (dir : Direction) : (s.latchRequest lba cnt dir).cfg = s.cfg := rfl
@[simp] theorem latchRequest_sense (lba : Word32) (cnt : Word16) (dir : Direction) : (s.latchRequest lba cnt dir).sense = s.sense := rfl
@[simp] theorem latchRequest_residue (lba : Word32) (cnt : Word16) (dir : Direction) : (s.latchRequest lba cnt dir).residue = s.residue := rfl
@[simp] theorem latchRequest_latch (lba : Word32) (cnt : Word16) (dir : Direction) : (s.latchRequest lba cnt dir).latch = { s.latch with lba := lba, cnt := cnt, dir := dir } := rfl
@[simp] theorem latchRequest_mem (lba : Word32) (cnt : Word16) (dir : Direction) : (s.latchRequest lba cnt dir).mem = s.mem := rfl
@[simp] theorem latchRequest_params (lba : Word32) (cnt : Word16) (dir : Direction) : (s.latchRequest lba cnt dir).params = s.params := rfl
@[simp] theorem latchRequest_callers (lba : Word32) (cnt : Word16) (dir : Direction) : (s.latchRequest lba cnt dir).callers = s.callers := rfl
@[simp] theorem latchRequest_answers (lba : Word32) (cnt : Word16) (dir : Direction) : (s.latchRequest lba cnt dir).answers = s.answers := rfl
@[simp] theorem latchRequest_tick (lba : Word32) (cnt : Word16) (dir : Direction) : (s.latchRequest lba cnt dir).tick = s.tick := rfl
@[simp] theorem latchRequest_trace (lba : Word32) (cnt : Word16) (dir : Direction) : (s.latchRequest lba cnt dir).trace = s.trace := rfl
@[simp] theorem latchRequest_ret (lba : Word32) (cnt : Word16) (dir : Direction) : (s.latchRequest lba cnt dir).ret = s.ret := rfl

/-! ## `latchGeometry` -/

@[simp] theorem latchGeometry_phase (g : Geometry) : (s.latchGeometry g).phase = s.phase := rfl
@[simp] theorem latchGeometry_run (g : Geometry) : (s.latchGeometry g).run = s.run := rfl
@[simp] theorem latchGeometry_cfg (g : Geometry) : (s.latchGeometry g).cfg = s.cfg := rfl
@[simp] theorem latchGeometry_sense (g : Geometry) : (s.latchGeometry g).sense = s.sense := rfl
@[simp] theorem latchGeometry_residue (g : Geometry) : (s.latchGeometry g).residue = s.residue := rfl
@[simp] theorem latchGeometry_latch (g : Geometry) : (s.latchGeometry g).latch = { s.latch with geom := g } := rfl
@[simp] theorem latchGeometry_mem (g : Geometry) : (s.latchGeometry g).mem = s.mem := rfl
@[simp] theorem latchGeometry_params (g : Geometry) : (s.latchGeometry g).params = s.params := rfl
@[simp] theorem latchGeometry_callers (g : Geometry) : (s.latchGeometry g).callers = s.callers := rfl
@[simp] theorem latchGeometry_answers (g : Geometry) : (s.latchGeometry g).answers = s.answers := rfl
@[simp] theorem latchGeometry_tick (g : Geometry) : (s.latchGeometry g).tick = s.tick := rfl
@[simp] theorem latchGeometry_trace (g : Geometry) : (s.latchGeometry g).trace = s.trace := rfl
@[simp] theorem latchGeometry_ret (g : Geometry) : (s.latchGeometry g).ret = s.ret := rfl

/-! ## `setIdx` -/

@[simp] theorem setIdx_phase (i : Nat) : (s.setIdx i).phase = s.phase := rfl
@[simp] theorem setIdx_run (i : Nat) : (s.setIdx i).run = s.run := rfl
@[simp] theorem setIdx_cfg (i : Nat) : (s.setIdx i).cfg = s.cfg := rfl
@[simp] theorem setIdx_sense (i : Nat) : (s.setIdx i).sense = s.sense := rfl
@[simp] theorem setIdx_residue (i : Nat) : (s.setIdx i).residue = s.residue := rfl
@[simp] theorem setIdx_latch (i : Nat) : (s.setIdx i).latch = { s.latch with idx := i } := rfl
@[simp] theorem setIdx_mem (i : Nat) : (s.setIdx i).mem = s.mem := rfl
@[simp] theorem setIdx_params (i : Nat) : (s.setIdx i).params = s.params := rfl
@[simp] theorem setIdx_callers (i : Nat) : (s.setIdx i).callers = s.callers := rfl
@[simp] theorem setIdx_answers (i : Nat) : (s.setIdx i).answers = s.answers := rfl
@[simp] theorem setIdx_tick (i : Nat) : (s.setIdx i).tick = s.tick := rfl
@[simp] theorem setIdx_trace (i : Nat) : (s.setIdx i).trace = s.trace := rfl
@[simp] theorem setIdx_ret (i : Nat) : (s.setIdx i).ret = s.ret := rfl

/-! ## `dropLatches` -/

@[simp] theorem dropLatches_phase : (s.dropLatches).phase = s.phase := rfl
@[simp] theorem dropLatches_run : (s.dropLatches).run = s.run := rfl
@[simp] theorem dropLatches_cfg : (s.dropLatches).cfg = s.cfg := rfl
@[simp] theorem dropLatches_sense : (s.dropLatches).sense = s.sense := rfl
@[simp] theorem dropLatches_residue : (s.dropLatches).residue = s.residue := rfl
@[simp] theorem dropLatches_latch : (s.dropLatches).latch = Config.freeLatches s.tick := rfl
@[simp] theorem dropLatches_mem : (s.dropLatches).mem = s.mem := rfl
@[simp] theorem dropLatches_params : (s.dropLatches).params = s.params := rfl
@[simp] theorem dropLatches_callers : (s.dropLatches).callers = s.callers := rfl
@[simp] theorem dropLatches_answers : (s.dropLatches).answers = s.answers := rfl
@[simp] theorem dropLatches_tick : (s.dropLatches).tick = s.tick + 1 := rfl
@[simp] theorem dropLatches_trace : (s.dropLatches).trace = s.trace := rfl
@[simp] theorem dropLatches_ret : (s.dropLatches).ret = s.ret := rfl

/-! ## `stuckAt` -/

@[simp] theorem stuckAt_phase (call : PortCall) : (s.stuckAt call).phase = .stuck call := rfl
@[simp] theorem stuckAt_run (call : PortCall) : (s.stuckAt call).run = s.run := rfl
@[simp] theorem stuckAt_cfg (call : PortCall) : (s.stuckAt call).cfg = s.cfg := rfl
@[simp] theorem stuckAt_sense (call : PortCall) : (s.stuckAt call).sense = s.sense := rfl
@[simp] theorem stuckAt_residue (call : PortCall) : (s.stuckAt call).residue = s.residue := rfl
@[simp] theorem stuckAt_latch (call : PortCall) : (s.stuckAt call).latch = s.latch := rfl
@[simp] theorem stuckAt_mem (call : PortCall) : (s.stuckAt call).mem = s.mem := rfl
@[simp] theorem stuckAt_params (call : PortCall) : (s.stuckAt call).params = s.params := rfl
@[simp] theorem stuckAt_callers (call : PortCall) : (s.stuckAt call).callers = s.callers := rfl
@[simp] theorem stuckAt_answers (call : PortCall) : (s.stuckAt call).answers = s.answers := rfl
@[simp] theorem stuckAt_tick (call : PortCall) : (s.stuckAt call).tick = s.tick := rfl
@[simp] theorem stuckAt_trace (call : PortCall) : (s.stuckAt call).trace = s.trace := rfl
@[simp] theorem stuckAt_ret (call : PortCall) : (s.stuckAt call).ret = s.ret := rfl

/-! ## `consume` -/

@[simp] theorem consume_phase : (s.consume).phase = s.phase := rfl
@[simp] theorem consume_run : (s.consume).run = s.run := rfl
@[simp] theorem consume_cfg : (s.consume).cfg = s.cfg := rfl
@[simp] theorem consume_sense : (s.consume).sense = s.sense := rfl
@[simp] theorem consume_residue : (s.consume).residue = s.residue := rfl
@[simp] theorem consume_latch : (s.consume).latch = s.latch := rfl
@[simp] theorem consume_mem : (s.consume).mem = s.mem := rfl
@[simp] theorem consume_params : (s.consume).params = s.params := rfl
@[simp] theorem consume_callers : (s.consume).callers = s.callers := rfl
@[simp] theorem consume_answers : (s.consume).answers = s.answers.tail := rfl
@[simp] theorem consume_tick : (s.consume).tick = s.tick + 1 := rfl
@[simp] theorem consume_trace : (s.consume).trace = s.trace := rfl
@[simp] theorem consume_ret : (s.consume).ret = s.ret := rfl

/-! ## `afterInit` -/

@[simp] theorem afterInit_phase : (s.afterInit).phase = .idle := rfl
@[simp] theorem afterInit_run : (s.afterInit).run = .stopped := rfl
@[simp] theorem afterInit_cfg : (s.afterInit).cfg = none := rfl
@[simp] theorem afterInit_sense : (s.afterInit).sense = senseReset := rfl
@[simp] theorem afterInit_residue : (s.afterInit).residue = 0 := rfl
@[simp] theorem afterInit_latch : (s.afterInit).latch = s.latch := rfl
@[simp] theorem afterInit_mem : (s.afterInit).mem = s.mem := rfl
@[simp] theorem afterInit_params : (s.afterInit).params = s.params := rfl
@[simp] theorem afterInit_callers : (s.afterInit).callers = s.callers := rfl
@[simp] theorem afterInit_answers : (s.afterInit).answers = s.answers := rfl
@[simp] theorem afterInit_tick : (s.afterInit).tick = s.tick := rfl
@[simp] theorem afterInit_trace : (s.afterInit).trace = s.trace := rfl
@[simp] theorem afterInit_ret : (s.afterInit).ret = .nothing := rfl

/-! ## `enterExecute`: step 1 of EXECUTE writes the sense record and clears the returned value, nothing else -/

@[simp] theorem enterExecute_phase (isRequestSense : Bool) : (s.enterExecute isRequestSense).phase = s.phase := by
  unfold enterExecute; split <;> rfl

@[simp] theorem enterExecute_run (isRequestSense : Bool) : (s.enterExecute isRequestSense).run = s.run := by
  unfold enterExecute; split <;> rfl

@[simp] theorem enterExecute_cfg (isRequestSense : Bool) : (s.enterExecute isRequestSense).cfg = s.cfg := by
  unfold enterExecute; split <;> rfl

@[simp] theorem enterExecute_sense (isRequestSense : Bool) : (s.enterExecute isRequestSense).sense = entrySense s isRequestSense := by
  unfold enterExecute entrySense; split <;> rfl

@[simp] theorem enterExecute_residue (isRequestSense : Bool) : (s.enterExecute isRequestSense).residue = s.residue := by
  unfold enterExecute; split <;> rfl

@[simp] theorem enterExecute_latch (isRequestSense : Bool) : (s.enterExecute isRequestSense).latch = s.latch := by
  unfold enterExecute; split <;> rfl

@[simp] theorem enterExecute_mem (isRequestSense : Bool) : (s.enterExecute isRequestSense).mem = s.mem := by
  unfold enterExecute; split <;> rfl

@[simp] theorem enterExecute_params (isRequestSense : Bool) : (s.enterExecute isRequestSense).params = s.params := by
  unfold enterExecute; split <;> rfl

@[simp] theorem enterExecute_callers (isRequestSense : Bool) : (s.enterExecute isRequestSense).callers = s.callers := by
  unfold enterExecute; split <;> rfl

@[simp] theorem enterExecute_answers (isRequestSense : Bool) : (s.enterExecute isRequestSense).answers = s.answers := by
  unfold enterExecute; split <;> rfl

@[simp] theorem enterExecute_tick (isRequestSense : Bool) : (s.enterExecute isRequestSense).tick = s.tick := by
  unfold enterExecute; split <;> rfl

@[simp] theorem enterExecute_trace (isRequestSense : Bool) : (s.enterExecute isRequestSense).trace = s.trace := by
  unfold enterExecute; split <;> rfl

@[simp] theorem enterExecute_ret (isRequestSense : Bool) : (s.enterExecute isRequestSense).ret = .nothing := by
  unfold enterExecute; split <;> rfl

/-- Every command but REQUEST SENSE starts from the no-error record, under either policy (rule R151). -/
@[simp] theorem entrySense_false : entrySense s false = senseOk s.params := by
  unfold entrySense resetsSense; cases s.params.policy <;> rfl

/-! ## The oracle reads two fields only -/

/-- Two states with the same script and the same counter meet the same answer. -/
theorem answer_congr (s t : State) (h : Handle) (limit : Word32) (ha : s.answers = t.answers) (ht : s.tick = t.tick) :
    s.answer h limit = t.answer h limit := by
  unfold State.answer; rw [ha, ht]

/-- Where nothing is scripted, the collaborator answers and keeps its contract. -/
theorem answer_unscripted (s : State) (h : Handle) (limit : Word32) (ha : s.answers = []) :
    (s.answer h limit).responds = true ∧ (s.answer h limit).count ≤ limit := by
  unfold State.answer
  rw [ha]
  refine ⟨rfl, ?_⟩
  dsimp only
  split
  · assumption
  · exact BitVec.le_refl limit

/-- Where an answer is scripted, that is the answer. -/
theorem answer_scripted (s : State) (h : Handle) (limit : Word32) (a : Answer) (rest : List Answer)
    (ha : s.answers = a :: rest) : s.answer h limit = a := by
  unfold State.answer; rw [ha]

end Sys2Proof.Machine.State
end

