-- ==== Sys2Proof/Laws/Ops.lean ====
section
/-! SUPPORT. What each shared operation can do, said once: the configuration store, the scratch buffer, and the port
calls forwards (the answer is known) and as frames (whatever the answer). -/

namespace Sys2Proof.Machine

/-! ## The configuration store -/

namespace Memory

theorem read_write_same (m : Memory) (ref : Nat) (c : Configuration) : (Memory.write m ref c).read ref = some c := by
  induction m with
  | nil => simp [Memory.write, Memory.read]
  | cons e rest ih =>
    obtain ⟨k, old⟩ := e
    unfold Memory.write
    split
    · simp [Memory.read]
    · split
      · simp [Memory.read]
      · rename_i h1 h2
        have : k ≠ ref := fun h => h2 h.symm
        simp [Memory.read, this, ih]

theorem read_write_other (m : Memory) (ref other : Nat) (c : Configuration) (h : other ≠ ref) :
    (Memory.write m ref c).read other = m.read other := by
  induction m with
  | nil => simp [Memory.write, Memory.read, h.symm]
  | cons e rest ih =>
    obtain ⟨k, old⟩ := e
    unfold Memory.write
    split
    · simp [Memory.read, h.symm]
    · split
      · rename_i h1 h2
        subst h2
        simp [Memory.read, h.symm]
      · by_cases hk : k = other <;> simp [Memory.read, hk, ih]

/-- Every reference after a write is the written one or was listed. -/
theorem key_of_mem_write (m : Memory) (ref : Nat) (c : Configuration) (e : Nat × Configuration)
    (h : e ∈ Memory.write m ref c) : e.1 = ref ∨ ∃ e' ∈ m, e'.1 = e.1 := by
  induction m with
  | nil => simp [Memory.write] at h; simp [h]
  | cons hd rest ih =>
    obtain ⟨k, old⟩ := hd
    unfold Memory.write at h
    split at h
    · rcases List.mem_cons.1 h with rfl | h
      · exact .inl rfl
      · exact .inr ⟨e, h, rfl⟩
    · split at h
      · rcases List.mem_cons.1 h with rfl | h
        · exact .inl rfl
        · exact .inr ⟨e, List.mem_cons_of_mem _ h, rfl⟩
      · rcases List.mem_cons.1 h with rfl | h
        · exact .inr ⟨(k, old), by simp, rfl⟩
        · rcases ih h with h | ⟨e', he', hk⟩
          · exact .inl h
          · exact .inr ⟨e', List.mem_cons_of_mem _ he', hk⟩

/-- A write keeps the canonical form. -/
theorem wf_write (m : Memory) (ref : Nat) (c : Configuration) (h : m.wf) : (Memory.write m ref c).wf := by
  induction m with
  | nil => simp [Memory.write, Memory.wf]
  | cons hd rest ih =>
    obtain ⟨k, old⟩ := hd
    have hrest := (List.pairwise_cons.1 h).1
    have htail : Memory.wf rest := (List.pairwise_cons.1 h).2
    unfold Memory.write
    split
    · rename_i hlt
      refine List.pairwise_cons.2 ⟨fun e he => ?_, h⟩
      rcases List.mem_cons.1 he with rfl | he
      · exact hlt
      · exact Nat.lt_trans hlt (hrest e he)
    · split
      · rename_i heq
        subst heq
        exact List.pairwise_cons.2 ⟨hrest, htail⟩
      · refine List.pairwise_cons.2 ⟨fun e he => ?_, ih htail⟩
        rcases key_of_mem_write rest ref c e he with h' | ⟨e', he', hk⟩
        · simp only [h']; omega
        · rw [← hk]; exact hrest e' he'

/-- The empty store is in canonical form. -/
theorem wf_nil : Memory.wf [] := List.Pairwise.nil

end Memory

/-! ## The scratch buffer -/

/-- A fill never changes the size of the buffer. -/
@[simp] theorem length_fill (old data : List Byte) : (fill old data).length = old.length := by
  unfold fill; simp; omega

/-- An answer of the buffer's size is its whole new content. -/
theorem fill_of_length_eq (old data : List Byte) (h : data.length = old.length) : fill old data = data := by
  unfold fill; simp [h]

/-- An empty answer leaves the buffer stale. -/
@[simp] theorem fill_nil (old : List Byte) : fill old [] = old := by
  unfold fill; simp

/-! ## Port calls whose answer is known -/

namespace State.Bound

variable {s : State} {ref : Nat} {c : Configuration}

theorem withRecord {α : Type} (hb : s.Bound ref c) (k : Nat → Configuration → Run α) :
    Machine.withRecord s k = k ref c := by
  unfold Machine.withRecord; rw [hb.reference]; dsimp only; rw [hb.record]

/-- A binding is read from two fields only. -/
theorem congr {t : State} (hb : s.Bound ref c) (hc : t.cfg = s.cfg) (hm : t.mem = s.mem) : t.Bound ref c :=
  ⟨hc ▸ hb.reference, hm ▸ hb.record⟩

theorem setBuf {t : State} (hb : s.Bound ref c) (bytes : List Byte) (hc : t.cfg = s.cfg)
    (hm : t.mem = s.mem.write ref { c with buf := bytes }) : t.Bound ref { c with buf := bytes } :=
  ⟨hc ▸ hb.reference, hm ▸ Memory.read_write_same _ _ _⟩

end State.Bound

theorem portCall_answered {α : Type} {s : State} {h : Handle} {limit : Word32} (call : PortCall)
    (k : Answer → State → Run α) (hr : (s.answer h limit).responds = true) :
    portCall s h limit call k = k (s.answer h limit) s.consume := by
  unfold portCall; rw [if_pos hr]

theorem portCall_unanswered {α : Type} {s : State} {h : Handle} {limit : Word32} (call : PortCall)
    (k : Answer → State → Run α) (hr : (s.answer h limit).responds = false) :
    portCall s h limit call k = .stuck (s.stuckAt call) := by
  unfold portCall; rw [if_neg (by simp [hr])]

/-! ## Frames: what a computation can have done, whatever was answered -/

/-- A property of how a computation ends; a fault leaves no state. -/
def Run.Ends {α : Type} (onDone : α → State → Prop) (onStuck : State → Prop) : Run α → Prop
  | .done a s => onDone a s
  | .stuck s => onStuck s
  | .fault _ => True

theorem Run.Ends.bind {α β : Type} {P : α → State → Prop} {Q : State → Prop} {P' : β → State → Prop}
    {Q' : State → Prop} {r : Run α} {k : α → State → Run β} (hr : r.Ends P Q)
    (hk : ∀ a s, P a s → (k a s).Ends P' Q') (hq : ∀ s, Q s → Q' s) : (r.bind k).Ends P' Q' := by
  cases r with
  | done a s => exact hk a s hr
  | stuck s => exact hq s hr
  | fault f => exact True.intro

theorem Run.Ends.mono {α : Type} {P P' : α → State → Prop} {Q Q' : State → Prop} {r : Run α} (hr : r.Ends P Q)
    (hp : ∀ a s, P a s → P' a s) (hq : ∀ s, Q s → Q' s) : r.Ends P' Q' := by
  cases r with
  | done a s => exact hp a s hr
  | stuck s => exact hq s hr
  | fault f => exact True.intro

/-- What the store of the records can have become: of the bound record the buffer, at its old size, and nothing
else. -/
structure MemKeeps (cfg : Option Nat) (m m' : Memory) : Prop where
  wf   : m.wf → m'.wf
  none : ∀ ref, m.read ref = none → m'.read ref = none
  some : ∀ ref c, m.read ref = some c → ∃ buf : List Byte, m'.read ref = some { c with buf := buf } ∧
    buf.length = c.buf.length ∧ (cfg ≠ Option.some ref → buf = c.buf)

theorem MemKeeps.refl (cfg : Option Nat) (m : Memory) : MemKeeps cfg m m :=
  ⟨id, fun _ => id, fun _ c h => ⟨c.buf, h, rfl, fun _ => rfl⟩⟩

theorem MemKeeps.trans {cfg : Option Nat} {m m' m'' : Memory} (h : MemKeeps cfg m m') (h' : MemKeeps cfg m' m'') :
    MemKeeps cfg m m'' := by
  refine ⟨h'.wf ∘ h.wf, fun ref hn => h'.none ref (h.none ref hn), fun ref c hc => ?_⟩
  obtain ⟨b, hb, hl, hs⟩ := h.some ref c hc
  obtain ⟨b', hb', hl', hs'⟩ := h'.some ref _ hb
  exact ⟨b', hb', hl'.trans hl, fun hne => (hs' hne).trans (hs hne)⟩

/-- Writing the bound record's buffer, at its old size, is such a change. -/
theorem MemKeeps.write {m : Memory} {ref : Nat} {c : Configuration} (hr : m.read ref = Option.some c) (bytes : List Byte)
    (hl : bytes.length = c.buf.length) : MemKeeps (Option.some ref) m (m.write ref { c with buf := bytes }) := by
  refine ⟨Memory.wf_write m ref _, fun r hn => ?_, fun r c' hc => ?_⟩
  · by_cases h : r = ref
    · subst h; rw [hr] at hn; cases hn
    · rw [Memory.read_write_other m ref r _ h]; exact hn
  · by_cases h : r = ref
    · subst h
      rw [hr] at hc
      cases hc
      exact ⟨bytes, Memory.read_write_same _ _ _, hl, fun hne => absurd rfl hne⟩
    · exact ⟨c'.buf, (Memory.read_write_other m ref r _ h).trans hc, rfl, fun _ => rfl⟩

/-- What port calls leave as it was, and that the trace only grows. -/
structure Keeps (s t : State) : Prop where
  run     : t.run = s.run
  cfg     : t.cfg = s.cfg
  sense   : t.sense = s.sense
  residue : t.residue = s.residue
  params  : t.params = s.params
  callers : t.callers = s.callers
  ret     : t.ret = s.ret
  trace   : ∃ evs, t.trace = s.trace ++ evs
  mem     : MemKeeps s.cfg s.mem t.mem

theorem Keeps.refl (s : State) : Keeps s s :=
  ⟨rfl, rfl, rfl, rfl, rfl, rfl, rfl, ⟨[], by simp⟩, MemKeeps.refl _ _⟩

theorem Keeps.trans {s t u : State} (h : Keeps s t) (h' : Keeps t u) : Keeps s u := by
  obtain ⟨e, he⟩ := h.trace
  obtain ⟨e', he'⟩ := h'.trace
  exact ⟨h'.run.trans h.run, h'.cfg.trans h.cfg, h'.sense.trans h.sense, h'.residue.trans h.residue,
    h'.params.trans h.params, h'.callers.trans h.callers, h'.ret.trans h.ret,
    ⟨e ++ e', by rw [he', he, List.append_assoc]⟩, h.mem.trans (h.cfg ▸ h'.mem)⟩

/-- The frame of a computation made of port calls: a finished one is where it was in the operation, a stuck one says
at which call. -/
def Run.Frame {α : Type} (s : State) (r : Run α) : Prop :=
  r.Ends (fun _ t => Keeps s t ∧ t.phase = s.phase) (fun t => Keeps s t ∧ ∃ call, t.phase = .stuck call)

theorem Run.Frame.bind {α β : Type} {s : State} {r : Run α} {k : α → State → Run β} (hr : r.Frame s)
    (hk : ∀ a t, (k a t).Frame t) : (r.bind k).Frame s :=
  Run.Ends.bind hr
    (fun a t ht => (hk a t).mono (fun _ _ hu => ⟨ht.1.trans hu.1, hu.2.trans ht.2⟩)
      fun _ hu => ⟨ht.1.trans hu.1, hu.2⟩)
    fun _ h => h

/-- A port call's frame, given the frame of what is done with its answer. -/
theorem portCall_frame {α : Type} (s : State) (h : Handle) (limit : Word32) (call : PortCall)
    (k : Answer → State → Run α) (hk : ∀ a, (k a s.consume).Frame s) : (portCall s h limit call k).Frame s := by
  unfold portCall
  split
  · exact hk _
  · exact ⟨⟨rfl, rfl, rfl, rfl, rfl, rfl, rfl, ⟨[], by simp⟩, MemKeeps.refl _ _⟩, call, rfl⟩

theorem withRecord_frame {α : Type} (s : State) (k : Nat → Configuration → Run α)
    (hk : ∀ ref c, s.Bound ref c → (k ref c).Frame s) : (withRecord s k).Frame s := by
  unfold withRecord
  split
  · exact True.intro
  · split
    · exact True.intro
    · exact hk _ _ ⟨by assumption, by assumption⟩

theorem devInfo_frame (s : State) : (devInfo s).Frame s :=
  withRecord_frame s _ fun _ _ _ => portCall_frame s _ _ _ _ fun _ =>
    ⟨⟨rfl, rfl, rfl, rfl, rfl, rfl, rfl, ⟨_, rfl⟩, MemKeeps.refl _ _⟩, rfl⟩

theorem devWrite_frame (lba : Word32) (s : State) : (devWrite lba s).Frame s :=
  withRecord_frame s _ fun _ _ _ => portCall_frame s _ _ _ _ fun _ =>
    ⟨⟨rfl, rfl, rfl, rfl, rfl, rfl, rfl, ⟨_, rfl⟩, MemKeeps.refl _ _⟩, rfl⟩

theorem devRead_frame (lba : Word32) (s : State) : (devRead lba s).Frame s :=
  withRecord_frame s _ fun _ _ hb => portCall_frame s _ _ _ _ fun _ =>
    ⟨⟨rfl, rfl, rfl, rfl, rfl, rfl, rfl, ⟨_, rfl⟩,
      hb.reference ▸ MemKeeps.write hb.record _ (length_fill _ _)⟩, rfl⟩

theorem trRx_frame (len : Word32) (s : State) : (trRx len s).Frame s :=
  withRecord_frame s _ fun _ _ hb => portCall_frame s _ _ _ _ fun _ =>
    ⟨⟨rfl, rfl, rfl, rfl, rfl, rfl, rfl, ⟨_, rfl⟩,
      hb.reference ▸ MemKeeps.write hb.record _ (length_fill _ _)⟩, rfl⟩

theorem trTx_frame (call : PortCall) (bytes : List Byte) (len : Word32) (s : State) :
    (trTx call bytes len s).Frame s :=
  withRecord_frame s _ fun _ _ _ => portCall_frame s _ _ _ _ fun a => by
    show Run.Frame s (if _ then _ else _)
    split
    · exact ⟨⟨rfl, rfl, rfl, rfl, rfl, rfl, rfl, ⟨_, rfl⟩, MemKeeps.refl _ _⟩, rfl⟩
    · exact True.intro

theorem moveBlock_frame (s : State) : (moveBlock s).Frame s := by
  unfold moveBlock
  split
  · exact (devRead_frame _ s).bind fun _ t => withRecord_frame t _ fun _ _ _ =>
      (trTx_frame _ _ _ t).bind (k := fun _ u => .done () u) fun _ u => ⟨Keeps.refl u, rfl⟩
  · exact (trRx_frame _ s).bind fun _ t => devWrite_frame _ t

/-- The index latch is no part of what a frame speaks of. -/
theorem Run.Frame.of_setIdx {α : Type} {s : State} {i : Nat} {r : Run α} (h : r.Frame (s.setIdx i)) : r.Frame s :=
  Run.Ends.mono h
    (fun _ _ h => ⟨⟨h.1.run, h.1.cfg, h.1.sense, h.1.residue, h.1.params, h.1.callers, h.1.ret, h.1.trace, h.1.mem⟩, h.2⟩)
    (fun _ h => ⟨⟨h.1.run, h.1.cfg, h.1.sense, h.1.residue, h.1.params, h.1.callers, h.1.ret, h.1.trace, h.1.mem⟩, h.2⟩)

theorem blockLoop_frame (n : Nat) : ∀ s : State, (blockLoop n s).Frame s := by
  induction n with
  | zero => exact fun s => ⟨Keeps.refl s, rfl⟩
  | succ n ih => exact fun s => (moveBlock_frame s).bind fun _ t => (ih _).of_setIdx

theorem transferBlocks_frame (s : State) : (transferBlocks s).Frame s :=
  withRecord_frame s _ fun _ _ _ => by
    show Run.Frame s (if _ then _ else _)
    split
    · exact True.intro
    · exact ((blockLoop_frame _ (s.setIdx 0)).of_setIdx).bind (k := fun _ t => .done Status.success t.dropLatches)
        fun _ t => ⟨⟨rfl, rfl, rfl, rfl, rfl, rfl, rfl, ⟨[], by simp⟩, MemKeeps.refl _ _⟩, rfl⟩

/-! ## Guards and ends -/

theorem onTarget_next {s t : State} {k : State → Host.Outcome State Fault Refusal} (h : onTarget s k = .next t) :
    s.phase = .idle ∧ k s = .next t := by
  unfold onTarget at h
  split at h
  · cases h
  · cases h
  · exact ⟨by assumption, h⟩

theorem onTarget_idle {s : State} (hs : s.Idle) (k : State → Host.Outcome State Fault Refusal) :
    onTarget s k = k s := by
  unfold onTarget; rw [hs]

/-- How one command of an `EXECUTE` ends in a next state: with a status, or stuck. -/
theorem runExecute_next {rs : Bool} {h : State → Run Status} {s t : State} (he : runExecute rs h s = .next t) :
    s.phase = .idle ∧ ((∃ st u, h (s.enterExecute rs) = .done st u ∧ t = u.returns (.status st)) ∨
      h (s.enterExecute rs) = .stuck t) := by
  obtain ⟨hi, hk⟩ := onTarget_next he
  refine ⟨hi, ?_⟩
  revert hk
  cases hr : h (s.enterExecute rs) with
  | done st u => intro hk; cases hk; exact .inl ⟨st, u, rfl, rfl⟩
  | stuck u => intro hk; cases hk; exact .inr rfl
  | fault f => intro hk; cases hk

/-- A transmit that is not over its bound never falls short of nothing and everything at once. -/
theorem shortfall_eq_zero_iff (len sent : Word32) (h : sent ≤ len) : shortfall len sent = 0 ↔ sent = len := by
  unfold shortfall; bv_omega

theorem toNat_shortfall (len sent : Word32) (h : sent ≤ len) :
    (shortfall len sent).toNat = len.toNat - sent.toNat := by
  unfold shortfall; bv_omega

end Sys2Proof.Machine
end

