-- ==== Sys2Proof/Laws/DataTransfer.lean ====
section
/-! SUPPORT. The block loop: the answers its port calls meet, what one block does, what n blocks do, and that a
finished loop met answers within the contract. -/

namespace Sys2Proof.Machine

/-! ## The answers ahead -/

/-- `t` is `n` port calls further on in the script than `s`. -/
structure CallsAhead (s t : State) (n : Nat) : Prop where
  answers : t.answers = s.answers.drop n
  tick    : t.tick = s.tick + n

theorem CallsAhead.refl (s : State) : CallsAhead s s 0 := ⟨by simp, by simp⟩

theorem CallsAhead.consume {s t : State} {n : Nat} (h : CallsAhead s t n) : CallsAhead s t.consume (n + 1) := by
  refine ⟨?_, ?_⟩
  · simp [h.answers, List.tail_drop]
  · simp [h.tick]; omega

theorem CallsAhead.trans {s t u : State} {m n : Nat} (h : CallsAhead s t m) (h' : CallsAhead t u n) :
    CallsAhead s u (m + n) := by
  refine ⟨?_, ?_⟩
  · rw [h'.answers, h.answers, List.drop_drop]
  · rw [h'.tick, h.tick]; omega

theorem callsAhead_iterate (s : State) (n : Nat) : CallsAhead s (State.consume^[n] s) n := by
  induction n with
  | zero => exact CallsAhead.refl s
  | succ n ih => rw [Function.iterate_succ_apply']; exact ih.consume

/-- The answers met from `t` on are those met from `s` on, `n` calls later. -/
theorem CallsAhead.answerAfter {s t : State} {n : Nat} (h : CallsAhead s t n) (k : Nat) (hd : Handle) (limit : Word32) :
    t.answerAfter k hd limit = s.answerAfter (n + k) hd limit := by
  have h1 := h.trans (callsAhead_iterate t k)
  have h2 := callsAhead_iterate s (n + k)
  exact State.answer_congr _ _ _ _ (h1.answers.trans h2.answers.symm) (h1.tick.trans h2.tick.symm)

theorem CallsAhead.answer {s t : State} {n : Nat} (h : CallsAhead s t n) (hd : Handle) (limit : Word32) :
    t.answer hd limit = s.answerAfter n hd limit := h.answerAfter 0 hd limit

theorem CallsAhead.bufferAfter {s t : State} {n : Nat} (h : CallsAhead s t n) (hd : Handle) (limit : Word32) (first : Nat)
    (old : List Byte) (k : Nat) : bufferAfter t hd limit first old k = bufferAfter s hd limit (n + first) old k := by
  induction k with
  | zero => rfl
  | succ k ih => simp only [Machine.bufferAfter, ih, h.answerAfter]; congr 3; omega

@[simp] theorem length_bufferAfter (s : State) (hd : Handle) (limit : Word32) (first : Nat) (old : List Byte) (k : Nat) :
    (bufferAfter s hd limit first old k).length = old.length := by
  induction k with
  | zero => rfl
  | succ k ih => simp [Machine.bufferAfter, ih]

/-! ## The loop as a whole -/

theorem Run.bind_assoc {α β γ : Type} (r : Run α) (k : α → State → Run β) (k' : β → State → Run γ) :
    (r.bind k).bind k' = r.bind fun a s => (k a s).bind k' := by
  cases r <;> rfl

theorem Run.bind_done {α : Type} (r : Run α) : r.bind .done = r := by cases r <;> rfl

/-- The blocks of a loop can be counted in two parts. -/
theorem blockLoop_add (m n : Nat) : ∀ s : State, blockLoop (m + n) s = (blockLoop m s).bind fun _ t => blockLoop n t := by
  induction m with
  | zero => intro s; rw [Nat.zero_add]; rfl
  | succ m ih =>
    intro s
    rw [Nat.succ_add]
    show (moveBlock s).bind _ = ((moveBlock s).bind _).bind _
    rw [Run.bind_assoc]
    congr 1
    funext _ t
    exact ih _

theorem blockLoop_one (s : State) :
    blockLoop 1 s = (moveBlock s).bind fun _ t => .done () (t.setIdx (t.latch.idx + 1)) := rfl

/-- What moving `n` blocks has done, `evs` the events and `buf` the last content of the buffer. -/
structure BlocksMoved (s t : State) (ref : Nat) (c : Configuration) (n : Nat) (evs : List Event) (buf : List Byte) :
    Prop where
  phase   : t.phase = s.phase
  run     : t.run = s.run
  cfg     : t.cfg = s.cfg
  sense   : t.sense = s.sense
  residue : t.residue = s.residue
  params  : t.params = s.params
  callers : t.callers = s.callers
  ret     : t.ret = s.ret
  latch   : t.latch = { s.latch with idx := s.latch.idx + n }
  ahead   : CallsAhead s t (2 * n)
  bound   : t.Bound ref { c with buf := buf }
  others  : ∀ r, r ≠ ref → t.mem.read r = s.mem.read r
  trace   : t.trace = s.trace ++ evs

theorem BlocksMoved.refl {s : State} {ref : Nat} {c : Configuration} (hb : s.Bound ref c) :
    BlocksMoved s s ref c 0 [] c.buf :=
  ⟨rfl, rfl, rfl, rfl, rfl, rfl, rfl, rfl, rfl, CallsAhead.refl s, hb, fun _ _ => rfl, by simp⟩

theorem BlocksMoved.trans {s t u : State} {ref : Nat} {c : Configuration} {m n : Nat} {evs evs' : List Event}
    {buf buf' : List Byte} (h : BlocksMoved s t ref c m evs buf)
    (h' : BlocksMoved t u ref { c with buf := buf } n evs' buf') : BlocksMoved s u ref c (m + n) (evs ++ evs') buf' :=
  ⟨h'.phase.trans h.phase, h'.run.trans h.run, h'.cfg.trans h.cfg, h'.sense.trans h.sense, h'.residue.trans h.residue,
    h'.params.trans h.params, h'.callers.trans h.callers, h'.ret.trans h.ret,
    by rw [h'.latch, h.latch]; simp [Nat.add_assoc],
    by rw [Nat.mul_add]; exact h.ahead.trans h'.ahead, h'.bound,
    fun r hr => (h'.others r hr).trans (h.others r hr), by rw [h'.trace, h.trace, List.append_assoc]⟩

/-! ## One block of a READ(10) -/

section Read

variable {s : State} {ref : Nat} {c : Configuration}

/-- The fill of a block, on a bound target whose device answers. -/
theorem devRead_done (hb : s.Bound ref c) (lba : Word32) (hr : (s.answer c.dev 0).responds = true) :
    devRead lba s = .done () ((s.consume.setBuf ref c (fill c.buf (s.answer c.dev 0).data)).emit
      (.devRead c.dev lba (fill c.buf (s.answer c.dev 0).data))) := by
  unfold devRead; rw [hb.withRecord, portCall_answered _ _ hr]

theorem devRead_stuck (hb : s.Bound ref c) (lba : Word32) (hr : (s.answer c.dev 0).responds = false) :
    devRead lba s = .stuck (s.stuckAt (.devRead lba)) := by
  unfold devRead; rw [hb.withRecord, portCall_unanswered _ _ hr]

/-- A transmit, on a bound target whose transport answers. -/
theorem trTx_answered (hb : s.Bound ref c) (call : PortCall) (bytes : List Byte) (len : Word32)
    (hr : (s.answer c.tr len).responds = true) :
    trTx call bytes len s = if (s.answer c.tr len).count ≤ len
      then .done (s.answer c.tr len).count (s.consume.emit (.tx c.tr bytes len (s.answer c.tr len).count))
      else .fault (.txOver s.trace) := by
  unfold trTx; rw [hb.withRecord, portCall_answered _ _ hr]; rfl

theorem trTx_stuck (hb : s.Bound ref c) (call : PortCall) (bytes : List Byte) (len : Word32)
    (hr : (s.answer c.tr len).responds = false) : trTx call bytes len s = .stuck (s.stuckAt call) := by
  unfold trTx; rw [hb.withRecord, portCall_unanswered _ _ hr]

/-- The state between the fill and the drain of a READ(10) block. -/
abbrev afterFill (s : State) (ref : Nat) (c : Configuration) : State :=
  (s.consume.setBuf ref c (fill c.buf (s.answer c.dev 0).data)).emit
    (.devRead c.dev (blockLba s.latch) (fill c.buf (s.answer c.dev 0).data))

theorem afterFill_bound (hb : s.Bound ref c) :
    (afterFill s ref c).Bound ref { c with buf := fill c.buf (s.answer c.dev 0).data } :=
  hb.setBuf _ rfl rfl

theorem afterFill_answer (hd : Handle) (limit : Word32) :
    (afterFill s ref c).answer hd limit = s.answerAfter 1 hd limit :=
  (CallsAhead.refl s).consume.answer hd limit

/-- The drain of a READ(10) block. -/
theorem moveBlock_read (hb : s.Bound ref c) (hd : s.latch.dir = .read) (hr : (s.answer c.dev 0).responds = true) :
    moveBlock s = (trTx .txBlock (fill c.buf (s.answer c.dev 0).data) s.latch.geom.blockSize (afterFill s ref c)).bind
      fun _ t => .done () t := by
  unfold moveBlock
  rw [hd]
  dsimp only
  rw [devRead_done hb _ hr]
  show withRecord (afterFill s ref c) _ = _
  rw [(afterFill_bound hb).withRecord]
  rfl

/-- One block of a READ(10), its calls answered within the contract. -/
theorem blockLoop_one_read (hb : s.Bound ref c) (hd : s.latch.dir = .read) (hr : (s.answer c.dev 0).responds = true)
    (hr' : (s.answerAfter 1 c.tr s.latch.geom.blockSize).responds = true)
    (hc : (s.answerAfter 1 c.tr s.latch.geom.blockSize).count ≤ s.latch.geom.blockSize) :
    ∃ t, blockLoop 1 s = .done () t ∧
      BlocksMoved s t ref c 1
        [.devRead c.dev (blockLba s.latch) (fill c.buf (s.answer c.dev 0).data),
         .tx c.tr (fill c.buf (s.answer c.dev 0).data) s.latch.geom.blockSize
           (s.answerAfter 1 c.tr s.latch.geom.blockSize).count]
        (fill c.buf (s.answer c.dev 0).data) := by
  have ha := afterFill_answer (s := s) (ref := ref) (c := c) c.tr s.latch.geom.blockSize
  rw [blockLoop_one, moveBlock_read hb hd hr,
    trTx_answered (afterFill_bound hb) _ _ _ (by rw [ha]; exact hr'), if_pos (by rw [ha]; exact hc)]
  refine ⟨_, rfl, ?_⟩
  constructor
  case ahead => exact ⟨by simp [afterFill, ← List.drop_one, List.drop_drop], by simp [afterFill]⟩
  case bound => exact (afterFill_bound hb).congr (by simp) (by simp)
  case others => exact fun r hne => by simpa [afterFill] using Memory.read_write_other _ _ _ _ hne
  case trace => rw [← ha]; simp [afterFill]
  all_goals simp [afterFill]

end Read

/-! ## One block of a WRITE(10) -/

section Write

variable {s : State} {ref : Nat} {c : Configuration}

theorem trRx_done (hb : s.Bound ref c) (len : Word32) (hr : (s.answer c.tr len).responds = true) :
    trRx len s = .done () ((s.consume.setBuf ref c (fill c.buf (s.answer c.tr len).data)).emit
      (.rx c.tr len (fill c.buf (s.answer c.tr len).data) (s.answer c.tr len).count)) := by
  unfold trRx; rw [hb.withRecord, portCall_answered _ _ hr]

theorem trRx_stuck (hb : s.Bound ref c) (len : Word32) (hr : (s.answer c.tr len).responds = false) :
    trRx len s = .stuck (s.stuckAt .rxBlock) := by
  unfold trRx; rw [hb.withRecord, portCall_unanswered _ _ hr]

theorem devWrite_done (hb : s.Bound ref c) (lba : Word32) (hr : (s.answer c.dev 0).responds = true) :
    devWrite lba s = .done () (s.consume.emit (.devWrite c.dev lba c.buf)) := by
  unfold devWrite; rw [hb.withRecord, portCall_answered _ _ hr]

theorem devWrite_stuck (hb : s.Bound ref c) (lba : Word32) (hr : (s.answer c.dev 0).responds = false) :
    devWrite lba s = .stuck (s.stuckAt (.devWrite lba)) := by
  unfold devWrite; rw [hb.withRecord, portCall_unanswered _ _ hr]

/-- The state between the fill and the drain of a WRITE(10) block. -/
abbrev afterReceive (s : State) (ref : Nat) (c : Configuration) : State :=
  (s.consume.setBuf ref c (fill c.buf (s.answer c.tr s.latch.geom.blockSize).data)).emit
    (.rx c.tr s.latch.geom.blockSize (fill c.buf (s.answer c.tr s.latch.geom.blockSize).data)
      (s.answer c.tr s.latch.geom.blockSize).count)

theorem afterReceive_bound (hb : s.Bound ref c) :
    (afterReceive s ref c).Bound ref { c with buf := fill c.buf (s.answer c.tr s.latch.geom.blockSize).data } :=
  hb.setBuf _ rfl rfl

theorem afterReceive_answer (hd : Handle) (limit : Word32) :
    (afterReceive s ref c).answer hd limit = s.answerAfter 1 hd limit :=
  (CallsAhead.refl s).consume.answer hd limit

/-- The drain of a WRITE(10) block. -/
theorem moveBlock_write (hb : s.Bound ref c) (hd : s.latch.dir = .write)
    (hr : (s.answer c.tr s.latch.geom.blockSize).responds = true) :
    moveBlock s = devWrite (blockLba s.latch) (afterReceive s ref c) := by
  unfold moveBlock
  rw [hd]
  dsimp only
  rw [trRx_done hb _ hr]
  rfl

/-- One block of a WRITE(10), its calls answered. -/
theorem blockLoop_one_write (hb : s.Bound ref c) (hd : s.latch.dir = .write)
    (hr : (s.answer c.tr s.latch.geom.blockSize).responds = true)
    (hr' : (s.answerAfter 1 c.dev 0).responds = true) :
    ∃ t, blockLoop 1 s = .done () t ∧
      BlocksMoved s t ref c 1
        [.rx c.tr s.latch.geom.blockSize (fill c.buf (s.answer c.tr s.latch.geom.blockSize).data)
           (s.answer c.tr s.latch.geom.blockSize).count,
         .devWrite c.dev (blockLba s.latch) (fill c.buf (s.answer c.tr s.latch.geom.blockSize).data)]
        (fill c.buf (s.answer c.tr s.latch.geom.blockSize).data) := by
  rw [blockLoop_one, moveBlock_write hb hd hr,
    devWrite_done (afterReceive_bound hb) _ (by rw [afterReceive_answer]; exact hr')]
  refine ⟨_, rfl, ?_⟩
  constructor
  case ahead => exact ⟨by simp [afterReceive, ← List.drop_one, List.drop_drop], by simp [afterReceive]⟩
  case bound => exact (afterReceive_bound hb).congr (by simp) (by simp)
  case others => exact fun r hne => by simpa [afterReceive] using Memory.read_write_other _ _ _ _ hne
  all_goals simp [afterReceive]

end Write

/-! ## n blocks -/

theorem blockLba_after (l : Latches) (n : Nat) :
    blockLba { l with idx := l.idx + n } = blockLba l + BitVec.ofNat 32 n := by
  unfold blockLba; simp only [BitVec.ofNat_add]; rw [BitVec.add_assoc]

theorem readEvents_succ (c : Configuration) (bs lba : Word32) (sent : Nat → Word32) (buf : Nat → List Byte) (n : Nat) :
    readEvents c bs lba sent buf (n + 1) = readEvents c bs lba sent buf n ++
      [.devRead c.dev (lba + BitVec.ofNat 32 n) (buf (n + 1)), .tx c.tr (buf (n + 1)) bs (sent n)] := by
  simp [readEvents, List.range_succ]

theorem writeEvents_succ (c : Configuration) (bs lba : Word32) (got : Nat → Word32) (buf : Nat → List Byte) (n : Nat) :
    writeEvents c bs lba got buf (n + 1) = writeEvents c bs lba got buf n ++
      [.rx c.tr bs (buf (n + 1)) (got n), .devWrite c.dev (lba + BitVec.ofNat 32 n) (buf (n + 1))] := by
  simp [writeEvents, List.range_succ]

theorem length_readEvents (c : Configuration) (bs lba : Word32) (sent : Nat → Word32) (buf : Nat → List Byte) (n : Nat) :
    (readEvents c bs lba sent buf n).length = 2 * n := by
  induction n with
  | zero => rfl
  | succ n ih => rw [readEvents_succ]; simp [ih]; omega

theorem length_writeEvents (c : Configuration) (bs lba : Word32) (got : Nat → Word32) (buf : Nat → List Byte) (n : Nat) :
    (writeEvents c bs lba got buf n).length = 2 * n := by
  induction n with
  | zero => rfl
  | succ n ih => rw [writeEvents_succ]; simp [ih]; omega

/-- The first `n` blocks of a READ(10) loop meet answers within the contract. -/
def ReadAnswered (s : State) (c : Configuration) (n : Nat) : Prop :=
  ∀ k, k < n → (s.answerAfter (2 * k) c.dev 0).responds = true ∧
    (s.answerAfter (2 * k + 1) c.tr s.latch.geom.blockSize).responds = true ∧
    (s.answerAfter (2 * k + 1) c.tr s.latch.geom.blockSize).count ≤ s.latch.geom.blockSize

/-- The first `n` blocks of a WRITE(10) loop meet answers. -/
def WriteAnswered (s : State) (c : Configuration) (n : Nat) : Prop :=
  ∀ k, k < n → (s.answerAfter (2 * k) c.tr s.latch.geom.blockSize).responds = true ∧
    (s.answerAfter (2 * k + 1) c.dev 0).responds = true

/-- n blocks of a READ(10). -/
theorem blockLoop_read {s : State} {ref : Nat} {c : Configuration} (hb : s.Bound ref c) (hd : s.latch.dir = .read)
    (n : Nat) (ha : ReadAnswered s c n) :
    ∃ t, blockLoop n s = .done () t ∧
      BlocksMoved s t ref c n
        (readEvents c s.latch.geom.blockSize (blockLba s.latch)
          (fun k => (s.answerAfter (2 * k + 1) c.tr s.latch.geom.blockSize).count) (bufferAfter s c.dev 0 0 c.buf) n)
        (bufferAfter s c.dev 0 0 c.buf n) := by
  induction n with
  | zero => exact ⟨s, rfl, BlocksMoved.refl hb⟩
  | succ n ih =>
    obtain ⟨t, ht, hm⟩ := ih fun k hk => ha k (by omega)
    obtain ⟨h1, h2, h3⟩ := ha n (by omega)
    have hl : t.latch.geom = s.latch.geom := by rw [hm.latch]
    have e1 : t.answer c.dev 0 = s.answerAfter (2 * n) c.dev 0 := hm.ahead.answer _ _
    have e2 : t.answerAfter 1 c.tr s.latch.geom.blockSize = s.answerAfter (2 * n + 1) c.tr s.latch.geom.blockSize :=
      hm.ahead.answerAfter 1 _ _
    obtain ⟨u, hu, hm'⟩ := blockLoop_one_read (s := t) (ref := ref) hm.bound (by rw [hm.latch]; exact hd)
      (by rw [e1]; exact h1) (by rw [hl]; dsimp only; rw [e2]; exact h2) (by rw [hl]; dsimp only; rw [e2]; exact h3)
    refine ⟨u, ?_, ?_⟩
    · rw [blockLoop_add, ht]; exact hu
    · have hm'' := hm.trans hm'
      rw [readEvents_succ]
      simp only [e1, e2, hm.latch, blockLba_after] at hm''
      simpa only [Machine.bufferAfter, Nat.zero_add] using hm''

/-- n blocks of a WRITE(10). -/
theorem blockLoop_write {s : State} {ref : Nat} {c : Configuration} (hb : s.Bound ref c) (hd : s.latch.dir = .write)
    (n : Nat) (ha : WriteAnswered s c n) :
    ∃ t, blockLoop n s = .done () t ∧
      BlocksMoved s t ref c n
        (writeEvents c s.latch.geom.blockSize (blockLba s.latch)
          (fun k => (s.answerAfter (2 * k) c.tr s.latch.geom.blockSize).count)
          (bufferAfter s c.tr s.latch.geom.blockSize 0 c.buf) n)
        (bufferAfter s c.tr s.latch.geom.blockSize 0 c.buf n) := by
  induction n with
  | zero => exact ⟨s, rfl, BlocksMoved.refl hb⟩
  | succ n ih =>
    obtain ⟨t, ht, hm⟩ := ih fun k hk => ha k (by omega)
    obtain ⟨h1, h2⟩ := ha n (by omega)
    have hl : t.latch.geom = s.latch.geom := by rw [hm.latch]
    have e1 : t.answer c.tr s.latch.geom.blockSize = s.answerAfter (2 * n) c.tr s.latch.geom.blockSize :=
      hm.ahead.answer _ _
    have e2 : t.answerAfter 1 c.dev 0 = s.answerAfter (2 * n + 1) c.dev 0 := hm.ahead.answerAfter 1 _ _
    obtain ⟨u, hu, hm'⟩ := blockLoop_one_write (s := t) (ref := ref) hm.bound (by rw [hm.latch]; exact hd)
      (by rw [hl]; dsimp only; rw [e1]; exact h1) (by dsimp only; rw [e2]; exact h2)
    refine ⟨u, ?_, ?_⟩
    · rw [blockLoop_add, ht]; exact hu
    · have hm'' := hm.trans hm'
      rw [writeEvents_succ]
      simp only [e1, hm.latch, blockLba_after] at hm''
      simpa only [Machine.bufferAfter, Nat.zero_add] using hm''

/-! ## A finished loop met answers within the contract -/

theorem Run.bind_eq_done {α β : Type} {r : Run α} {k : α → State → Run β} {b : β} {u : State}
    (h : r.bind k = .done b u) : ∃ a t, r = .done a t ∧ k a t = .done b u := by
  cases r with
  | done a t => exact ⟨a, t, rfl, h⟩
  | stuck t => cases h
  | fault f => cases h

theorem blockLoop_read_inv {s t : State} {ref : Nat} {c : Configuration} (hb : s.Bound ref c)
    (hd : s.latch.dir = .read) (n : Nat) (h : blockLoop n s = .done () t) : ReadAnswered s c n := by
  induction n generalizing t with
  | zero => intro k hk; omega
  | succ n ih =>
    rw [blockLoop_add] at h
    obtain ⟨⟨⟩, u, hu, hl⟩ := Run.bind_eq_done h
    have ha := ih hu
    obtain ⟨u', hu', hm⟩ := blockLoop_read hb hd n ha
    rw [hu] at hu'
    cases hu'
    intro k hk
    by_cases hkn : k < n
    · exact ha k hkn
    obtain rfl : k = n := by omega
    have hg : u.latch.geom = s.latch.geom := by rw [hm.latch]
    have e1 : u.answer c.dev 0 = s.answerAfter (2 * k) c.dev 0 := hm.ahead.answer _ _
    have e2 : ∀ l, u.answerAfter 1 c.tr l = s.answerAfter (2 * k + 1) c.tr l := fun l => hm.ahead.answerAfter 1 _ _
    have hdir : u.latch.dir = .read := by rw [hm.latch]; exact hd
    rw [← e1, ← e2, ← hg]
    have r1 : (u.answer c.dev 0).responds = true := by
      by_contra hn
      have hs := devRead_stuck (s := u) hm.bound (blockLba u.latch) (by simpa using hn)
      rw [blockLoop_one] at hl
      unfold moveBlock at hl
      rw [hdir] at hl
      dsimp only at hl
      rw [hs] at hl
      cases hl
    refine ⟨r1, ?_⟩
    rw [blockLoop_one, moveBlock_read hm.bound hdir r1] at hl
    by_cases r2 : (u.answerAfter 1 c.tr u.latch.geom.blockSize).responds = true
    · refine ⟨r2, ?_⟩
      by_contra hn
      rw [trTx_answered (afterFill_bound hm.bound) _ _ _ (by rw [afterFill_answer]; exact r2),
        if_neg (by rw [afterFill_answer]; exact hn)] at hl
      cases hl
    · rw [trTx_stuck (afterFill_bound hm.bound) _ _ _ (by rw [afterFill_answer]; simpa using r2)] at hl
      cases hl

theorem blockLoop_write_inv {s t : State} {ref : Nat} {c : Configuration} (hb : s.Bound ref c)
    (hd : s.latch.dir = .write) (n : Nat) (h : blockLoop n s = .done () t) : WriteAnswered s c n := by
  induction n generalizing t with
  | zero => intro k hk; omega
  | succ n ih =>
    rw [blockLoop_add] at h
    obtain ⟨⟨⟩, u, hu, hl⟩ := Run.bind_eq_done h
    have ha := ih hu
    obtain ⟨u', hu', hm⟩ := blockLoop_write hb hd n ha
    rw [hu] at hu'
    cases hu'
    intro k hk
    by_cases hkn : k < n
    · exact ha k hkn
    obtain rfl : k = n := by omega
    have hg : u.latch.geom = s.latch.geom := by rw [hm.latch]
    have e1 : ∀ l, u.answer c.tr l = s.answerAfter (2 * k) c.tr l := fun l => hm.ahead.answer _ _
    have e2 : u.answerAfter 1 c.dev 0 = s.answerAfter (2 * k + 1) c.dev 0 := hm.ahead.answerAfter 1 _ _
    have hdir : u.latch.dir = .write := by rw [hm.latch]; exact hd
    rw [← e1, ← e2, ← hg]
    have r1 : (u.answer c.tr u.latch.geom.blockSize).responds = true := by
      by_contra hn
      have hs := trRx_stuck (s := u) hm.bound u.latch.geom.blockSize (by simpa using hn)
      rw [blockLoop_one] at hl
      unfold moveBlock at hl
      rw [hdir] at hl
      dsimp only at hl
      rw [hs] at hl
      cases hl
    refine ⟨r1, ?_⟩
    rw [blockLoop_one, moveBlock_write hm.bound hdir r1] at hl
    by_contra hn
    rw [devWrite_stuck (afterReceive_bound hm.bound) _ (by rw [afterReceive_answer]; simpa using hn)] at hl
    cases hl

end Sys2Proof.Machine
end

