-- ==== Sys2Proof/Laws/Commands.lean ====
section
/-! SUPPORT. What a command of an EXECUTE can do, said once: how each handler ends whatever is answered, and what it
does where its answers are known. -/

namespace Sys2Proof.Machine

/-! ## How a handler can end -/

/-- What every handler leaves as it was: no run-state, no binding, no strap, no caller's action, no returned value; the
trace only grows, and of the records only the bound one's buffer can have changed. -/
structure Framed (s t : State) : Prop where
  run     : t.run = s.run
  cfg     : t.cfg = s.cfg
  params  : t.params = s.params
  callers : t.callers = s.callers
  ret     : t.ret = s.ret
  trace   : ∃ evs, t.trace = s.trace ++ evs
  mem     : MemKeeps s.cfg s.mem t.mem

theorem Keeps.framed {s t : State} (h : Keeps s t) : Framed s t :=
  ⟨h.run, h.cfg, h.params, h.callers, h.ret, h.trace, h.mem⟩

theorem Framed.refl (s : State) : Framed s s := (Keeps.refl s).framed

theorem Framed.trans {s t u : State} (h : Framed s t) (h' : Framed t u) : Framed s u := by
  obtain ⟨e, he⟩ := h.trace
  obtain ⟨e', he'⟩ := h'.trace
  exact ⟨h'.run.trans h.run, h'.cfg.trans h.cfg, h'.params.trans h.params, h'.callers.trans h.callers,
    h'.ret.trans h.ret, ⟨e ++ e', by rw [he', he, List.append_assoc]⟩, h.mem.trans (h.cfg ▸ h'.mem)⟩

/-- A short transmit has been recorded: it is the last event, and the residue is its shortfall (rule R170). -/
def ShortRecorded (s t : State) : Prop :=
  ∃ (evs : List Event) (tr : Handle) (bytes : List Byte) (len sent : Word32),
    t.trace = s.trace ++ evs ++ [.tx tr bytes len sent] ∧ sent < len ∧ t.residue.toNat = len.toNat - sent.toNat

/-- The sense errors a command can have (rules R231, R249): one at most. -/
def ownErrors (p : Config.Params) : Instr → List (Vector Byte Config.senseLen)
  | .unknown _ => [senseInvalidCommand p]
  | .reqsense _ _ _ _ => [senseInvalidField p]
  | .inquiry _ _ => [senseInvalidField p]
  | .read10 _ _ => [senseLbaOutOfRange p]
  | .write10 _ _ => [senseLbaOutOfRange p]
  | .tur => []
  | .modesense6 => []
  | .prevallow => []
  | .readcap10 => []
  | .init => []
  | .start _ => []
  | .stop => []
  | .residue => []
  | .execute _ => []

/-- The three ways a finished handler stands to the sense record and the residue (rules R231, R249): no error, a short
transmit, one of the sense errors `errors`. -/
inductive Concluded (errors : List (Vector Byte Config.senseLen)) (s : State) : Status → State → Prop where
  | good {t : State} : (t.sense = s.sense ∨ t.sense = senseOk s.params) → t.residue = s.residue →
      Concluded errors s .success t
  | short {t : State} : t.sense = s.sense → ShortRecorded s t → Concluded errors s .failed t
  | error {t : State} : t.sense ∈ errors → t.residue = s.residue → Concluded errors s .failed t

/-- How a handler started in `s` that can have the sense errors `errors` can end. -/
def HandlerEnds (errors : List (Vector Byte Config.senseLen)) (s : State) (r : Run Status) : Prop :=
  r.Ends (fun st t => Framed s t ∧ t.phase = s.phase ∧ Concluded errors s st t)
    (fun t => Framed s t ∧ (∃ call, t.phase = .stuck call) ∧ t.sense = s.sense ∧ t.residue = s.residue)

variable {errors : List (Vector Byte Config.senseLen)}

theorem noOp_ends (s : State) : HandlerEnds errors s (noOp s) :=
  ⟨⟨rfl, rfl, rfl, rfl, rfl, ⟨[], by simp⟩, MemKeeps.refl _ _⟩, rfl, .good (.inr rfl) rfl⟩

/-- Reporting an error. -/
theorem failWith_ends {s : State} {key code qualifier : Byte} (hm : senseRecord s.params key code qualifier ∈ errors) :
    HandlerEnds errors s (failWith key code qualifier s) :=
  ⟨⟨rfl, rfl, rfl, rfl, rfl, ⟨[], by simp⟩, MemKeeps.refl _ _⟩, rfl, .error hm rfl⟩

theorem failInvalidField_ends (s : State) : HandlerEnds [senseInvalidField s.params] s (failInvalidField s) :=
  failWith_ends (by simp [senseInvalidField])

/-- A handler that goes on after a computation of port calls. -/
theorem HandlerEnds.after {α : Type} {s : State} {r : Run α} {k : α → State → Run Status} (hr : r.Frame s)
    (hk : ∀ a t, t.params = s.params → HandlerEnds errors t (k a t)) : HandlerEnds errors s (r.bind k) := by
  refine Run.Ends.bind hr (fun a t ht => (hk a t ht.1.params).mono (fun st u hu => ?_) fun u hu => ?_) fun t ht => ?_
  · obtain ⟨e, he⟩ := ht.1.trace
    refine ⟨ht.1.framed.trans hu.1, hu.2.1.trans ht.2, ?_⟩
    cases hu.2.2 with
    | good h1 h2 => exact .good (by rw [← ht.1.sense, ← ht.1.params]; exact h1) (h2.trans ht.1.residue)
    | short h1 h2 =>
      obtain ⟨evs, tr, bytes, len, sent, h3, h4, h5⟩ := h2
      exact .short (h1.trans ht.1.sense) ⟨e ++ evs, tr, bytes, len, sent, by simp [h3, he], h4, h5⟩
    | error h1 h2 => exact .error h1 (h2.trans ht.1.residue)
  · exact ⟨ht.1.framed.trans hu.1, hu.2.1, hu.2.2.1.trans ht.1.sense, hu.2.2.2.trans ht.1.residue⟩
  · exact ⟨ht.1.framed, ht.2, ht.1.sense, ht.1.residue⟩

theorem transmitData_ends (bytes : List Byte) (len : Word32) (s : State) :
    HandlerEnds errors s (transmitData bytes len s) := by
  unfold transmitData trTx withRecord
  split
  · exact True.intro
  split
  · exact True.intro
  dsimp only [portCall]
  split
  · split
    · rename_i hle
      show HandlerEnds errors s (if _ then _ else _)
      split
      · exact ⟨⟨rfl, rfl, rfl, rfl, rfl, ⟨_, rfl⟩, MemKeeps.refl _ _⟩, rfl, .good (.inl rfl) rfl⟩
      · rename_i hne
        rw [shortfall_eq_zero_iff _ _ hle] at hne
        exact ⟨⟨rfl, rfl, rfl, rfl, rfl, ⟨_, rfl⟩, MemKeeps.refl _ _⟩, rfl,
          .short rfl ⟨[], _, bytes, len, _, by rw [List.append_nil]; rfl, BitVec.lt_of_le_ne hle hne, toNat_shortfall _ _ hle⟩⟩
    · exact True.intro
  · exact ⟨⟨rfl, rfl, rfl, rfl, rfl, ⟨[], by simp⟩, MemKeeps.refl _ _⟩, ⟨_, rfl⟩, rfl, rfl⟩

theorem inquiryHandler_ends (flags page : Byte) (s : State) :
    HandlerEnds [senseInvalidField s.params] s (inquiryHandler flags page s) := by
  unfold inquiryHandler
  split
  · unfold withTemplate withRecord
    split
    · exact True.intro
    split
    · exact True.intro
    dsimp only
    split
    · exact transmitData_ends _ _ s
    · exact True.intro
  · exact failInvalidField_ends s

theorem requestSenseHandler_ends (r1 r2 r3 alloc : Byte) (s : State) :
    HandlerEnds [senseInvalidField s.params] s (requestSenseHandler r1 r2 r3 alloc s) := by
  unfold requestSenseHandler
  split
  · exact transmitData_ends _ _ s
  · exact failInvalidField_ends s

theorem readCapacityHandler_ends (s : State) : HandlerEnds errors s (readCapacityHandler s) :=
  HandlerEnds.after (devInfo_frame s) fun _ t _ => transmitData_ends _ _ t

theorem modeSenseHandler_ends (s : State) : HandlerEnds errors s (modeSenseHandler s) :=
  HandlerEnds.after (devInfo_frame s) fun _ t _ => transmitData_ends _ _ t

theorem transferBlocks_ends (s : State) : HandlerEnds errors s (transferBlocks s) := by
  have h := transferBlocks_frame s
  cases hr : transferBlocks s with
  | fault f => exact True.intro
  | stuck t =>
    rw [hr] at h
    exact ⟨h.1.framed, h.2, h.1.sense, h.1.residue⟩
  | done st t =>
    rw [hr] at h
    have : st = .success := by
      unfold transferBlocks withRecord at hr
      split at hr
      · cases hr
      split at hr
      · cases hr
      dsimp only at hr
      split at hr
      · cases hr
      obtain ⟨_, u, _, hd⟩ := Run.bind_eq_done hr
      cases hd
      rfl
    subst this
    exact ⟨h.1.framed, h.2, .good (.inl h.1.sense) h.1.residue⟩

/-- A latch is no part of what a handler's end speaks of. -/
theorem HandlerEnds.of_latch {s : State} {l : Latches} {r : Run Status}
    (h : HandlerEnds errors { s with latch := l } r) : HandlerEnds errors s r :=
  Run.Ends.mono h
    (fun _ _ h => ⟨⟨h.1.run, h.1.cfg, h.1.params, h.1.callers, h.1.ret, h.1.trace, h.1.mem⟩, h.2.1, by
      cases h.2.2 with
      | good h1 h2 => exact .good h1 h2
      | short h1 h2 => exact .short h1 h2
      | error h1 h2 => exact .error h1 h2⟩)
    (fun _ h => ⟨⟨h.1.run, h.1.cfg, h.1.params, h.1.callers, h.1.ret, h.1.trace, h.1.mem⟩, h.2⟩)

theorem dataTransfer_ends (dir : Direction) (lba : Word32) (cnt : Word16) (s : State) :
    HandlerEnds [senseLbaOutOfRange s.params] s (dataTransfer dir lba cnt s) := by
  refine HandlerEnds.of_latch (l := { s.latch with lba := lba, cnt := cnt, dir := dir }) ?_
  refine HandlerEnds.after (devInfo_frame _) fun g t ht => ?_
  split
  · exact HandlerEnds.of_latch (transferBlocks_ends (t.latchGeometry g))
  · exact ⟨⟨rfl, rfl, rfl, rfl, rfl, ⟨[], by simp⟩, MemKeeps.refl _ _⟩, rfl,
      .error (List.mem_singleton.2 (congrArg senseLbaOutOfRange ht)) rfl⟩

/-- Every command is an `EXECUTE` of a handler that ends in one of these ways. -/
theorem command_is_execute (i : Instr) (hi : i.isCommand = true) :
    ∃ (rs : Bool) (h : State → Run Status), (∀ s, exec i s = runExecute rs h s) ∧
      (∀ s, HandlerEnds (ownErrors s.params i) s (h s)) := by
  cases i with
  | tur => exact ⟨_, _, fun _ => rfl, noOp_ends⟩
  | reqsense r1 r2 r3 alloc => exact ⟨_, _, fun _ => rfl, requestSenseHandler_ends r1 r2 r3 alloc⟩
  | inquiry flags page => exact ⟨_, _, fun _ => rfl, inquiryHandler_ends flags page⟩
  | modesense6 => exact ⟨_, _, fun _ => rfl, modeSenseHandler_ends⟩
  | prevallow => exact ⟨_, _, fun _ => rfl, noOp_ends⟩
  | readcap10 => exact ⟨_, _, fun _ => rfl, readCapacityHandler_ends⟩
  | read10 lba cnt => exact ⟨_, _, fun _ => rfl, dataTransfer_ends .read lba cnt⟩
  | write10 lba cnt => exact ⟨_, _, fun _ => rfl, dataTransfer_ends .write lba cnt⟩
  | unknown op => exact ⟨_, _, fun _ => rfl, fun _ => failWith_ends (by simp [ownErrors, senseInvalidCommand])⟩
  | init => cases hi
  | start ref => cases hi
  | stop => cases hi
  | residue => cases hi
  | execute cdb => cases hi

/-! ## The decoder, and EXECUTE of a buffer -/

/-- A command buffer selects a command, never a host operation (rule R95). -/
theorem decode_isCommand {p : Config.Params} {cdb : List Byte} {i : Instr} (h : decode p cdb = .ok i) : i.isCommand = true := by
  unfold decode decodeDataRequest cdbByte at h
  simp only [bind, Except.bind] at h
  repeat' split at h
  all_goals first | (cases h; rfl) | cases h

/-- Every operation but INIT is guarded by `onTarget` (rules R262, R265). -/
theorem exec_guarded (i : Instr) (hi : i ≠ .init) :
    ∃ k : State → Host.Outcome State Fault Refusal, ∀ s, exec i s = onTarget s k := by
  by_cases hc : i.isCommand = true
  · obtain ⟨rs, h, he, _⟩ := command_is_execute i hc
    exact ⟨fun s => (h (s.enterExecute rs)).finish, he⟩
  · cases i with
    | init => exact absurd rfl hi
    | start ref => exact ⟨fun s => .next (State.returns { s with cfg := some ref, run := .ready } .nothing), fun _ => rfl⟩
    | stop => exact ⟨fun s => .next (State.returns { s with cfg := none, run := .stopped } .nothing), fun _ => rfl⟩
    | residue => exact ⟨fun s => .next (s.returns (.residue s.residue)), fun _ => rfl⟩
    | execute cdb =>
      exact ⟨fun s => match decode s.params cdb with
        | .ok i => runCommand i s
        | .error (.cdbShort _) => .fault .cdbShort, fun _ => rfl⟩
    | _ => exact absurd rfl hc

theorem runCommand_eq_exec {i : Instr} (hc : i.isCommand = true) (s : State) : runCommand i s = exec i s := by
  cases i <;> first | rfl | cases hc

/-- EXECUTE of a buffer that decodes is the command (rule R150). -/
theorem exec_execute_of_decode {cdb : List Byte} {i : Instr} (s : State) (h : decode s.params cdb = .ok i) :
    exec (.execute cdb) s = execExecute cdb s ∧ execExecute cdb s = exec i s := by
  refine ⟨rfl, ?_⟩
  have hc := decode_isCommand h
  obtain ⟨k, hk⟩ := exec_guarded i (by rintro rfl; cases hc)
  unfold execExecute
  by_cases hs : s.phase = .idle
  · rw [onTarget_idle hs, h]; exact runCommand_eq_exec hc s
  · rw [hk]; unfold onTarget; split <;> first | rfl | exact absurd ‹_› hs

/-- EXECUTE of a buffer that ends too early (rule R88). -/
theorem exec_execute_of_short {cdb : List Byte} {e : DecodeReject} {s : State} (hs : s.Idle)
    (h : decode s.params cdb = .error e) : execExecute cdb s = .fault .cdbShort := by
  unfold execExecute; rw [onTarget_idle hs, h]

/-- An EXECUTE that ends in a next state ran a command. -/
theorem isExecute_next {i : Instr} {s t : State} (hi : isExecute i) (h : exec i s = .next t) :
    ∃ j, j.isCommand = true ∧ exec j s = .next t ∧ (i.isCommand = true → j = i) ∧
      ∀ cdb, i = .execute cdb → decode s.params cdb = .ok j := by
  rcases hi with hi | ⟨cdb, rfl⟩
  · exact ⟨i, hi, h, fun _ => rfl, (by rintro _ rfl; cases hi)⟩
  · have hs := (onTarget_next (show execExecute cdb s = .next t from h)).1
    cases hd : decode s.params cdb with
    | ok j =>
      exact ⟨j, decode_isCommand hd, (by rw [← (exec_execute_of_decode s hd).2]; exact h), (fun hf => by cases hf),
        (by rintro _ ⟨⟩; exact hd)⟩
    | error e =>
      have hf := exec_execute_of_short hs hd
      rw [show execExecute cdb s = .next t from h] at hf
      cases hf

/-- How a command ends in a next state, said once for the nine of them. -/
theorem command_next {i : Instr} {s t : State} (hi : i.isCommand = true) (h : exec i s = .next t) :
    s.phase = .idle ∧ ∃ rs,
      (∃ st u, Framed (s.enterExecute rs) u ∧ u.phase = .idle ∧
        Concluded (ownErrors s.params i) (s.enterExecute rs) st u ∧
        t = u.returns (.status st)) ∨
      (Framed (s.enterExecute rs) t ∧ (∃ call, t.phase = .stuck call) ∧ t.sense = entrySense s rs ∧
        t.residue = s.residue) := by
  obtain ⟨rs, hd, he, hh⟩ := command_is_execute i hi
  rw [he] at h
  obtain ⟨hs, h⟩ := runExecute_next h
  refine ⟨hs, rs, ?_⟩
  have hh := hh (s.enterExecute rs)
  rcases h with ⟨st, u, h1, h2⟩ | h1
  · rw [h1] at hh
    exact .inl ⟨st, u, hh.1, hh.2.1.trans (by simpa using hs), by simpa using hh.2.2, h2⟩
  · rw [h1] at hh
    exact .inr ⟨hh.1, hh.2.1, by simpa using hh.2.2.1, by simpa using hh.2.2.2⟩

/-! ## Where the answers are known -/

section Answered

variable {s : State} {ref : Nat} {c : Configuration}

theorem devInfo_done (hb : s.Bound ref c) (hr : (s.answer c.dev 0).responds = true) :
    devInfo s = .done (s.answer c.dev 0).geom (s.consume.emit (.getInfo c.dev (s.answer c.dev 0).geom)) := by
  unfold devInfo; rw [hb.withRecord, portCall_answered _ _ hr]

theorem devInfo_stuck (hb : s.Bound ref c) (hr : (s.answer c.dev 0).responds = false) :
    devInfo s = .stuck (s.stuckAt .devInfo) := by
  unfold devInfo; rw [hb.withRecord, portCall_unanswered _ _ hr]

/-- The state in which a data command that has its geometry goes on. -/
abbrev afterInfo (s : State) (c : Configuration) (lba : Word32) (cnt : Word16) (dir : Direction) (g : Geometry) : State :=
  ((s.latchRequest lba cnt dir).consume.emit (.getInfo c.dev g)).latchGeometry g

/-- A data command on a bound target whose device answers the geometry query. -/
theorem dataTransfer_answered (hb : s.Bound ref c) (dir : Direction) (lba : Word32) (cnt : Word16)
    (hr : (s.answer c.dev 0).responds = true) :
    dataTransfer dir lba cnt s =
      if lba.toNat + cnt.toNat ≤ (s.answer c.dev 0).geom.blockCount.toNat
      then transferBlocks (afterInfo s c lba cnt dir (s.answer c.dev 0).geom)
      else failOutOfRange
        (afterInfo s c lba cnt dir (s.answer c.dev 0).geom).dropLatches := by
  unfold dataTransfer
  rw [devInfo_done (s := s.latchRequest lba cnt dir) (hb.congr rfl rfl) hr]
  show (if inRange _ _ _ = true then _ else _) = _
  unfold inRange
  simp only [decide_eq_true_eq]
  rfl

theorem afterInfo_bound (hb : s.Bound ref c) (lba : Word32) (cnt : Word16) (dir : Direction) (g : Geometry) :
    (afterInfo s c lba cnt dir g).Bound ref c := hb.congr rfl rfl

theorem afterInfo_ahead (lba : Word32) (cnt : Word16) (dir : Direction) (g : Geometry) :
    CallsAhead s (afterInfo s c lba cnt dir g) 1 :=
  ⟨(CallsAhead.refl s).consume.answers, (CallsAhead.refl s).consume.tick⟩

/-- The blocks of a data command on a bound target. -/
theorem transferBlocks_bound (hb : s.Bound ref c) :
    transferBlocks s =
      if 1 ≤ s.latch.cnt.toNat ∧ c.buf.length ≠ s.latch.geom.blockSize.toNat then .fault (.bufSize s.trace)
      else (blockLoop s.latch.cnt.toNat (s.setIdx 0)).bind fun _ t => .done .success t.dropLatches := by
  unfold transferBlocks; rw [hb.withRecord]

theorem runExecute_idle (hs : s.Idle) (rs : Bool) (h : State → Run Status) :
    runExecute rs h s = (h (s.enterExecute rs)).finish := onTarget_idle hs _

theorem enterExecute_bound (hb : s.Bound ref c) (rs : Bool) : (s.enterExecute rs).Bound ref c :=
  hb.congr (by simp) (by simp)

theorem enterExecute_ahead (rs : Bool) : CallsAhead s (s.enterExecute rs) 0 := ⟨by simp, by simp⟩

/-- Step 1 of a command that is not REQUEST SENSE, under either policy (rule R151). -/
theorem enterExecute_other (s : State) : s.enterExecute false = { s with sense := senseOk s.params, ret := .nothing } := by
  unfold State.enterExecute; cases s.params.policy <;> rfl

theorem enterExecute_always (h : s.params.policy = .alwaysAtEntry) (rs : Bool) :
    s.enterExecute rs = { s with sense := senseOk s.params, ret := .nothing } := by
  unfold State.enterExecute; rw [h]; rfl

theorem enterExecute_skip (h : s.params.policy = .skipOnRequestSense) :
    s.enterExecute true = { s with ret := .nothing } := by
  unfold State.enterExecute; rw [h]; rfl

theorem withRecord_unbound {α : Type} (h : s.cfg = none) (k : Nat → Configuration → Run α) :
    withRecord s k = .fault .noCfg := by
  unfold withRecord; rw [h]

theorem withRecord_dangling {α : Type} (h : s.cfg = some ref) (hm : s.mem.read ref = none)
    (k : Nat → Configuration → Run α) : withRecord s k = .fault .noRecord := by
  unfold withRecord; rw [h]; dsimp only; rw [hm]

/-- The template of a suitable record: its first `INQUIRY_LEN` bytes. -/
theorem withTemplate_bound {α : Type} (hb : s.Bound ref c) (hl : s.params.inquiryLen.toNat ≤ c.inq.length)
    (k : List Byte → Run α) : withTemplate s k = k (c.inq.take s.params.inquiryLen.toNat) := by
  unfold withTemplate; rw [hb.withRecord, if_pos hl]

theorem withTemplate_short {α : Type} (hb : s.Bound ref c) (hl : c.inq.length < s.params.inquiryLen.toNat)
    (k : List Byte → Run α) : withTemplate s k = .fault .shortTemplate := by
  unfold withTemplate; rw [hb.withRecord, if_neg (by omega)]

/-- A fixed response that is never answered. -/
theorem transmitData_stuck (hb : s.Bound ref c) (bytes : List Byte) (len : Word32)
    (hr : (s.answer c.tr len).responds = false) :
    transmitData bytes len s = .stuck (s.stuckAt .txResponse) := by
  unfold transmitData; rw [trTx_stuck hb _ _ _ hr]; rfl

/-- A fixed response within the contract. -/
theorem transmitData_answered (hb : s.Bound ref c) (bytes : List Byte) (len : Word32)
    (hr : (s.answer c.tr len).responds = true) (hle : (s.answer c.tr len).count ≤ len) :
    transmitData bytes len s =
      if (s.answer c.tr len).count = len
      then .done .success (s.consume.emit (.tx c.tr bytes len (s.answer c.tr len).count))
      else .done .failed ((s.consume.emit (.tx c.tr bytes len (s.answer c.tr len).count)).setResidue
        (len - (s.answer c.tr len).count)) := by
  unfold transmitData
  rw [trTx_answered hb _ _ _ hr, if_pos hle]
  show (if _ then _ else _) = _
  simp only [shortfall_eq_zero_iff _ _ hle]
  rfl

/-- A fixed response answered with more than its length. -/
theorem transmitData_over (hb : s.Bound ref c) (bytes : List Byte) (len : Word32)
    (hr : (s.answer c.tr len).responds = true) (hlt : len < (s.answer c.tr len).count) :
    transmitData bytes len s = .fault (.txOver s.trace) := by
  unfold transmitData
  rw [trTx_answered hb _ _ _ hr, if_neg (by bv_omega)]
  rfl

/-- Where the loop of a data command starts. -/
abbrev loopStart (s : State) (c : Configuration) (lba : Word32) (cnt : Word16) (dir : Direction) (g : Geometry) :
    State := (afterInfo (s.enterExecute false) c lba cnt dir g).setIdx 0

theorem loopStart_bound (hb : s.Bound ref c) (lba : Word32) (cnt : Word16) (dir : Direction) (g : Geometry) :
    (loopStart s c lba cnt dir g).Bound ref c := hb.congr (by simp) (by simp)

theorem loopStart_ahead (s : State) (c : Configuration) (lba : Word32) (cnt : Word16) (dir : Direction)
    (g : Geometry) : CallsAhead s (loopStart s c lba cnt dir g) 1 := ⟨by simp, by simp⟩

theorem blockLba_loopStart (s : State) (c : Configuration) (lba : Word32) (cnt : Word16) (dir : Direction)
    (g : Geometry) : blockLba (loopStart s c lba cnt dir g).latch = lba := by
  show lba + 0#32 = lba; simp

/-- A data command whose geometry query is answered: its three ways on (rule R202). -/
theorem dataTransfer_from {lba : Word32} {cnt : Word16} {dir : Direction} {g : Geometry} (hb : s.Bound ref c)
    (h1 : (s.answerAfter 0 c.dev 0).responds = true) (h2 : (s.answerAfter 0 c.dev 0).geom = g) :
    dataTransfer dir lba cnt (s.enterExecute false) =
      if lba.toNat + cnt.toNat ≤ g.blockCount.toNat then
        if 1 ≤ cnt.toNat ∧ c.buf.length ≠ g.blockSize.toNat then .fault (.bufSize (s.trace ++ [.getInfo c.dev g]))
        else (blockLoop cnt.toNat (loopStart s c lba cnt dir g)).bind fun _ t => .done .success t.dropLatches
      else .done .failed ((afterInfo (s.enterExecute false) c lba cnt dir g).dropLatches.setSense
        s.params.keyIllegalRequest s.params.ascLbaOutOfRange s.params.ascqNoQualifier) := by
  have e0 := enterExecute_ahead (s := s) false
  have e1 : State.answer (s.enterExecute false) c.dev 0 = s.answerAfter 0 c.dev 0 := by rw [e0.answer]
  rw [dataTransfer_answered (enterExecute_bound hb false) _ _ _ (by rw [e1]; exact h1), e1, h2,
    transferBlocks_bound (afterInfo_bound (enterExecute_bound hb false) _ _ _ _)]
  simp only [State.enterExecute_trace, State.latchGeometry_trace, State.emit_trace, State.consume_trace,
    State.latchRequest_trace]
  unfold failOutOfRange failWith
  simp only [State.dropLatches_params, State.latchGeometry_params, State.emit_params, State.consume_params,
    State.latchRequest_params, State.enterExecute_params]
  rfl

/-- The first `n` blocks of a READ(10), by the answers the command meets from its start. -/
theorem loopStart_read {lba : Word32} {cnt : Word16} {g : Geometry} {n : Nat} (hb : s.Bound ref c)
    (h : ∀ k, k < n → (s.answerAfter (1 + 2 * k) c.dev 0).responds = true ∧
      (s.answerAfter (2 + 2 * k) c.tr g.blockSize).responds = true ∧
      (s.answerAfter (2 + 2 * k) c.tr g.blockSize).count ≤ g.blockSize) :
    ∃ t, blockLoop n (loopStart s c lba cnt .read g) = .done () t ∧
      BlocksMoved (loopStart s c lba cnt .read g) t ref c n
        (readEvents c g.blockSize lba (fun k => (s.answerAfter (2 + 2 * k) c.tr g.blockSize).count)
          (bufferAfter s c.dev 0 1 c.buf) n)
        (bufferAfter s c.dev 0 1 c.buf n) := by
  have e := loopStart_ahead s c lba cnt .read g
  have e4 : ∀ k, 1 + (2 * k + 1) = 2 + 2 * k := fun k => by omega
  have e5 : bufferAfter (loopStart s c lba cnt .read g) c.dev 0 0 c.buf = bufferAfter s c.dev 0 1 c.buf := by
    funext k; rw [e.bufferAfter]
  obtain ⟨t, ht, hm⟩ := blockLoop_read (loopStart_bound hb lba cnt .read g) rfl n fun k hk => by
    rw [e.answerAfter, e.answerAfter, e4]; exact h k hk
  refine ⟨t, ht, ?_⟩
  simp only [e.answerAfter, e5, blockLba_loopStart, e4] at hm
  exact hm

/-- The first `n` blocks of a WRITE(10), by the answers the command meets from its start. -/
theorem loopStart_write {lba : Word32} {cnt : Word16} {g : Geometry} {n : Nat} (hb : s.Bound ref c)
    (h : ∀ k, k < n → (s.answerAfter (1 + 2 * k) c.tr g.blockSize).responds = true ∧
      (s.answerAfter (2 + 2 * k) c.dev 0).responds = true) :
    ∃ t, blockLoop n (loopStart s c lba cnt .write g) = .done () t ∧
      BlocksMoved (loopStart s c lba cnt .write g) t ref c n
        (writeEvents c g.blockSize lba (fun k => (s.answerAfter (1 + 2 * k) c.tr g.blockSize).count)
          (bufferAfter s c.tr g.blockSize 1 c.buf) n)
        (bufferAfter s c.tr g.blockSize 1 c.buf n) := by
  have e := loopStart_ahead s c lba cnt .write g
  have e4 : ∀ k, 1 + (2 * k + 1) = 2 + 2 * k := fun k => by omega
  have e5 : ∀ l, bufferAfter (loopStart s c lba cnt .write g) c.tr l 0 c.buf = bufferAfter s c.tr l 1 c.buf :=
    fun l => by funext k; rw [e.bufferAfter]
  obtain ⟨t, ht, hm⟩ := blockLoop_write (loopStart_bound hb lba cnt .write g) rfl n fun k hk => by
    rw [e.answerAfter, e.answerAfter, e4]; exact h k hk
  refine ⟨t, ht, ?_⟩
  simp only [e.answerAfter, e5, blockLba_loopStart] at hm
  exact hm

/-- A loop goes on from its k-th block. -/
theorem blockLoop_at {t : State} {k n : Nat} (h : blockLoop k s = .done () t) (hk : k < n) :
    ∃ m, blockLoop n s = (moveBlock t).bind fun _ u => blockLoop m (u.setIdx (u.latch.idx + 1)) := by
  refine ⟨n - k - 1, ?_⟩
  have : n = k + ((n - k - 1) + 1) := by omega
  rw [this, blockLoop_add, h]
  simp only [show k + (n - k - 1 + 1) - k - 1 = n - k - 1 by omega]
  rfl

end Answered

end Sys2Proof.Machine
end

