-- ==== Sys2Proof/Laws/Encoding.lean ====
section
/-! SUPPORT. The field functions as numbers, what the encoder puts at each position, and which buffers the decoder
accepts. -/

namespace Sys2Proof

theorem toNat_be16 (a b : Byte) : (be16 a b).toNat = a.toNat * 256 + b.toNat := by
  show (a ++ b : BitVec (8 + 8)).toNat = _
  rw [BitVec.toNat_append, ← Nat.shiftLeft_add_eq_or_of_lt b.isLt, Nat.shiftLeft_eq]

/-! ## The encoder's buffer, position by position -/

@[simp] theorem length_placeAt (ks : List Nat) (vs buf : List Byte) : (placeAt ks vs buf).length = buf.length := by
  induction ks generalizing vs buf with
  | nil => cases vs <;> rfl
  | cons k ks ih =>
    cases vs with
    | nil => rfl
    | cons v vs => rw [placeAt, ih, List.length_set]

@[simp] theorem length_encodeFields (len : Nat) (op : Byte) (positions : List Nat) (values : List Byte) :
    (encodeFields len op positions values).length = len := by
  simp [encodeFields, zeros]

/-- A position that is not written keeps its byte. -/
theorem getElem?_placeAt_other (ks : List Nat) (vs buf : List Byte) (i : Nat) (hi : i ∉ ks) :
    (placeAt ks vs buf)[i]? = buf[i]? := by
  induction ks generalizing vs buf with
  | nil => cases vs <;> rfl
  | cons k ks ih =>
    cases vs with
    | nil => rfl
    | cons v vs =>
      rw [placeAt, ih _ _ fun h => hi (List.mem_cons_of_mem _ h),
        List.getElem?_set_ne (by rintro rfl; exact hi (List.mem_cons_self ..))]

/-- A position that is written once holds its value. -/
theorem getElem?_placeAt_head (k : Nat) (ks : List Nat) (v : Byte) (vs buf : List Byte) (hk : k ∉ ks)
    (hl : k < buf.length) : (placeAt (k :: ks) (v :: vs) buf)[k]? = some v := by
  rw [placeAt, getElem?_placeAt_other _ _ _ _ hk, List.getElem?_set_self hl]

/-- Every position of pairwise different ones holds its value. -/
theorem getElem?_placeAt {ks : List Nat} {vs buf : List Byte} (hn : ks.Nodup) (hk : ∀ k ∈ ks, k < buf.length)
    (j : Nat) (hj : j < ks.length) (hl : ks.length = vs.length) :
    (placeAt ks vs buf)[ks[j]]? = vs[j]? := by
  induction ks generalizing vs buf j with
  | nil => cases hj
  | cons k ks ih =>
    cases vs with
    | nil => cases hl
    | cons v vs =>
      have hc := List.nodup_cons.1 hn
      cases j with
      | zero => exact getElem?_placeAt_head k ks v vs buf hc.1 (hk k (List.mem_cons_self ..))
      | succ j =>
        exact ih hc.2 (fun k' h => by rw [List.length_set]; exact hk k' (List.mem_cons_of_mem _ h)) j
          (Nat.lt_of_succ_lt_succ hj) (Nat.succ.inj hl)

section Fields

variable {len : Nat} {op : Byte} {positions : List Nat} {values : List Byte}

theorem cdbByte_eq {cdb : List Byte} {i : Nat} {b : Byte} (h : cdb[i]? = some b) : cdbByte cdb i = .ok b := by
  unfold cdbByte; rw [h]

/-- The opcode stands at position 0. -/
theorem getElem?_encodeFields_zero (h : FieldsFit positions len) (hl : 0 < len) :
    (encodeFields len op positions values)[0]? = some op := by
  unfold encodeFields
  rw [getElem?_placeAt_other _ _ _ _ fun h0 => absurd (h.2 0 h0).1 (Nat.lt_irrefl 0),
    List.getElem?_set_self (by simpa [zeros] using hl)]

/-- The fields stand at their positions. -/
theorem getElem?_encodeFields (h : FieldsFit positions len) (hl : positions.length = values.length) (j : Nat)
    (hj : j < positions.length) : (encodeFields len op positions values)[positions[j]]? = values[j]? :=
  getElem?_placeAt h.1 (fun k hk => by simpa [zeros] using (h.2 k hk).2) j hj hl

/-- Every other byte is zero. -/
theorem getElem?_encodeFields_other {i : Nat} (h0 : 0 < i) (hi : i < len) (hn : i ∉ positions) :
    (encodeFields len op positions values)[i]? = some 0 := by
  unfold encodeFields
  rw [getElem?_placeAt_other _ _ _ _ hn, List.getElem?_set_ne (by omega), zeros, List.getElem?_replicate_of_lt hi]

end Fields

/-! ## The decoder -/

/-- An opcode outside the accepted eight selects the unknown command, whatever follows it (rule R84). -/
theorem decode_unknown {p : Config.Params} {op : Byte} (rest : List Byte) (h : op ∉ acceptedOpcodes p) :
    decode p (op :: rest) = .ok (.unknown op) := by
  unfold acceptedOpcodes at h
  simp only [List.mem_cons, List.not_mem_nil, or_false, not_or] at h
  unfold decode cdbByte
  simp [bind, Except.bind, h]

/-- A read of a command byte fails exactly past the buffer's end (rule R13). -/
theorem cdbByte_cases (cdb : List Byte) (i : Nat) :
    (cdb.length ≤ i ∧ cdbByte cdb i = .error (.cdbShort i)) ∨ (i < cdb.length ∧ ∃ b, cdbByte cdb i = .ok b) := by
  unfold cdbByte
  cases h : cdb[i]? with
  | none => exact .inl ⟨List.getElem?_eq_none_iff.1 h, rfl⟩
  | some b => exact .inr ⟨(List.getElem?_eq_some_iff.1 h).1, b, rfl⟩

/-- A data request is decoded exactly from a buffer that holds its six bytes (rules R85, R114). -/
theorem decodeDataRequest_cases (p : Config.Params) (cdb : List Byte) :
    ((∃ e, decodeDataRequest p cdb = .error e) ∧ ∃ k ∈ dataRequestPositions p, cdb.length ≤ k) ∨
      ((∃ r, decodeDataRequest p cdb = .ok r) ∧ ∀ k ∈ dataRequestPositions p, k < cdb.length) := by
  unfold decodeDataRequest dataRequestPositions
  simp only [bind, Except.bind, List.mem_cons, List.not_mem_nil, or_false, exists_eq_or_imp, forall_eq_or_imp,
    exists_eq_left, forall_eq]
  rcases cdbByte_cases cdb p.rwLbaOff with ⟨h, e⟩ | ⟨h, b, e⟩ <;> rw [e]
  · exact .inl ⟨⟨_, rfl⟩, .inl h⟩
  rcases cdbByte_cases cdb (p.rwLbaOff + 1) with ⟨h1, e⟩ | ⟨h1, b, e⟩ <;> dsimp only <;> rw [e]
  · exact .inl ⟨⟨_, rfl⟩, .inr (.inl h1)⟩
  rcases cdbByte_cases cdb (p.rwLbaOff + 2) with ⟨h2, e⟩ | ⟨h2, b, e⟩ <;> dsimp only <;> rw [e]
  · exact .inl ⟨⟨_, rfl⟩, .inr (.inr (.inl h2))⟩
  rcases cdbByte_cases cdb (p.rwLbaOff + 3) with ⟨h3, e⟩ | ⟨h3, b, e⟩ <;> dsimp only <;> rw [e]
  · exact .inl ⟨⟨_, rfl⟩, .inr (.inr (.inr (.inl h3)))⟩
  rcases cdbByte_cases cdb p.rwCntOff with ⟨h4, e⟩ | ⟨h4, b, e⟩ <;> dsimp only <;> rw [e]
  · exact .inl ⟨⟨_, rfl⟩, .inr (.inr (.inr (.inr (.inl h4))))⟩
  rcases cdbByte_cases cdb (p.rwCntOff + 1) with ⟨h5, e⟩ | ⟨h5, b, e⟩ <;> dsimp only <;> rw [e]
  · exact .inl ⟨⟨_, rfl⟩, .inr (.inr (.inr (.inr (.inr h5))))⟩
  · exact .inr ⟨⟨_, rfl⟩, h, h1, h2, h3, h4, h5⟩

/-- A buffer is decoded exactly when it holds every byte of its opcode's row (rules R85, R88). -/
theorem decode_cases (p : Config.Params) (op : Byte) (rest : List Byte) :
    ((∃ e, decode p (op :: rest) = .error e) ∧ ∃ k ∈ operandPositions p op, rest.length + 1 ≤ k) ∨
      ((∃ i, decode p (op :: rest) = .ok i) ∧ ∀ k ∈ operandPositions p op, k < rest.length + 1) := by
  have h0 : cdbByte (op :: rest) 0 = .ok op := rfl
  rw [← List.length_cons (a := op)]
  generalize op :: rest = cdb at h0
  unfold decode operandPositions
  rw [h0]
  simp only [bind, Except.bind]
  by_cases h1 : op = p.opcInquiry
  · rw [if_pos h1, if_pos h1]
    simp only [inquiryPositions, List.mem_cons, List.not_mem_nil, or_false, exists_eq_or_imp, forall_eq_or_imp,
      exists_eq_left, forall_eq]
    rcases cdbByte_cases cdb p.inqEvpdByte with ⟨h, e⟩ | ⟨h, b, e⟩ <;> rw [e]
    · exact .inl ⟨⟨_, rfl⟩, .inl h⟩
    rcases cdbByte_cases cdb p.inqPageByte with ⟨h', e⟩ | ⟨h', b, e⟩ <;> dsimp only <;> rw [e]
    · exact .inl ⟨⟨_, rfl⟩, .inr h'⟩
    · exact .inr ⟨⟨_, rfl⟩, h, h'⟩
  rw [if_neg h1, if_neg h1]
  by_cases h2 : op = p.opcRequestSense
  · rw [if_pos h2, if_pos h2]
    simp only [requestSensePositions, List.mem_cons, List.not_mem_nil, or_false, exists_eq_or_imp, forall_eq_or_imp,
      exists_eq_left, forall_eq]
    rcases cdbByte_cases cdb 1 with ⟨h, e⟩ | ⟨h, b, e⟩ <;> rw [e]
    · exact .inl ⟨⟨_, rfl⟩, .inl h⟩
    rcases cdbByte_cases cdb 2 with ⟨h3, e⟩ | ⟨h3, b, e⟩ <;> dsimp only <;> rw [e]
    · exact .inl ⟨⟨_, rfl⟩, .inr (.inl h3)⟩
    rcases cdbByte_cases cdb 3 with ⟨h4, e⟩ | ⟨h4, b, e⟩ <;> dsimp only <;> rw [e]
    · exact .inl ⟨⟨_, rfl⟩, .inr (.inr (.inl h4))⟩
    rcases cdbByte_cases cdb p.rsAllocByte with ⟨h5, e⟩ | ⟨h5, b, e⟩ <;> dsimp only <;> rw [e]
    · exact .inl ⟨⟨_, rfl⟩, .inr (.inr (.inr h5))⟩
    · exact .inr ⟨⟨_, rfl⟩, h, h3, h4, h5⟩
  rw [if_neg h2, if_neg h2]
  by_cases h3 : op = p.opcRead10
  · rw [if_pos h3, if_pos (.inl h3)]
    rcases decodeDataRequest_cases p cdb with ⟨⟨e, he⟩, h⟩ | ⟨⟨r, hr⟩, h⟩
    · rw [he]; exact .inl ⟨⟨_, rfl⟩, h⟩
    · rw [hr]; exact .inr ⟨⟨_, rfl⟩, h⟩
  rw [if_neg h3]
  by_cases h4 : op = p.opcWrite10
  · rw [if_pos h4, if_pos (.inr h4)]
    rcases decodeDataRequest_cases p cdb with ⟨⟨e, he⟩, h⟩ | ⟨⟨r, hr⟩, h⟩
    · rw [he]; exact .inl ⟨⟨_, rfl⟩, h⟩
    · rw [hr]; exact .inr ⟨⟨_, rfl⟩, h⟩
  rw [if_neg h4, if_neg (not_or.2 ⟨h3, h4⟩)]
  refine .inr ⟨?_, fun k hk => by cases hk⟩
  repeat' split
  all_goals exact ⟨_, rfl⟩

/-- The smallest safe length is one past the last byte read (rule R85). -/
theorem smallestSafeLength_le_iff (p : Config.Params) (op : Byte) (n : Nat) :
    smallestSafeLength p op ≤ n + 1 ↔ ∀ k ∈ operandPositions p op, k < n + 1 := by
  unfold smallestSafeLength
  induction operandPositions p op with
  | nil => simp
  | cons k ks ih => simp only [List.foldr_cons, Nat.max_le, ih, List.forall_mem_cons]; exact Iff.rfl

/-- A long enough buffer decodes (rules R85, R88). -/
theorem decode_of_cdbLongEnough {p : Config.Params} {cdb : List Byte} (h : cdbLongEnough p cdb = true) :
    ∃ i, decode p cdb = .ok i := by
  match cdb, h with
  | op :: rest, h =>
    rcases decode_cases p op rest with ⟨_, k, hk, hl⟩ | ⟨h', _⟩
    · have := (smallestSafeLength_le_iff p op rest.length).1 (of_decide_eq_true h) k hk
      omega
    · exact h'

end Sys2Proof
end

