-- ==== Sys2Proof/Laws/PerInstr.lean ====
section
/-! SUPPORT. Laws that hold of every operation of the opcode table, one lemma per constructor. -/

namespace Sys2Proof.Laws.EncodeLength

/-- The nominal length of an operation's command format (rules R81, R82); none for a host operation (rule R95), and
one byte, the only one that is read, for an opcode outside the accepted eight. -/
def nominalLength : Instr → Option Nat
  | .tur => some 6
  | .reqsense _ _ _ _ => some 6
  | .inquiry _ _ => some 6
  | .modesense6 => some 6
  | .prevallow => some 6
  | .readcap10 => some 10
  | .read10 _ _ => some 10
  | .write10 _ _ => some 10
  | .unknown _ => some 1
  | .init => none
  | .start _ => none
  | .stop => none
  | .residue => none
  | .execute _ => none

/-- Whatever the parameters, the encoder makes a command of its format's nominal length. -/
def Statement (i : Instr) : Prop := ∀ p : Config.Params, (encode p i).map List.length = nominalLength i

theorem encoded (len : Nat) (op : Byte) (positions : List Nat) (values : List Byte) :
    (some (encodeFields len op positions values)).map List.length = some len :=
  congrArg some (length_encodeFields len op positions values)

theorem tur : Statement .tur := fun _ => encoded _ _ _ _
theorem reqsense (r1 r2 r3 alloc : Byte) : Statement (.reqsense r1 r2 r3 alloc) := fun _ => encoded _ _ _ _
theorem inquiry (flags page : Byte) : Statement (.inquiry flags page) := fun _ => encoded _ _ _ _
theorem modesense6 : Statement .modesense6 := fun _ => encoded _ _ _ _
theorem prevallow : Statement .prevallow := fun _ => encoded _ _ _ _
theorem readcap10 : Statement .readcap10 := fun _ => encoded _ _ _ _
theorem read10 (lba : Word32) (cnt : Word16) : Statement (.read10 lba cnt) := fun _ => encoded _ _ _ _
theorem write10 (lba : Word32) (cnt : Word16) : Statement (.write10 lba cnt) := fun _ => encoded _ _ _ _
theorem unknown (op : Byte) : Statement (.unknown op) := fun _ => rfl
theorem init : Statement .init := fun _ => rfl
theorem start (ref : Nat) : Statement (.start ref) := fun _ => rfl
theorem stop : Statement .stop := fun _ => rfl
theorem residue : Statement .residue := fun _ => rfl
theorem execute (cdb : List Byte) : Statement (.execute cdb) := fun _ => rfl

end Sys2Proof.Laws.EncodeLength
end

