-- ==== Sys2Proof/Tests/Slice0.lean ====
section
/-! SUPPORT. Tests: the well-formedness smoke test, words written out from the spec's encodings, one-step tests whose
expected results are the spec's own vectors (`95_test_vectors.md`), and for every statement with hypotheses a witness
that meets them. -/

namespace Sys2Proof.Tests

open Sys2Proof Sys2Proof.Machine

/-- The spec's default parameters (rule R9), which its vectors use. -/
abbrev dflt : Config.Params := Config.defaultParams

/-! ## Well-formedness refuses ill-formed terms -/

theorem test_wf_refuses_known_opcode_as_unknown : (Instr.unknown 0x12).wellFormed dflt = false := by decide
theorem test_wf_accepts_unknown_opcode : (Instr.unknown 0x35).wellFormed dflt = true := by decide
theorem test_wf_refuses_empty_buffer : (Instr.execute []).wellFormed dflt = false := by decide
theorem test_wf_refuses_short_inquiry : (Instr.execute [0x12, 0x01]).wellFormed dflt = false := by decide
theorem test_wf_refuses_short_request_sense : (Instr.execute [0x03, 0, 0, 0]).wellFormed dflt = false := by decide
theorem test_wf_refuses_short_read : (Instr.execute [0x28, 0, 0, 0, 0, 1, 0, 0]).wellFormed dflt = false := by decide
theorem test_wf_accepts_nine_byte_read : (Instr.execute [0x28, 0, 0, 0, 0, 1, 0, 0, 1]).wellFormed dflt = true := by decide

/-! ## Words written out from the spec's encodings -/

/-- V7. -/
theorem test_decode_tur : decode dflt [0x00, 0xFF, 0xFF, 0xFF, 0xFF, 0xFF] = .ok .tur := by rfl
/-- V9. -/
theorem test_decode_reqsense : decode dflt [0x03, 0x00, 0x00, 0x80, 0x12, 0x00] = .ok (.reqsense 0 0 0x80 0x12) := by rfl
/-- V8. -/
theorem test_decode_inquiry : decode dflt [0x12, 0x01, 0x83, 0x00, 0x24, 0x00] = .ok (.inquiry 0x01 0x83) := by rfl
/-- V11. -/
theorem test_decode_modesense6 : decode dflt [0x1A, 0x08, 0x1C, 0x00, 0x04, 0x00] = .ok .modesense6 := by rfl
/-- V7. -/
theorem test_decode_prevallow : decode dflt [0x1E, 0x00, 0x00, 0x00, 0x01, 0x00] = .ok .prevallow := by rfl
/-- V10. -/
theorem test_decode_readcap10 : decode dflt [0x25, 0x01, 0xFF, 0xFF, 0xFF, 0xFF, 0, 0, 0x01, 0] = .ok .readcap10 := by rfl
/-- V2: bytes 1, 6, 9 do not enter. -/
theorem test_decode_read10 : decode dflt [0x28, 0xFF, 0x12, 0x34, 0x56, 0x78, 0xFF, 0x9A, 0xBC, 0xFF] =
    .ok (.read10 305419896 39612) := by rfl
/-- V2. -/
theorem test_decode_write10 : decode dflt [0x2A, 0x00, 0x00, 0x00, 0x00, 0x02, 0x00, 0x00, 0x02, 0x00] =
    .ok (.write10 2 2) := by rfl
/-- V7: the 6-byte read is unknown. -/
theorem test_decode_unknown : decode dflt [0x08, 0x00, 0x00, 0x00, 0x01, 0x00] = .ok (.unknown 0x08) := by rfl
/-- V2: nine bytes suffice, eight do not. -/
theorem test_decode_short_read : decode dflt [0x28, 0x00, 0x00, 0x00, 0x00, 0x01, 0x00, 0x00] = .error (.cdbShort 8) := by rfl
/-- The table's numbering: byte k is bits 8k+7 to 8k. -/
theorem test_decode_table_word : decodeTableWord 80 0x00030000E60300000028 = some (.read10 998 3) := by rfl
/-- A machine of other legal parameters. -/
def other : Config.Params :=
  { dflt with opcTestUnitReady := 0x2A, opcInquiry := 0x00, opcWrite10 := 0x12, keyIllegalRequest := 0x0B,
              ascInvalidFieldInCdb := 0x99, senseOffKey := 17, senseOffAsc := 1, inqEvpdByte := 4, inqEvpdMask := 0x80,
              inqPageByte := 1, rsAllocByte := 5, rwLbaOff := 6, rwCntOff := 1, inquiryLen := 2 }
theorem dflt_ok : ParamsOk dflt := ⟨by decide, by decide, by decide, by decide, by decide⟩
theorem other_ok : ParamsOk other := ⟨by decide, by decide, by decide, by decide, by decide⟩
/-- The fields are read where the parameters put them (rule R9). -/
theorem test_decode_other : decode other [0x00, 0x83, 0, 0, 0x7F] = .ok (.inquiry 0x7F 0x83) ∧
    decode other [0x12, 0x00, 0x02, 0, 0, 0, 0x00, 0x00, 0x03, 0xE6] = .ok (.write10 998 2) ∧
    decode other [0x2A] = .ok .tur ∧ decode other [0x03, 0, 0, 0, 0xFF] = .error (.cdbShort 5) := ⟨rfl, rfl, rfl, rfl⟩
theorem test_encode_other : encode other (.write10 998 2) =
    some [0x12, 0x00, 0x02, 0, 0, 0, 0x00, 0x00, 0x03, 0xE6] := by decide
/-- The sense record's fields stand where the parameters put them (rule R140). -/
theorem test_sense_other : (senseInvalidField other).toList =
    [0x70, 0x99, 0, 0, 0, 0, 0, 8, 0, 0, 0, 0, 0, 0, 0, 0, 0, 0x0B] := by decide
/-- V2. -/
theorem test_encode_write10 : encode dflt (.write10 4294967295 65535) =
    some [0x2A, 0x00, 0xFF, 0xFF, 0xFF, 0xFF, 0x00, 0xFF, 0xFF, 0x00] := by decide
/-- V1. -/
theorem test_be32 : be32 0x00 0x00 0x03 0xE6 = 998 := by decide
/-- V1. -/
theorem test_enc16 : enc16 1000 = [0x03, 0xE8] := by decide
/-- V4, the wrap for a device of no blocks, and the standard order. -/
theorem test_pack_capacity : packReadCapacity10 .sizeThenLba 512 0 = [0, 0, 2, 0, 0xFF, 0xFF, 0xFF, 0xFF] ∧
    packReadCapacity10 .lbaThenSize 512 1000 = [0, 0, 3, 0xE7, 0, 0, 2, 0] := by decide

/-! ## A small state, the spec's `cfgS` and `INQ_A` -/

/-- `INQ_A`: A0 A1 ... C3. -/
def inqA : List Byte := (List.range 36).map fun i => BitVec.ofNat 8 (0xA0 + i)

/-- A configuration with a scratch buffer of four bytes. -/
def cfgS : Configuration := { dev := 1, tr := 2, buf := [0x40, 0x41, 0x42, 0x43], inq := inqA }

/-- A device answers the geometry query. -/
def info (blockSize blockCount : Word32) (wp : Bool) : Answer :=
  { responds := true, geom := { blockSize := blockSize, blockCount := blockCount, writeProtected := wp }, data := [],
    count := 0 }

/-- A fill of the buffer, or a drain that takes `count` bytes. -/
def moved (data : List Byte) (count : Word32) : Answer := { info 0 0 false with data := data, count := count }

/-- A call that is never answered. -/
def silent : Answer := { info 0 0 false with responds := false }

/-- `(READY, cfgS, SENSE_LBA_OUT_OF_RANGE, 16)` with scripted answers. -/
def ready (answers : List Answer) : State :=
  { State.reset with run := .ready, cfg := some 7, mem := [(7, cfgS)], sense := senseLbaOutOfRange dflt, residue := 16,
                     answers := answers }

/-- A target never initialised. -/
def uninit : State := { State.reset with phase := .uninit }

/-- A target inside an operation whose transmit is never answered. -/
def stuck : State := { ready [] with phase := .stuck .txResponse }

/-- A machine of the other sense policy. -/
def skipping (answers : List Answer) : State :=
  { ready answers with params := { dflt with policy := .skipOnRequestSense, order := .lbaThenSize } }

def next? : Host.Outcome State Fault Refusal → Option State
  | .next s => some s
  | .fault _ => none
  | .refused _ => none

def fault? : Host.Outcome State Fault Refusal → Option Fault
  | .next _ => none
  | .fault f => some f
  | .refused _ => none

/-- What a step leaves of the sense record, the residue and the returned value. -/
def ended (r : Host.Outcome State Fault Refusal) : Option (Vector Byte 18 × Word32 × Returned) :=
  (next? r).map fun s => (s.sense, s.residue, s.ret)

/-- The trace a step leaves. -/
def traced (r : Host.Outcome State Fault Refusal) : Option (List Event) := (next? r).map State.trace

theorem ready_bound (answers : List Answer) : (ready answers).Bound 7 cfgS := ⟨rfl, rfl⟩
theorem skipping_bound (answers : List Answer) : (skipping answers).Bound 7 cfgS := ⟨rfl, rfl⟩

/-! ## One step of each operation, from the spec's vectors -/

/-- V7. -/
theorem test_tur : ended (exec .tur (ready [])) = some ((senseOk dflt), 16, .status .success) := by decide
/-- V7. -/
theorem test_prevallow : ended (exec .prevallow (ready [])) = some ((senseOk dflt), 16, .status .success) := by decide
/-- V7. -/
theorem test_unknown : ended (exec (.unknown 0x35) (ready [])) = some ((senseInvalidCommand dflt), 16, .status .failed) := by
  decide
/-- V8: a short transfer of 20 of the 36 bytes. -/
theorem test_inquiry_short : ended (exec (.inquiry 0 0) (ready [moved [] 20])) = some ((senseOk dflt), 16, .status .failed) ∧
    traced (exec (.inquiry 0xFE 0) (ready [moved [] 36])) = some [.tx 2 inqA 36 36] := by decide
/-- `INQUIRY_LEN` bytes go out, whatever their number (rule R9); a template that has fewer stops the command. -/
theorem test_inquiry_length : traced (exec (.inquiry 0x7F 0) { ready [moved [] 2] with params := other }) =
      some [.tx 2 [0xA0, 0xA1] 2 2] ∧
    fault? (exec (.inquiry 0 0) { ready [] with params := { dflt with inquiryLen := 37 } }) = some .shortTemplate := by
  decide
/-- V8: EVPD. -/
theorem test_inquiry_evpd : ended (exec (.inquiry 0x01 0) (ready [])) =
    some ((senseInvalidField dflt), 16, .status .failed) := by decide
/-- V9: the default policy sends the no-error record; the other sends the record as it was. -/
theorem test_reqsense : traced (exec (.reqsense 0 0 0 18) (ready [moved [] 18])) = some [.tx 2 (senseOk dflt).toList 18 18] ∧
    traced (exec (.reqsense 0 0 0 18) (skipping [moved [] 18])) = some [.tx 2 (senseLbaOutOfRange dflt).toList 18 18] := by
  decide
/-- V9: an allocation length of 17. -/
theorem test_reqsense_length : ended (exec (.reqsense 0 0 0 17) (skipping [])) =
    some ((senseInvalidField dflt), 16, .status .failed) := by decide
/-- V10, both orders. -/
theorem test_readcap10 : traced (exec .readcap10 (ready [info 4 8 false, moved [] 8])) =
      some [.getInfo 1 ⟨4, 8, false⟩, .tx 2 [0, 0, 0, 4, 0, 0, 0, 7] 8 8] ∧
    traced (exec .readcap10 (skipping [info 512 1000 false, moved [] 8])) =
      some [.getInfo 1 ⟨512, 1000, false⟩, .tx 2 [0, 0, 3, 0xE7, 0, 0, 2, 0] 8 8] := by decide
/-- V11: a write-protected device; three of the four bytes go out. -/
theorem test_modesense6 : traced (exec .modesense6 (ready [info 512 1000 true, moved [] 4])) =
      some [.getInfo 1 ⟨512, 1000, true⟩, .tx 2 [3, 0, 0x80, 0] 4 4] ∧
    ended (exec .modesense6 (ready [info 512 1000 false, moved [] 3])) = some ((senseOk dflt), 1, .status .failed) := by decide
/-- V12: two blocks, both transmits short, still SUCCESS. -/
theorem test_read10 : traced (exec (.read10 1 2)
      (ready [info 4 8 false, moved [0x10, 0x11, 0x12, 0x13] 0, moved [] 2, moved [0x20, 0x21, 0x22, 0x23] 0, moved [] 2])) =
    some [.getInfo 1 ⟨4, 8, false⟩, .devRead 1 1 [0x10, 0x11, 0x12, 0x13], .tx 2 [0x10, 0x11, 0x12, 0x13] 4 2,
      .devRead 1 2 [0x20, 0x21, 0x22, 0x23], .tx 2 [0x20, 0x21, 0x22, 0x23] 4 2] := by decide
/-- V14: the exact sum does not wrap. -/
theorem test_read10_range : ended (exec (.read10 4294967295 1) (ready [info 4 1000 false])) =
    some ((senseLbaOutOfRange dflt), 16, .status .failed) := by decide
/-- V13: a short receive over a stale buffer; the whole buffer is written to a write-protected device. -/
theorem test_write10 : traced (exec (.write10 0 1) (ready [info 4 8 true, moved [0xAA, 0xBB] 2, moved [] 0])) =
    some [.getInfo 1 ⟨4, 8, true⟩, .rx 2 4 [0xAA, 0xBB, 0x42, 0x43] 2, .devWrite 1 0 [0xAA, 0xBB, 0x42, 0x43]] := by
  decide
/-- V13. -/
theorem test_write10_range : ended (exec (.write10 7 2) (ready [info 4 8 false])) =
    some ((senseLbaOutOfRange dflt), 16, .status .failed) := by decide
/-- V6. -/
theorem test_init : (next? (exec .init (ready []))).map (fun s => (s.run, s.cfg, s.sense, s.residue)) =
    some (.stopped, none, Vector.replicate 18 0, 0) := by decide
/-- V6: the sense record and the residue survive the session boundary. -/
theorem test_start : (next? (exec (.start 9) (ready []))).map (fun s => (s.run, s.cfg, s.sense, s.residue)) =
    some (.ready, some 9, (senseLbaOutOfRange dflt), 16) := by decide
/-- V6. -/
theorem test_stop : (next? (exec .stop (ready []))).map (fun s => (s.run, s.cfg, s.sense, s.residue)) =
    some (.stopped, none, (senseLbaOutOfRange dflt), 16) := by decide
/-- V6. -/
theorem test_residue : ended (exec .residue (ready [])) = some ((senseLbaOutOfRange dflt), 16, .residue 16) := by decide
/-- V16: on a stopped target the decode comes before the geometry query, the geometry query before anything else. -/
theorem test_execute_stopped : fault? (exec (.execute [0x28, 0, 0]) State.reset) = some .cdbShort ∧
    fault? (exec (.execute [0x28, 0, 0, 0, 0, 0, 0, 0, 0, 0]) State.reset) = some .noCfg := by decide
/-- V7: one byte suffices for TEST UNIT READY; an empty buffer does not. -/
theorem test_execute_one_byte : ended (exec (.execute [0x00]) (ready [])) = some ((senseOk dflt), 16, .status .success) ∧
    fault? (exec (.execute []) (ready [])) = some .cdbShort := by decide
/-- V6: a target never initialised. -/
theorem test_uninit : fault? (exec .tur uninit) = some .uninit ∧ fault? (exec (.execute []) uninit) = some .uninit := by
  decide
/-- A step fetches the word placed where the caller's next action stands. -/
theorem test_fetch : ended (step ((ready []).withFetchWord 48 0x00000000001E)) = some ((senseOk dflt), 16, .status .success) ∧
    ended (step (stuck.withFetchWord 8 0x35)) = some ((senseInvalidCommand dflt), 16, .status .failed) := by decide

/-! ## Witnesses: for every statement with hypotheses, states and operands that meet them, at the boundaries -/

theorem witness_InitResetsTheFourFields : (∀ call, uninit.phase ≠ .stuck call) ∧ ∀ call, (ready []).phase ≠ .stuck call :=
  ⟨fun _ h => (by cases h), fun _ h => (by cases h)⟩

theorem witness_StartBindsAndMakesReady : State.reset.Idle ∧ (ready []).Idle ∧ uninit.phase = .uninit := by decide

theorem witness_StopUnbindsAndStops : State.reset.Idle ∧ (ready []).Idle ∧ uninit.phase = .uninit := by decide

theorem witness_ResidueReturnsTheRegister : State.reset.Idle ∧ (ready []).Idle ∧ uninit.phase = .uninit := by decide

theorem witness_UninitialisedTargetAcceptsOnlyInit : uninit.phase = .uninit ∧ Instr.tur ≠ .init := by decide

theorem witness_StartingAnOperationWhileOneRunsFaults : stuck.phase = .stuck .txResponse ∧
    ({ ready [] with callers := [.call .stop false, .call .init true] } : State).callers =
      [.call .stop false, .call .init true] ∧
    (ready []).phase = .idle ∧ uninit.phase = .uninit ∧
    ({ stuck with callers := [.call .stop true] } : State).callers = [.call .stop true] := by decide

theorem witness_OnlyLifecycleOperationsMoveTheRunState : (∃ t, exec .init uninit = .next t) ∧
    (∃ t, exec (.start 7) State.reset = .next t) ∧ (∃ t, exec .stop (ready []) = .next t) ∧
    (∃ t, exec .tur (ready []) = .next t) ∧ (∃ t, exec .residue (ready []) = .next t) ∧ uninit.phase = .uninit ∧
    ((ready []).cfg = none ↔ (ready []).run = .stopped) :=
  ⟨⟨_, rfl⟩, ⟨_, rfl⟩, ⟨_, rfl⟩, ⟨_, rfl⟩, ⟨_, rfl⟩, rfl, by decide⟩

theorem witness_RunStateGatesNoExecute : isExecute .tur ∧ isExecute (.execute []) := ⟨.inl rfl, .inr ⟨_, rfl⟩⟩

theorem witness_SetSenseStoresAllEighteenBytes : (ready []).params = Config.defaultParams ∧ (0 : Nat) < 18 ∧ 7 < 18 ∧
    13 < 18 ∧ 17 < 18 := by decide

/-- Each clause: a stuck command, each sense error with its own record, the commands that have none, and a short transfer
whose shortfall of 16 is what the residue already was. -/
theorem witness_SenseAfterExecuteIsThisCommandsOwn : (ready []).params.policy = .alwaysAtEntry ∧
    runsCommand dflt (.execute [0x12, 1, 0]) (.inquiry 1 0) ∧ runsCommand dflt .tur .tur ∧
    ended (exec (.inquiry 0 0) (ready [silent])) = some ((senseOk dflt), 16, .nothing) ∧
    ended (exec (.unknown 0x35) (ready [])) = some ((senseInvalidCommand dflt), 16, .status .failed) ∧
    ended (exec (.execute [0x12, 1, 0]) (ready [])) = some ((senseInvalidField dflt), 16, .status .failed) ∧
    ended (exec (.reqsense 0 0 0 17) (ready [])) = some ((senseInvalidField dflt), 16, .status .failed) ∧
    ended (exec (.read10 7 2) (ready [info 4 8 false])) = some ((senseLbaOutOfRange dflt), 16, .status .failed) ∧
    ended (exec .tur (ready [])) = some ((senseOk dflt), 16, .status .success) ∧
    (next? (exec (.inquiry 0 0) (ready [moved [] 20]))).map (fun t => (t.sense, t.residue, t.trace, t.ret)) =
      some (senseOk dflt, 16, [.tx 2 inqA 36 20], .status .failed) :=
  ⟨rfl, .inr ⟨_, rfl, rfl⟩, .inl ⟨rfl, rfl⟩, by refine ⟨?_, ?_, ?_, ?_, ?_, ?_, ?_⟩ <;> decide⟩

theorem witness_NoDataCommandsAlwaysSucceed : State.reset.Idle ∧ (ready []).Idle := by decide

theorem witness_ExecuteOfNoDataOpcodesSucceeds : State.reset.Idle ∧ ParamsOk State.reset.params ∧ (ready []).Idle ∧
    ParamsOk ({ ready [] with params := other } : State).params := ⟨rfl, dflt_ok, rfl, other_ok⟩

theorem witness_UnknownOpcodesFailWithInvalidCommand : State.reset.Idle ∧
    (0x01 : Byte) ∉ acceptedOpcodes State.reset.params ∧ (0xFF : Byte) ∉ acceptedOpcodes State.reset.params := by decide

theorem witness_FirstByteSelectsOneOfNineCommands : decode dflt [0x1A] = .ok .modesense6 ∧
    decode dflt [0x29] = .ok (.unknown 0x29) := ⟨rfl, rfl⟩

theorem witness_ExecuteRunsTheDecodedCommand : decode dflt [0x12, 0x00, 0x00] = .ok (.inquiry 0 0) := rfl

/-- A record whose buffer is one block of 512 bytes. -/
def wide (answers : List Answer) : State :=
  { ready answers with mem := [(7, { cfgS with buf := List.replicate 512 0 })] }

/-- Full answers, for each command: 36 bytes to INQUIRY, 18 to REQUEST SENSE, 8, 4, and a whole block of 512; the buffer
of four bytes does not matter to a command that moves no block. -/
theorem witness_ExecuteCompletesWithinTheContract : (ready []).Idle ∧ ParamsOk (ready []).params ∧
    cdbLongEnough (ready []).params [0x28, 0, 0, 0, 0, 7, 0, 0, 1] = true ∧
    (ready [moved [] 36]).AnsweredInContract (.inquiry 0 0) ∧ (ready []).AnsweredInContract (.inquiry 1 0) ∧
    (ready [moved [] 18]).AnsweredInContract (.reqsense 0 0 0 18) ∧
    (ready [info 512 1000 false, moved [] 8]).AnsweredInContract .readcap10 ∧
    (ready [info 512 1000 false, moved [] 4]).AnsweredInContract .modesense6 ∧
    (wide [info 512 8 false, moved [1] 0, moved [] 512]).AnsweredInContract (.read10 7 1) ∧
    (wide [info 512 8 false, moved [1] 512, moved [] 0]).AnsweredInContract (.write10 7 1) ∧
    (ready [info 512 8 false]).AnsweredInContract (.read10 8 0) ∧
    (ready [info 512 8 false]).AnsweredInContract (.write10 8 1) ∧
    State.reset.AnsweredInContract .tur ∧ State.reset.AnsweredInContract (.unknown 0x35) := by
  refine ⟨rfl, dflt_ok, rfl, fun _ => ⟨7, cfgS, ready_bound _, by decide⟩, fun h => absurd h (by decide),
    fun _ => ⟨7, cfgS, ready_bound _, by decide⟩, ⟨7, cfgS, ready_bound _, by decide⟩,
    ⟨7, cfgS, ready_bound _, by decide⟩,
    ⟨7, _, ⟨512, 8, false⟩, ⟨rfl, rfl⟩, rfl, rfl, fun _ => ⟨fun _ => List.length_replicate, ?_⟩⟩,
    ⟨7, _, ⟨512, 8, false⟩, ⟨rfl, rfl⟩, rfl, rfl, fun _ => ⟨fun _ => List.length_replicate, ?_⟩⟩,
    ⟨7, cfgS, ⟨512, 8, false⟩, ready_bound _, rfl, rfl, fun _ => ⟨fun h => absurd h (by decide), fun k hk => by cases hk⟩⟩,
    ⟨7, cfgS, ⟨512, 8, false⟩, ready_bound _, rfl, rfl, fun h => absurd h (by decide)⟩, True.intro, True.intro⟩ <;>
  · intro k hk
    obtain rfl : k = 0 := Nat.lt_one_iff.1 hk
    decide

/-- Each disjunct, at the last length that is too short and the first that is not. -/
theorem witness_ShortBuffersFaultAndNoOthers : ((ready []).Idle ∧ ParamsOk (ready []).params) ∧
    fault? (exec (.execute [0x12, 0]) (ready [])) = some .cdbShort ∧
    fault? (exec (.execute [0x12, 0, 0]) (ready [moved [] 36])) = none ∧
    fault? (exec (.execute [0x03, 0, 0, 0]) (ready [])) = some .cdbShort ∧
    fault? (exec (.execute [0x03, 0, 0, 0, 18]) (ready [moved [] 18])) = none ∧
    fault? (exec (.execute [0x2A, 0, 0, 0, 0, 0, 0, 0]) (ready [])) = some .cdbShort ∧
    fault? (exec (.execute [0x2A, 0, 0, 0, 0, 0, 0, 0, 0]) (ready [info 4 8 false])) = none :=
  ⟨⟨rfl, dflt_ok⟩, by decide⟩

theorem witness_UnlistedBytesDoNotMatter :
    (∀ k ∈ operandPositions dflt 0x28, ([0x28, 0, 0, 0, 0, 1, 0, 0, 1, 0] : List Byte)[k]? =
      ([0x28, 0xFF, 0, 0, 0, 1, 0xFF, 0, 1] : List Byte)[k]?) ∧
    ∀ k ∈ operandPositions dflt 0x35, ([0x35] : List Byte)[k]? = ([0x35, 1, 2] : List Byte)[k]? := by decide

theorem witness_CommandsOnAnUnboundTarget : State.reset.Idle ∧ State.reset.cfg = none := by decide

theorem witness_TransmitDataRecordsTheShortfall : (ready []).Bound 7 cfgS ∧
    (∀ n ∈ ([36, 35, 0, 37] : List Word32), ((ready [moved [] n]).answer cfgS.tr 36).responds = true ∧
      ((ready [moved [] n]).answer cfgS.tr 36).count = n) ∧ State.reset.cfg = none :=
  ⟨ready_bound _, (by
    intro n hn
    simp only [List.mem_cons, List.not_mem_nil, or_false] at hn
    rcases hn with rfl | rfl | rfl | rfl <;> decide), rfl⟩

theorem witness_InquirySendsTheTemplateOrFails : (ready []).Idle ∧ (0xFE : Byte) &&& (ready []).params.inqEvpdMask = 0 ∧
    (0x01 : Byte) &&& (ready []).params.inqEvpdMask ≠ 0 ∧ (0x80 : Byte) ≠ 0 ∧
    ((ready []).params.inquiryLen = 36 ∧ (36 : Word32).toNat ≤ cfgS.inq.length) ∧ (ready []).Bound 7 cfgS ∧
    (∀ n ∈ ([36, 20, 0] : List Word32), ((ready [moved [] n]).answer cfgS.tr 36).responds = true ∧
      ((ready [moved [] n]).answer cfgS.tr 36).count ≤ 36) :=
  ⟨rfl, by decide, by decide, by decide, by decide, ready_bound _, by
    intro n hn
    simp only [List.mem_cons, List.not_mem_nil, or_false] at hn
    rcases hn with rfl | rfl | rfl <;> decide⟩

theorem witness_RequestSenseSendsTheRecordOrFails : (ready []).Idle ∧ (ready []).Bound 7 cfgS ∧
    (∀ n ∈ ([18, 17, 0] : List Word32), ((ready [moved [] n]).answer cfgS.tr 18).responds = true ∧
      ((ready [moved [] n]).answer cfgS.tr 18).count ≤ 18) ∧
    (ready []).params.policy = .alwaysAtEntry ∧ (skipping []).params.policy = .skipOnRequestSense ∧
    (17 : Byte) ≠ 18 ∧ (0x80 : Byte) ≠ 0 :=
  ⟨rfl, ready_bound _, (by
    intro n hn
    simp only [List.mem_cons, List.not_mem_nil, or_false] at hn
    rcases hn with rfl | rfl | rfl <;> decide), rfl, rfl, by decide, by decide⟩

theorem witness_ReadCapacitySendsSizeAndLastBlock : (ready []).Idle ∧ (ready []).Bound 7 cfgS ∧
    (∀ n ∈ ([8, 4, 0] : List Word32),
      ((ready [info 512 0 false, moved [] n]).answerAfter 0 cfgS.dev 0).responds = true ∧
      ((ready [info 512 0 false, moved [] n]).answerAfter 0 cfgS.dev 0).geom = ⟨512, 0, false⟩ ∧
      ((ready [info 512 0 false, moved [] n]).answerAfter 1 cfgS.tr 8).responds = true ∧
      ((ready [info 512 0 false, moved [] n]).answerAfter 1 cfgS.tr 8).count = n ∧ n ≤ 8) ∧
    (ready []).params.order = .sizeThenLba ∧ (skipping []).params.order = .lbaThenSize :=
  ⟨rfl, ready_bound _, (by
    intro n hn
    simp only [List.mem_cons, List.not_mem_nil, or_false] at hn
    rcases hn with rfl | rfl | rfl <;> decide), rfl, rfl⟩

theorem witness_ModeSenseSendsTheWriteProtectBit : (ready []).Idle ∧ (ready []).Bound 7 cfgS ∧
    ∀ n ∈ ([4, 3, 0] : List Word32),
      ((ready [info 512 1000 true, moved [] n]).answerAfter 0 cfgS.dev 0).responds = true ∧
      ((ready [info 512 1000 true, moved [] n]).answerAfter 0 cfgS.dev 0).geom = ⟨512, 1000, true⟩ ∧
      ((ready [info 512 1000 true, moved [] n]).answerAfter 1 cfgS.tr 4).responds = true ∧
      ((ready [info 512 1000 true, moved [] n]).answerAfter 1 cfgS.tr 4).count = n ∧ n ≤ 4 :=
  ⟨rfl, ready_bound _, by
    intro n hn
    simp only [List.mem_cons, List.not_mem_nil, or_false] at hn
    rcases hn with rfl | rfl | rfl <;> decide⟩

/-- Each of the four responses, one byte over. -/
theorem witness_OverlongTransmitAnswersFault : (ready []).Idle ∧ (ready []).Bound 7 cfgS ∧
    (ready []).params.inquiryLen = 36 ∧ (36 : Word32).toNat ≤ cfgS.inq.length ∧
    (0xFE : Byte) &&& (ready []).params.inqEvpdMask = 0 ∧
    36 < ((ready [moved [] 37]).answer cfgS.tr 36).count ∧ ((ready [moved [] 37]).answer cfgS.tr 36).responds = true ∧
    18 < ((ready [moved [] 19]).answer cfgS.tr 18).count ∧ ((ready [moved [] 19]).answer cfgS.tr 18).responds = true ∧
    ((ready [info 4 8 false, moved [] 9]).answerAfter 0 cfgS.dev 0).geom = ⟨4, 8, false⟩ ∧
    8 < ((ready [info 4 8 false, moved [] 9]).answerAfter 1 cfgS.tr 8).count ∧
    ((ready [info 4 8 false, moved [] 9]).answerAfter 1 cfgS.tr 8).responds = true ∧
    4 < ((ready [info 4 8 false, moved [] 5]).answerAfter 1 cfgS.tr 4).count ∧
    ((ready [info 4 8 false, moved [] 5]).answerAfter 1 cfgS.tr 4).responds = true :=
  ⟨rfl, ready_bound _, by decide⟩

/-- The device does not answer, on a target whose latches hold something. -/
theorem witness_GeometryQueriesCanHang : (ready [silent]).Idle ∧ (ready [silent]).Bound 7 cfgS ∧
    ((ready [silent]).answer cfgS.dev 0).responds = false ∧
    ((next? (exec (.write10 9 65535) (ready [silent]))).map fun t => (t.phase, t.latch.lba, t.latch.cnt, t.trace)) =
      some (.stuck .devInfo, 9, 65535, []) := ⟨rfl, ready_bound _, by decide⟩

/-- The transport does not answer, under either sense policy and after either geometry query. -/
theorem witness_FixedResponsesCanHangAtTheirTransmit : (ready [silent]).Idle ∧ (ready [silent]).Bound 7 cfgS ∧
    (skipping [silent]).Idle ∧ (skipping [silent]).Bound 7 cfgS ∧ (ready [info 4 8 false, silent]).Idle ∧
    (ready [info 4 8 false, silent]).Bound 7 cfgS ∧ (0xFE : Byte) &&& (ready [silent]).params.inqEvpdMask = 0 ∧
    (ready [silent]).params.inquiryLen.toNat ≤ cfgS.inq.length ∧
    ((ready [silent]).answer cfgS.tr (ready [silent]).params.inquiryLen).responds = false ∧
    ((ready [silent]).answer cfgS.tr 18).responds = false ∧ ((skipping [silent]).answer cfgS.tr 18).responds = false ∧
    (ready [silent]).params.policy = .alwaysAtEntry ∧ (skipping [silent]).params.policy = .skipOnRequestSense ∧
    ((ready [info 4 8 false, silent]).answerAfter 0 cfgS.dev 0).responds = true ∧
    ((ready [info 4 8 false, silent]).answerAfter 0 cfgS.dev 0).geom = ⟨4, 8, false⟩ ∧
    ((ready [info 4 8 false, silent]).answerAfter 1 cfgS.tr 8).responds = false ∧
    ((ready [info 4 8 false, silent]).answerAfter 1 cfgS.tr 4).responds = false :=
  ⟨rfl, ready_bound _, rfl, skipping_bound _, rfl, ready_bound _, by decide⟩

/-- A reference to nothing, and a template one byte short. -/
theorem witness_UnsuitableRecordsStopByName : ({ ready [] with cfg := some 8 } : State).Idle ∧
    ({ ready [] with cfg := some 8 } : State).cfg = some 8 ∧ ({ ready [] with cfg := some 8 } : State).mem.read 8 = none ∧
    ({ ready [] with params := { dflt with inquiryLen := 37 } } : State).Bound 7 cfgS ∧
    ({ ready [] with params := { dflt with inquiryLen := 37 } } : State).Idle ∧
    cfgS.inq.length < ({ dflt with inquiryLen := 37 } : Config.Params).inquiryLen.toNat ∧
    (0xFE : Byte) &&& dflt.inqEvpdMask = 0 := ⟨rfl, rfl, rfl, ⟨rfl, rfl⟩, rfl, by decide⟩

theorem witness_ResidueMovesOnlyOnShortResponses :
    (next? (exec .init (ready []))).map State.residue = some 0 ∧ (ready []).residue = 16 ∧
    ended (exec (.inquiry 0 0) (ready [moved [] 35])) = some ((senseOk dflt), 1, .status .failed) := by decide

/-- V14: 998 + 3 of 1000, and the sums that a 32-bit addition would wrap. -/
theorem witness_OutOfRangeRequestsFailBeforeAnyData : (ready [info 512 1000 false]).Idle ∧
    (ready [info 512 1000 false]).Bound 7 cfgS ∧
    ((ready [info 512 1000 false]).answerAfter 0 cfgS.dev 0).responds = true ∧
    ((ready [info 512 1000 false]).answerAfter 0 cfgS.dev 0).geom = ⟨512, 1000, false⟩ ∧
    (1000 : Word32).toNat < (998 : Word32).toNat + (3 : Word16).toNat ∧
    (1000 : Word32).toNat < (4294967295 : Word32).toNat + (1 : Word16).toNat :=
  ⟨rfl, ready_bound _, by decide⟩

/-- The last three blocks of a device of eight: every call of the loop is answered. -/
def sixMoves (count : Word32) : List Answer :=
  [info 4 8 false, moved [1, 2, 3, 4] count, moved [5, 6, 7, 8] count, moved [9] count, moved [] count, moved [] count,
   moved [] count]

theorem witness_ReadMovesEveryBlockFromDeviceToTransport : (ready (sixMoves 4)).Idle ∧
    (ready (sixMoves 4)).Bound 7 cfgS ∧ ((ready (sixMoves 4)).answerAfter 0 cfgS.dev 0).responds = true ∧
    ((ready (sixMoves 4)).answerAfter 0 cfgS.dev 0).geom = ⟨4, 8, false⟩ ∧
    (5 : Word32).toNat + (3 : Word16).toNat ≤ (8 : Word32).toNat ∧ cfgS.buf.length = (4 : Word32).toNat ∧
    ∀ k, k < (3 : Word16).toNat → ((ready (sixMoves 4)).answerAfter (1 + 2 * k) cfgS.dev 0).responds = true ∧
      ((ready (sixMoves 4)).answerAfter (2 + 2 * k) cfgS.tr 4).responds = true ∧
      ((ready (sixMoves 4)).answerAfter (2 + 2 * k) cfgS.tr 4).count ≤ 4 :=
  ⟨rfl, ready_bound _, by decide⟩

theorem witness_WriteMovesEveryBlockFromTransportToDevice : (ready (sixMoves 2)).Idle ∧
    (ready (sixMoves 2)).Bound 7 cfgS ∧ ((ready (sixMoves 2)).answerAfter 0 cfgS.dev 0).responds = true ∧
    ((ready (sixMoves 2)).answerAfter 0 cfgS.dev 0).geom = ⟨4, 8, false⟩ ∧
    (5 : Word32).toNat + (3 : Word16).toNat ≤ (8 : Word32).toNat ∧ cfgS.buf.length = (4 : Word32).toNat ∧
    ∀ k, k < (3 : Word16).toNat → ((ready (sixMoves 2)).answerAfter (1 + 2 * k) cfgS.tr 4).responds = true ∧
      ((ready (sixMoves 2)).answerAfter (2 + 2 * k) cfgS.dev 0).responds = true :=
  ⟨rfl, ready_bound _, by decide⟩

/-- V14: one past the last block with a count of zero, and two past it. -/
theorem witness_ZeroCountMovesNothing : (ready [info 512 1000 false]).Idle ∧
    (ready [info 512 1000 false]).Bound 7 cfgS ∧
    ((ready [info 512 1000 false]).answerAfter 0 cfgS.dev 0).responds = true ∧
    ((ready [info 512 1000 false]).answerAfter 0 cfgS.dev 0).geom = ⟨512, 1000, false⟩ ∧
    (1000 : Word32) ≤ 1000 ∧ (1000 : Word32) < 1001 :=
  ⟨rfl, ready_bound _, by decide⟩

/-- V15: a buffer of four bytes for blocks of 512. -/
theorem witness_WrongBufferSizeFaults : (ready [info 512 1000 false]).Idle ∧
    (ready [info 512 1000 false]).Bound 7 cfgS ∧
    ((ready [info 512 1000 false]).answerAfter 0 cfgS.dev 0).responds = true ∧
    ((ready [info 512 1000 false]).answerAfter 0 cfgS.dev 0).geom = ⟨512, 1000, false⟩ ∧
    (0 : Word32).toNat + (1 : Word16).toNat ≤ (1000 : Word32).toNat ∧ 1 ≤ (1 : Word16).toNat ∧
    cfgS.buf.length ≠ (512 : Word32).toNat :=
  ⟨rfl, ready_bound _, by decide⟩

/-- Either side of the block count: 5 + 3 of 8, and 6 + 3. -/
theorem witness_DataCommandsFailOnlyOnRange :
    (next? (exec (.read10 5 3) (ready (sixMoves 4)))).map (fun t => (t.phase, t.ret)) =
      some (.idle, .status .success) ∧
    (next? (exec (.write10 6 3) (ready (sixMoves 4)))).map (fun t => (t.phase, t.ret, t.trace)) =
      some (.idle, .status .failed, [.getInfo 1 ⟨4, 8, false⟩]) := by decide

/-- The last block of a device whose block count is the largest. -/
theorem witness_DataCommandsStayInTheRequestedRange :
    traced (exec (.write10 4294967294 1) (ready [info 4 4294967295 false, moved [1, 2, 3, 4] 4, moved [] 0])) =
      some [.getInfo 1 ⟨4, 4294967295, false⟩, .rx 2 4 [1, 2, 3, 4] 4, .devWrite 1 4294967294 [1, 2, 3, 4]] ∧
    traced (exec (.read10 7 1) (ready [info 4 8 false, moved [1, 2, 3, 4] 0, silent])) =
      some [.getInfo 1 ⟨4, 8, false⟩, .devRead 1 7 [1, 2, 3, 4]] := by decide

/-- The second of two blocks: its first call is not answered, or its second. -/
def hangs (first : Bool) : List Answer :=
  [info 4 8 false, moved [1, 2, 3, 4] 4, moved [5, 6, 7, 8] 4] ++ if first then [silent] else [moved [9] 4, silent]

theorem witness_ReadCanHangAtEitherCallOfABlock : (∀ first, (ready (hangs first)).Idle) ∧
    (∀ first, (ready (hangs first)).Bound 7 cfgS) ∧ (6 : Word32).toNat + (2 : Word16).toNat ≤ (8 : Word32).toNat ∧
    cfgS.buf.length = (4 : Word32).toNat ∧ 1 < (2 : Word16).toNat ∧
    (∀ first, ((ready (hangs first)).answerAfter 0 cfgS.dev 0).responds = true ∧
      ((ready (hangs first)).answerAfter 0 cfgS.dev 0).geom = ⟨4, 8, false⟩ ∧
      ∀ j, j < 1 → ((ready (hangs first)).answerAfter (1 + 2 * j) cfgS.dev 0).responds = true ∧
        ((ready (hangs first)).answerAfter (2 + 2 * j) cfgS.tr 4).responds = true ∧
        ((ready (hangs first)).answerAfter (2 + 2 * j) cfgS.tr 4).count ≤ 4) ∧
    ((ready (hangs true)).answerAfter 3 cfgS.dev 0).responds = false ∧
    ((ready (hangs false)).answerAfter 3 cfgS.dev 0).responds = true ∧
    ((ready (hangs false)).answerAfter 4 cfgS.tr 4).responds = false :=
  ⟨by decide, fun _ => ready_bound _, by decide⟩

theorem witness_WriteCanHangAtEitherCallOfABlock : (∀ first, (ready (hangs first)).Idle) ∧
    (∀ first, (ready (hangs first)).Bound 7 cfgS) ∧ (6 : Word32).toNat + (2 : Word16).toNat ≤ (8 : Word32).toNat ∧
    cfgS.buf.length = (4 : Word32).toNat ∧ 1 < (2 : Word16).toNat ∧
    (∀ first, ((ready (hangs first)).answerAfter 0 cfgS.dev 0).responds = true ∧
      ((ready (hangs first)).answerAfter 0 cfgS.dev 0).geom = ⟨4, 8, false⟩ ∧
      ∀ j, j < 1 → ((ready (hangs first)).answerAfter (1 + 2 * j) cfgS.tr 4).responds = true ∧
        ((ready (hangs first)).answerAfter (2 + 2 * j) cfgS.dev 0).responds = true) ∧
    ((ready (hangs true)).answerAfter 3 cfgS.tr 4).responds = false ∧
    ((ready (hangs false)).answerAfter 3 cfgS.tr 4).responds = true ∧
    ((ready (hangs false)).answerAfter 4 cfgS.dev 0).responds = false :=
  ⟨by decide, fun _ => ready_bound _, by decide⟩

/-- V12: a transmit of a block answered with one byte too many, in the last block of the device. -/
theorem witness_ReadFaultsOnAnOverlongBlockTransmit : (ready [info 4 8 false, moved [1] 0, moved [] 5]).Idle ∧
    (ready [info 4 8 false, moved [1] 0, moved [] 5]).Bound 7 cfgS ∧
    ((ready [info 4 8 false, moved [1] 0, moved [] 5]).answerAfter 0 cfgS.dev 0).responds = true ∧
    ((ready [info 4 8 false, moved [1] 0, moved [] 5]).answerAfter 0 cfgS.dev 0).geom = ⟨4, 8, false⟩ ∧
    (7 : Word32).toNat + (1 : Word16).toNat ≤ (8 : Word32).toNat ∧ cfgS.buf.length = (4 : Word32).toNat ∧
    0 < (1 : Word16).toNat ∧ ((ready [info 4 8 false, moved [1] 0, moved [] 5]).answerAfter 1 cfgS.dev 0).responds = true ∧
    ((ready [info 4 8 false, moved [1] 0, moved [] 5]).answerAfter 2 cfgS.tr 4).responds = true ∧
    4 < ((ready [info 4 8 false, moved [1] 0, moved [] 5]).answerAfter 2 cfgS.tr 4).count :=
  ⟨rfl, ready_bound _, by decide⟩

/-- A device whose block k holds 10k, 10k + 1, 10k + 2, 10k + 3 in hexadecimal (the spec's `devS`). -/
def devS : DeviceContent := fun k => (List.range 4).map fun j => BitVec.ofNat 8 (16 * k + j)

/-- The events of reading blocks 1 and 2 of it. -/
def readEvs : List Event :=
  [.getInfo 1 ⟨4, 8, false⟩, .devRead 1 1 (devS 1), .tx 2 (devS 1) 4 4, .devRead 1 2 (devS 2), .tx 2 (devS 2) 4 4]

/-- What a step returns, and the trace it leaves. -/
def outcome (r : Host.Outcome State Fault Refusal) : Option (Returned × List Event) :=
  (next? r).map fun s => (s.ret, s.trace)

theorem witness_ReadTransmitsTheDeviceContents :
    outcome (exec (.read10 1 2)
        (ready [info 4 8 false, moved (devS 1) 0, moved [] 4, moved (devS 2) 0, moved [] 4])) =
      some (.status .success, readEvs) ∧
    readsReturnContent devS readEvs ∧ fullTransmits readEvs :=
  ⟨by decide, ⟨rfl, rfl, True.intro⟩, by
    intro tr bytes len sent h
    simp only [readEvs, List.mem_cons, reduceCtorEq, Event.tx.injEq, List.not_mem_nil, false_or, or_false] at h
    rcases h with ⟨_, _, rfl, rfl⟩ | ⟨_, _, rfl, rfl⟩ <;> rfl⟩

/-- P3: the initiator sends DE AD BE EF 01 02 03 04 for blocks 2 and 3. -/
def writeEvs : List Event :=
  [.getInfo 1 ⟨4, 8, false⟩, .rx 2 4 [0xDE, 0xAD, 0xBE, 0xEF] 4, .devWrite 1 2 [0xDE, 0xAD, 0xBE, 0xEF],
   .rx 2 4 [1, 2, 3, 4] 4, .devWrite 1 3 [1, 2, 3, 4]]

theorem witness_WriteStoresTheReceivedBytes :
    outcome (exec (.write10 2 2)
        (ready [info 4 8 false, moved [0xDE, 0xAD, 0xBE, 0xEF] 4, moved [] 0, moved [1, 2, 3, 4] 4, moved [] 0])) =
      some (.status .success, writeEvs) ∧
    receivesInOrder [0xDE, 0xAD, 0xBE, 0xEF, 1, 2, 3, 4] writeEvs := ⟨by decide, rfl, rfl, True.intro⟩

/-- One block written, and its reading back. -/
def storeEvs : List Event :=
  [.getInfo 1 ⟨4, 8, false⟩, .rx 2 4 [0xDE, 0xAD, 0xBE, 0xEF] 4, .devWrite 1 7 [0xDE, 0xAD, 0xBE, 0xEF]]

def loadEvs : List Event :=
  [.getInfo 1 ⟨4, 8, false⟩, .devRead 1 7 [0xDE, 0xAD, 0xBE, 0xEF], .tx 2 [0xDE, 0xAD, 0xBE, 0xEF] 4 4]

def storeThenLoad : State :=
  ready [info 4 8 false, moved [0xDE, 0xAD, 0xBE, 0xEF] 4, moved [] 0, info 4 8 false,
    moved [0xDE, 0xAD, 0xBE, 0xEF] 0, moved [] 4]

theorem witness_ReadAfterWriteTransmitsTheReceivedBytes :
    outcome (exec (.write10 7 1) storeThenLoad) = some (.status .success, storeEvs) ∧
    ((next? (exec (.write10 7 1) storeThenLoad)).bind fun t => outcome (exec (.read10 7 1) t)) =
      some (.status .success, storeEvs ++ loadEvs) ∧
    receivesInOrder [0xDE, 0xAD, 0xBE, 0xEF] storeEvs ∧ readsReturnContent devS (storeEvs ++ loadEvs) ∧
    fullTransmits loadEvs :=
  ⟨by decide, by decide, ⟨rfl, True.intro⟩, ⟨rfl, True.intro⟩, by
    intro tr bytes len sent h
    simp only [loadEvs, List.mem_cons, reduceCtorEq, Event.tx.injEq, List.not_mem_nil, false_or, or_false] at h
    rcases h with ⟨_, _, rfl, rfl⟩; rfl⟩

/-- A data command that ends, one that is stuck, a fixed response, a no-data command, a bound and an unlisted record. -/
theorem witness_ExecuteChangesNothingElse : (∃ t, exec (.read10 5 3) (ready (sixMoves 4)) = .next t) ∧
    (∃ t, exec (.read10 6 2) (ready (hangs true)) = .next t) ∧ (∃ t, exec .readcap10 (ready (sixMoves 4)) = .next t) ∧
    (∃ t, exec .tur (ready []) = .next t) ∧ (ready []).mem.read 7 = some cfgS ∧ (ready []).mem.read 8 = none :=
  ⟨⟨_, rfl⟩, ⟨_, rfl⟩, ⟨_, rfl⟩, ⟨_, rfl⟩, rfl, rfl⟩

theorem witness_TheTraceOnlyGrows : (∃ t, exec (.read10 5 3) (ready (sixMoves 4)) = .next t) ∧
    ∃ t, exec .init (ready []) = .next t := ⟨⟨_, rfl⟩, ⟨_, rfl⟩⟩

/-- Each clause: a no-data command, an INQUIRY and a REQUEST SENSE either way, a READ CAPACITY(10), and a data command
that succeeds, one that fails. -/
theorem witness_PortCallCountsAreExact :
    (next? (exec .tur (ready []))).map State.phase = some .idle ∧
    (next? (exec (.inquiry 0 0) (ready [moved [] 36]))).map State.phase = some .idle ∧
    (next? (exec (.inquiry 1 0) (ready []))).map State.phase = some .idle ∧
    (next? (exec (.reqsense 0 0 0 18) (ready [moved [] 18]))).map State.phase = some .idle ∧
    (next? (exec (.reqsense 0 0 0 17) (ready []))).map State.phase = some .idle ∧
    (next? (exec .readcap10 (ready [info 4 8 false, moved [] 8]))).map State.phase = some .idle ∧
    (next? (exec (.read10 5 3) (ready (sixMoves 4)))).map State.phase = some .idle ∧
    (next? (exec (.write10 6 3) (ready (sixMoves 4)))).map State.phase = some .idle := by decide

theorem witness_ExecuteReturnsAndNothingIsFatal : isExecute (.inquiry 0 0) ∧
    (∀ a ∈ (ready [moved [] 20]).answers, a.responds = true) ∧
    ∃ t, exec (.inquiry 0 0) (ready [moved [] 20]) = .next t := ⟨.inl rfl, by decide, ⟨_, rfl⟩⟩

theorem witness_AStuckOperationNeverReturns : stuck.phase = .stuck .txResponse ∧ nextOverlaps stuck.callers = false ∧
    ∃ t, exec (.inquiry 0 0) (ready [silent]) = .next t ∧ t.phase = .stuck .txResponse :=
  ⟨rfl, rfl, _, rfl, rfl⟩

theorem witness_StepRunsTheCallersNextOperation :
    (∀ call, ({ uninit with callers := [.call .init false] } : State).phase ≠ .stuck call) ∧
    (∀ call, ({ ready [] with callers := [.call (.execute [0x00]) false, .call .stop false] } : State).phase ≠ .stuck call) ∧
    nextOverlaps [.call .stop false] = false ∧ decode dflt [0x00] = .ok .tur :=
  ⟨fun _ h => (by cases h), fun _ h => (by cases h), rfl, rfl⟩

theorem witness_PreparedRecordsAreSeenByTheNextCommand :
    (∀ call, ({ ready [] with callers := [.prepare 7 cfgS] } : State).phase ≠ .stuck call) ∧
    ({ ready [] with callers := [.prepare 7 cfgS] } : State).callers = [.prepare 7 cfgS] ∧ (ready []).cfg = some 7 ∧
    (8 : Nat) ≠ 7 := ⟨fun _ h => (by cases h), rfl, rfl, by decide⟩

theorem witness_TargetsAreIndependent : ∃ ts, stepTarget [ready [], State.reset] 1 = .next ts ∧ (0 : Nat) ≠ 1 ∧
    ([ready [], State.reset] : Targets)[1]? = some State.reset := ⟨_, rfl, by decide, rfl⟩

/-- The invariant of a bound, a stopped and a never initialised target, and a step from each. -/
theorem witness_EveryStepKeepsTheInvariant :
    State.Inv { ready [] with callers := [.call (.execute [0x35]) false] } ∧ State.reset.Inv ∧ uninit.Inv ∧
    (∃ t, step { ready [] with callers := [.call (.execute [0x35]) false] } = .next t) ∧
    ∃ t, step { uninit with callers := [.call .init false] } = .next t :=
  ⟨⟨by decide, fun _ => by decide, fun _ => by decide, dflt_ok⟩,
    ⟨by decide, fun _ => by decide, fun _ => by decide, dflt_ok⟩,
    ⟨by decide, fun h => absurd rfl h, fun h => absurd rfl h, dflt_ok⟩, ⟨_, rfl⟩, ⟨_, rfl⟩⟩

theorem witness_CodecRoundTrips : FieldsFit (dataRequestPositions dflt) 10 ∧
    FieldsFit (dataRequestPositions other) 10 ∧ decodeDataRequest dflt [0x28, 0xFF, 0x12, 0x34, 0x56, 0x78, 0xFF, 0x9A, 0xBC, 0xFF] = .ok (0x12345678, 0x9ABC) :=
  ⟨by decide, by decide, rfl⟩

theorem witness_DecodingUndoesEncoding : (ParamsOk dflt ∧ ParamsOk other) ∧ (Instr.read10 4294967295 65535).wellFormed dflt = true ∧
    (Instr.read10 0 0).isCommand = true ∧ (Instr.unknown 0x01).wellFormed dflt = true ∧ Instr.init.isCommand = false :=
  ⟨⟨dflt_ok, other_ok⟩, by decide⟩

end Sys2Proof.Tests
end

section
/-! The statements about a step of the caller's queue. -/

namespace Sys2Proof.Machine

/-- A target on which nothing runs takes the caller's next action (rules R5, R6), initialised or not. -/
theorem step_of_not_stuck {s : State} (hs : ∀ call, s.phase ≠ .stuck call) : step s = stepCaller s := by
  unfold step
  cases hp : s.phase with
  | stuck call => exact absurd hp (hs call)
  | uninit => rfl
  | idle => rfl

/-- A step whose next action is a call that nothing overlaps is that operation, the action taken off the queue. -/
theorem step_call {s : State} {op : HostOp} {ov : Bool} {rest : List CallerAction}
    (hs : ∀ call, s.phase ≠ .stuck call) (hc : s.callers = .call op ov :: rest) (ho : nextOverlaps rest = false) :
    step s = exec op.toInstr { s with callers := rest } := by
  rw [step_of_not_stuck hs]
  simp [stepCaller, hc, stepAction, ho]

/-- Settles O47: the step is `exec` of the call (`step_call`), and EXECUTE of a buffer that decodes is the decoded
command, on a target never initialised too (`exec_execute_of_decode`). -/
theorem stepRunsTheCallersNextOperation : Obligations.StepRunsTheCallersNextOperation := by
  intro s op ov rest hs hc ho
  have hstep := step_call hs hc ho
  refine ⟨hstep, ?_⟩
  rintro cdb i rfl hd
  obtain ⟨hexec, hcommand⟩ := exec_execute_of_decode { s with callers := rest } hd
  exact hstep.trans (hexec.trans hcommand)

end Sys2Proof.Machine
end

section
/-! What an operation and a step can do, said once: every next state of `exec` and of `step`, by name. -/

namespace Sys2Proof.Machine

/-- An EXECUTE that ends in a next state ran one command, its own or the one its buffer decodes to. -/
theorem exists_runsCommand {i : Instr} {s t : State} (hi : isExecute i) (h : exec i s = .next t) :
    ∃ j, runsCommand s.params i j ∧ j.isCommand = true ∧ exec j s = .next t := by
  obtain ⟨j, hj, hexec, hown, hdecoded⟩ := isExecute_next hi h
  refine ⟨j, ?_, hj, hexec⟩
  rcases hi with hc | ⟨cdb, rfl⟩
  · exact .inl ⟨hc, hown hc⟩
  · exact .inr ⟨cdb, rfl, hdecoded cdb rfl⟩

theorem isExecute_of_runsCommand {p : Config.Params} {i j : Instr} (h : runsCommand p i j) : isExecute i := by
  rcases h with ⟨hc, -⟩ | ⟨cdb, hi, -⟩
  · exact .inl hc
  · exact .inr ⟨cdb, hi⟩

/-- The next states of an operation started in `s`: what each lifecycle operation leaves, and the two ways an EXECUTE
of the command `j` ends, with a status or at a call that is never answered (rules R96, R130 to R133, R150). -/
inductive OperationEnds (s : State) : Instr → State → Prop where
  | init : OperationEnds s .init s.afterInit
  | start (ref : Nat) : s.Idle →
      OperationEnds s (.start ref) (State.returns { s with cfg := some ref, run := .ready } .nothing)
  | stop : s.Idle → OperationEnds s .stop (State.returns { s with cfg := none, run := .stopped } .nothing)
  | residue : s.Idle → OperationEnds s .residue (s.returns (.residue s.residue))
  | returned {i j : Instr} {rs : Bool} {st : Status} {u : State} : s.Idle → runsCommand s.params i j →
      Framed (s.enterExecute rs) u → u.Idle → Concluded (ownErrors s.params j) (s.enterExecute rs) st u →
      OperationEnds s i (u.returns (.status st))
  | hangs {i j : Instr} {rs : Bool} {call : PortCall} {t : State} : s.Idle → runsCommand s.params i j →
      Framed (s.enterExecute rs) t → t.phase = .stuck call → t.sense = entrySense s rs → t.residue = s.residue →
      OperationEnds s i t

theorem operationEnds_of_isExecute {i : Instr} {s t : State} (hi : isExecute i) (h : exec i s = .next t) :
    OperationEnds s i t := by
  obtain ⟨j, hruns, hj, hexec⟩ := exists_runsCommand hi h
  obtain ⟨hs, rs, ⟨st, u, hframe, hphase, hend, rfl⟩ | ⟨hframe, ⟨call, hcall⟩, hsense, hresidue⟩⟩ :=
    command_next hj hexec
  · exact .returned hs hruns hframe hphase hend
  · exact .hangs hs hruns hframe hcall hsense hresidue

theorem execInit_next {s t : State} (h : execInit s = .next t) : t = s.afterInit := by
  unfold execInit at h
  split at h <;> cases h <;> rfl

/-- Every operation that answers a next state ends in one of these ways. -/
theorem exec_next {i : Instr} {s t : State} (h : exec i s = .next t) : OperationEnds s i t := by
  by_cases hi : isExecute i
  · exact operationEnds_of_isExecute hi h
  cases i with
  | init => exact execInit_next h ▸ .init
  | start ref => obtain ⟨hs, ⟨⟩⟩ := onTarget_next (show execStart ref s = .next t from h); exact .start ref hs
  | stop => obtain ⟨hs, ⟨⟩⟩ := onTarget_next (show execStop s = .next t from h); exact .stop hs
  | residue => obtain ⟨hs, ⟨⟩⟩ := onTarget_next (show execResidue s = .next t from h); exact .residue hs
  | execute cdb => exact absurd (.inr ⟨cdb, rfl⟩) hi
  | _ => exact absurd (.inl rfl) hi

/-- The next states of a step: the block stays as it is, the caller prepares a record, or an operation runs (rules R5,
R267). -/
inductive StepEnds (s : State) : State → Prop where
  | waits : StepEnds s s
  | prepares {ref : Nat} {record : Configuration} {rest : List CallerAction} :
      s.callers = .prepare ref record :: rest →
      StepEnds s { s with mem := s.mem.write ref record, callers := rest }
  | runs {op : HostOp} {overlaps : Bool} {rest : List CallerAction} {t : State} :
      s.callers = .call op overlaps :: rest → nextOverlaps rest = false →
      exec op.toInstr { s with callers := rest } = .next t → StepEnds s t

theorem stepStuck_next {s t : State} (h : stepStuck s = .next t) : t = s := by
  unfold stepStuck at h
  split at h <;> cases h
  rfl

theorem stepCaller_next {s t : State} (h : stepCaller s = .next t) : StepEnds s t := by
  unfold stepCaller at h
  split at h
  next => cases h; exact .waits
  next action rest hc =>
    cases action with
    | prepare ref record => cases h; exact .prepares hc
    | call op overlaps =>
      unfold stepAction at h
      dsimp only at h
      split at h
      · cases h
      next ho => exact .runs hc (by simpa using ho) h

/-- Every step that answers a next state ends in one of these ways. -/
theorem step_next {s t : State} (h : step s = .next t) : StepEnds s t := by
  unfold step at h
  split at h
  · exact stepStuck_next h ▸ .waits
  · exact stepCaller_next h
  · exact stepCaller_next h

end Sys2Proof.Machine
end

section
/-! The invariant of the state: reset meets it and every step keeps it. -/

namespace Sys2Proof.Machine

theorem defaultParams_ok : ParamsOk Config.defaultParams := by
  constructor <;> decide

theorem senseReset_mem_reachableSense (p : Config.Params) : senseReset ∈ reachableSense p := by
  simp [reachableSense]

theorem senseOk_mem_reachableSense (p : Config.Params) : senseOk p ∈ reachableSense p := by
  simp [reachableSense]

/-- The errors of every command are among the five values of rule R145. -/
theorem ownErrors_subset_reachableSense (p : Config.Params) (i : Instr) : ownErrors p i ⊆ reachableSense p := by
  cases i <;> simp [ownErrors, reachableSense]

/-- Step 1 of EXECUTE makes the record OK or leaves it, under either policy (rule R151). -/
theorem entrySense_mem_reachableSense {s : State} (h : s.sense ∈ reachableSense s.params) (rs : Bool) :
    entrySense s rs ∈ reachableSense s.params := by
  unfold entrySense
  split
  · exact senseOk_mem_reachableSense _
  · exact h

/-- However a handler whose errors are reachable values ends, it leaves a reachable value. -/
theorem Concluded.sense_mem_reachableSense {errors : List (Vector Byte Config.senseLen)} {s t : State} {st : Status}
    (h : Concluded errors s st t) (he : errors ⊆ reachableSense s.params) (hs : s.sense ∈ reachableSense s.params) :
    t.sense ∈ reachableSense s.params := by
  cases h with
  | good hsense _ =>
    rcases hsense with hkept | hok
    · exact hkept ▸ hs
    · exact hok ▸ senseOk_mem_reachableSense _
  | short hkept _ => exact hkept ▸ hs
  | error hmem _ => exact he hmem

/-- The returned value is no part of the invariant. -/
theorem State.Inv.returns {s : State} (h : s.Inv) (r : Returned) : (s.returns r).Inv :=
  ⟨h.memory, h.sense, h.bound, h.params⟩

/-- The caller's queue is no part of the invariant. -/
theorem State.Inv.withCallers {s : State} (h : s.Inv) (rest : List CallerAction) :
    State.Inv { s with callers := rest } :=
  ⟨h.memory, h.sense, h.bound, h.params⟩

/-- A prepared record keeps the store in canonical form (rule R267). -/
theorem State.Inv.prepare {s : State} (h : s.Inv) (ref : Nat) (record : Configuration) (rest : List CallerAction) :
    State.Inv { s with mem := s.mem.write ref record, callers := rest } :=
  ⟨Memory.wf_write _ _ _ h.memory, h.sense, h.bound, h.params⟩

theorem State.Inv.afterInit {s : State} (h : s.Inv) : s.afterInit.Inv where
  memory := h.memory
  sense  := fun _ => senseReset_mem_reachableSense _
  bound  := by simp
  params := h.params

theorem State.Inv.start {s : State} (h : s.Inv) (hs : s.Idle) (ref : Nat) :
    State.Inv { s with cfg := some ref, run := .ready } where
  memory := h.memory
  sense  := fun _ => h.sense (by simp [hs])
  bound  := by simp
  params := h.params

theorem State.Inv.stop {s : State} (h : s.Inv) (hs : s.Idle) : State.Inv { s with cfg := none, run := .stopped } where
  memory := h.memory
  sense  := fun _ => h.sense (by simp [hs])
  bound  := by simp
  params := h.params

/-- What an EXECUTE leaves alone carries the invariant over, all but the sense record. -/
theorem State.Inv.of_framed {s t : State} {rs : Bool} (h : s.Inv) (hs : s.Idle) (hframe : Framed (s.enterExecute rs) t)
    (hsense : t.sense ∈ reachableSense s.params) : t.Inv where
  memory := hframe.mem.wf (by simpa using h.memory)
  sense  := fun _ => by simpa [hframe.params] using hsense
  bound  := fun _ => by simpa [hframe.cfg, hframe.run] using h.bound (by simp [hs])
  params := by simpa [hframe.params] using h.params

/-- Every operation keeps the invariant, in a stuck state too. -/
theorem exec_keeps_inv {i : Instr} {s t : State} (hinv : s.Inv) (h : exec i s = .next t) : t.Inv := by
  cases exec_next h with
  | init => exact hinv.afterInit
  | start ref hs => exact (hinv.start hs ref).returns _
  | stop hs => exact (hinv.stop hs).returns _
  | residue _ => exact hinv.returns _
  | @returned _ j rs _ u hs _ hframe _ hend =>
    have hentry := entrySense_mem_reachableSense (hinv.sense (by simp [hs])) rs
    have hsense : u.sense ∈ reachableSense s.params := by
      simpa using hend.sense_mem_reachableSense (by simpa using ownErrors_subset_reachableSense s.params j)
        (by simpa using hentry)
    exact (hinv.of_framed hs hframe hsense).returns _
  | @hangs _ _ rs _ _ hs _ hframe _ hkept _ =>
    exact hinv.of_framed hs hframe (hkept ▸ entrySense_mem_reachableSense (hinv.sense (by simp [hs])) rs)

/-- Settles O51: a step waits, prepares a record or runs an operation (`step_next`), and each of them keeps the
invariant. -/
theorem everyStepKeepsTheInvariant : Obligations.EveryStepKeepsTheInvariant := by
  intro s t hinv h
  cases step_next h with
  | waits => exact hinv
  | prepares _ => exact hinv.prepare _ _ _
  | runs _ _ hexec => exact exec_keeps_inv (hinv.withCallers _) hexec

/-- Settles O50: the store is empty, the sense record is the all-zero one, nothing is bound on the stopped target, and
the parameters are the defaults. -/
theorem resetSatisfiesTheInvariant : Obligations.ResetSatisfiesTheInvariant where
  memory := Memory.wf_nil
  sense  := fun _ => senseReset_mem_reachableSense _
  bound  := fun _ => iff_of_true rfl rfl
  params := defaultParams_ok

end Sys2Proof.Machine
end

section
/-! The residue register. -/

namespace Sys2Proof.Machine

/-- A short transmit recorded after step 1 of EXECUTE was recorded by the EXECUTE. -/
theorem ShortRecorded.of_enterExecute {s t : State} {rs : Bool} (h : ShortRecorded (s.enterExecute rs) t) :
    ShortRecorded s t := by
  simpa [ShortRecorded] using h

/-- Settles O28: of the ways an operation can end, only INIT and an EXECUTE that recorded a short transmit leave another
residue. -/
theorem residueMovesOnlyOnShortResponses : Obligations.ResidueMovesOnlyOnShortResponses := by
  intro i s t h hmoved
  cases exec_next h with
  | init => exact .inl ⟨rfl, rfl⟩
  | start _ _ => exact absurd rfl hmoved
  | stop _ => exact absurd rfl hmoved
  | residue _ => exact absurd rfl hmoved
  | returned _ hruns _ _ hend =>
    cases hend with
    | good _ hkept => exact absurd (by simpa using hkept) hmoved
    | error _ hkept => exact absurd (by simpa using hkept) hmoved
    | short _ hshort => exact .inr ⟨isExecute_of_runsCommand hruns, rfl, hshort.of_enterExecute⟩
  | hangs _ _ _ _ _ hkept => exact absurd hkept hmoved

end Sys2Proof.Machine
end

section
/-! Several targets, and the trace across one operation. -/

namespace Sys2Proof.Machine

/-- A step of the k-th target that answers a next list: there is no such target, or its own step's next state takes its
place (rule R246). -/
theorem stepTarget_next {ts ts' : Targets} {k : Nat} (h : stepTarget ts k = .next ts') :
    (ts[k]? = none ∧ ts' = ts) ∨ ∃ s s', ts[k]? = some s ∧ step s = .next s' ∧ ts' = ts.set k s' := by
  unfold stepTarget at h
  split at h
  next hk => cases h; exact .inl ⟨hk, rfl⟩
  next s hk =>
    split at h
    next s' hstep => cases h; exact .inr ⟨s, s', hk, hstep, rfl⟩
    · cases h
    · cases h

/-- Settles O49: the list changes at the k-th position alone, and there to the target's own next state
(`stepTarget_next`). -/
theorem targetsAreIndependent : Obligations.TargetsAreIndependent := by
  intro ts ts' k h
  rcases stepTarget_next h with ⟨hk, rfl⟩ | ⟨s, s', hk, hstep, rfl⟩
  · refine ⟨rfl, fun _ _ => rfl, fun s hs => ?_⟩
    rw [hk] at hs
    cases hs
  · refine ⟨List.length_set, fun j hj => List.getElem?_set_ne hj.symm, fun u hu => ?_⟩
    obtain rfl : s = u := Option.some.inj (hk.symm.trans hu)
    exact ⟨s', hstep, List.getElem?_set_self (List.getElem?_eq_some_iff.1 hk).1⟩

/-- What a handler leaves after step 1 of EXECUTE extends the trace before the EXECUTE (rule R64). -/
theorem Framed.trace_extends {s t : State} {rs : Bool} (h : Framed (s.enterExecute rs) t) : s.trace <+: t.trace := by
  obtain ⟨evs, hevs⟩ := h.trace
  exact ⟨evs, by rw [hevs, State.enterExecute_trace]⟩

/-- Settles O43: of the ways an operation can end, the lifecycle operations leave the trace as it is and an EXECUTE
appends to it. -/
theorem theTraceOnlyGrows : Obligations.TheTraceOnlyGrows := by
  intro i s t h
  cases exec_next h with
  | init => exact List.prefix_rfl
  | start _ _ => exact List.prefix_rfl
  | stop _ => exact List.prefix_rfl
  | residue _ => exact List.prefix_rfl
  | returned _ _ hframe _ _ => exact hframe.trace_extends
  | hangs _ _ hframe _ _ _ => exact hframe.trace_extends

end Sys2Proof.Machine
end

section
/-! What a handler takes from the collaborators' script, and which faults it can raise. -/

namespace Sys2Proof.Machine

/-- The faults a handler can raise (rule R243); the others are raised before any handler starts. -/
def Fault.OfHandler : Fault → Prop
  | .noCfg => True
  | .noRecord => True
  | .shortTemplate => True
  | .txOver _ => True
  | .bufSize _ => True
  | .uninit => False
  | .cdbShort => False
  | .reentry => False

/-- How a computation made of port calls from `s` on can end: finished, further on in the script; stuck, at a scripted
answer that is never given (rule R70); or with one of a handler's faults. -/
def Run.Accounted {α : Type} (s : State) : Run α → Prop
  | .done _ t => t.answers <:+ s.answers
  | .stuck _ => ∃ a ∈ s.answers, a.responds = false
  | .fault f => f.OfHandler

namespace Run.Accounted

variable {α β : Type} {s t : State}

/-- What is accounted for from further on in the script is so from here. -/
theorem of_suffix {r : Run α} (h : r.Accounted t) (hst : t.answers <:+ s.answers) : r.Accounted s := by
  cases r with
  | done a u => exact List.IsSuffix.trans h hst
  | stuck u =>
    obtain ⟨a, hmem, hsilent⟩ := h
    exact ⟨a, hst.subset hmem, hsilent⟩
  | fault f => exact h

theorem bind {r : Run α} {k : α → State → Run β} (hr : r.Accounted s) (hk : ∀ a t, (k a t).Accounted t) :
    (r.bind k).Accounted s := by
  cases r with
  | done a t => exact (hk a t).of_suffix hr
  | stuck t => exact hr
  | fault f => exact hr

theorem withRecord {k : Nat → Configuration → Run α} (hk : ∀ ref c, (k ref c).Accounted s) :
    (Machine.withRecord s k).Accounted s := by
  unfold Machine.withRecord
  split
  · exact True.intro
  · split
    · exact True.intro
    · exact hk _ _

end Run.Accounted

/-- An unanswered call is a scripted one: past the script every call is answered (rule R5). -/
theorem scripted_of_unanswered {s : State} {h : Handle} {limit : Word32} (hr : (s.answer h limit).responds = false) :
    ∃ a ∈ s.answers, a.responds = false := by
  cases hs : s.answers with
  | nil => rw [(s.answer_unscripted h limit hs).1] at hr; cases hr
  | cons a rest => exact ⟨a, List.mem_cons_self .., by rw [← s.answer_scripted h limit a rest hs]; exact hr⟩

theorem portCall_accounted {α : Type} {s : State} (h : Handle) (limit : Word32) (call : PortCall)
    {k : Answer → State → Run α} (hk : ∀ a, (k a s.consume).Accounted s.consume) :
    (portCall s h limit call k).Accounted s := by
  cases hr : (s.answer h limit).responds with
  | true => rw [portCall_answered _ _ hr]; exact (hk _).of_suffix (List.tail_suffix _)
  | false => rw [portCall_unanswered _ _ hr]; exact scripted_of_unanswered hr

theorem devInfo_accounted (s : State) : (devInfo s).Accounted s :=
  .withRecord fun _ _ => portCall_accounted _ _ _ fun _ => List.suffix_rfl

theorem devRead_accounted (lba : Word32) (s : State) : (devRead lba s).Accounted s :=
  .withRecord fun _ _ => portCall_accounted _ _ _ fun _ => List.suffix_rfl

theorem devWrite_accounted (lba : Word32) (s : State) : (devWrite lba s).Accounted s :=
  .withRecord fun _ _ => portCall_accounted _ _ _ fun _ => List.suffix_rfl

theorem trRx_accounted (len : Word32) (s : State) : (trRx len s).Accounted s :=
  .withRecord fun _ _ => portCall_accounted _ _ _ fun _ => List.suffix_rfl

theorem trTx_accounted (call : PortCall) (bytes : List Byte) (len : Word32) (s : State) :
    (trTx call bytes len s).Accounted s :=
  .withRecord fun _ _ => portCall_accounted _ _ _ fun _ => by
    split
    · exact List.suffix_rfl
    · exact True.intro

theorem transmitData_accounted (bytes : List Byte) (len : Word32) (s : State) :
    (transmitData bytes len s).Accounted s :=
  (trTx_accounted _ _ _ s).bind fun _ _ => by
    split <;> exact List.suffix_rfl

theorem moveBlock_accounted (s : State) : (moveBlock s).Accounted s := by
  unfold moveBlock
  split
  · exact (devRead_accounted _ s).bind fun _ t => .withRecord fun _ _ =>
      (trTx_accounted _ _ _ t).bind fun _ _ => List.suffix_rfl
  · exact (trRx_accounted _ s).bind fun _ t => devWrite_accounted _ t

theorem blockLoop_accounted (n : Nat) : ∀ s : State, (blockLoop n s).Accounted s := by
  induction n with
  | zero => exact fun _ => List.suffix_rfl
  | succ n ih => exact fun s => (moveBlock_accounted s).bind fun _ t => (ih (t.setIdx _)).of_suffix List.suffix_rfl

theorem transferBlocks_accounted (s : State) : (transferBlocks s).Accounted s :=
  .withRecord fun _ _ => by
    split
    · exact True.intro
    · exact (blockLoop_accounted _ (s.setIdx 0)).bind fun _ _ => List.suffix_rfl

theorem dataTransfer_accounted (dir : Direction) (lba : Word32) (cnt : Word16) (s : State) :
    (dataTransfer dir lba cnt s).Accounted s :=
  (devInfo_accounted (s.latchRequest lba cnt dir)).bind fun g t => by
    split
    · exact (transferBlocks_accounted (t.latchGeometry g)).of_suffix List.suffix_rfl
    · exact List.suffix_rfl

theorem inquiryHandler_accounted (flags page : Byte) (s : State) : (inquiryHandler flags page s).Accounted s := by
  unfold inquiryHandler
  split
  · refine .withRecord fun _ _ => ?_
    split
    · exact transmitData_accounted _ _ s
    · exact True.intro
  · exact List.suffix_rfl

theorem requestSenseHandler_accounted (r1 r2 r3 alloc : Byte) (s : State) :
    (requestSenseHandler r1 r2 r3 alloc s).Accounted s := by
  unfold requestSenseHandler
  split
  · exact transmitData_accounted _ _ s
  · exact List.suffix_rfl

theorem readCapacityHandler_accounted (s : State) : (readCapacityHandler s).Accounted s :=
  (devInfo_accounted s).bind fun _ t => transmitData_accounted _ _ t

theorem modeSenseHandler_accounted (s : State) : (modeSenseHandler s).Accounted s :=
  (devInfo_accounted s).bind fun _ t => transmitData_accounted _ _ t

/-- Every command is an `EXECUTE` of a handler whose port calls are accounted for. -/
theorem command_accounted (i : Instr) (hi : i.isCommand = true) :
    ∃ (rs : Bool) (h : State → Run Status), (∀ s, exec i s = runExecute rs h s) ∧ ∀ s, (h s).Accounted s := by
  cases i with
  | tur => exact ⟨_, _, fun _ => rfl, fun _ => List.suffix_rfl⟩
  | reqsense r1 r2 r3 alloc => exact ⟨_, _, fun _ => rfl, requestSenseHandler_accounted r1 r2 r3 alloc⟩
  | inquiry flags page => exact ⟨_, _, fun _ => rfl, inquiryHandler_accounted flags page⟩
  | modesense6 => exact ⟨_, _, fun _ => rfl, modeSenseHandler_accounted⟩
  | prevallow => exact ⟨_, _, fun _ => rfl, fun _ => List.suffix_rfl⟩
  | readcap10 => exact ⟨_, _, fun _ => rfl, readCapacityHandler_accounted⟩
  | read10 lba cnt => exact ⟨_, _, fun _ => rfl, dataTransfer_accounted .read lba cnt⟩
  | write10 lba cnt => exact ⟨_, _, fun _ => rfl, dataTransfer_accounted .write lba cnt⟩
  | unknown op => exact ⟨_, _, fun _ => rfl, fun _ => List.suffix_rfl⟩
  | init => cases hi
  | start ref => cases hi
  | stop => cases hi
  | residue => cases hi
  | execute cdb => cases hi

/-- A handler's fault is the EXECUTE's. -/
theorem command_fault {i : Instr} {s : State} {f : Fault} (hi : i.isCommand = true) (hs : s.Idle)
    (h : exec i s = .fault f) : f.OfHandler := by
  obtain ⟨rs, handler, he, hacc⟩ := command_accounted i hi
  rw [he, runExecute_idle hs] at h
  have hacc := hacc (s.enterExecute rs)
  revert hacc h
  cases handler (s.enterExecute rs) with
  | done st u => intro h; cases h
  | stuck u => intro h; cases h
  | fault f' => intro h; cases h; exact id

/-! ## Stuck operations -/

/-- Only an EXECUTE can get stuck, and nothing is returned then (rules R70, R97). -/
theorem isExecute_of_stuck {i : Instr} {s t : State} {call : PortCall} (h : exec i s = .next t)
    (hcall : t.phase = .stuck call) : isExecute i ∧ t.ret = .nothing := by
  cases exec_next h with
  | init => cases hcall
  | start _ hs => cases hs.symm.trans hcall
  | stop hs => cases hs.symm.trans hcall
  | residue hs => cases hs.symm.trans hcall
  | returned _ _ _ hidle _ => cases hidle.symm.trans hcall
  | hangs _ hruns hframe _ _ _ => exact ⟨isExecute_of_runsCommand hruns, by rw [hframe.ret, State.enterExecute_ret]⟩

/-- A command that returned nothing met a scripted answer that was never given. -/
theorem command_scripted_of_nothing {i : Instr} {s t : State} (hi : i.isCommand = true) (h : exec i s = .next t)
    (hret : t.ret = .nothing) : ∃ a ∈ s.answers, a.responds = false := by
  obtain ⟨rs, handler, he, hacc⟩ := command_accounted i hi
  rw [he] at h
  rcases (runExecute_next h).2 with ⟨st, u, -, rfl⟩ | hstuck
  · cases hret
  · have hacc := hacc (s.enterExecute rs)
    rw [hstuck] at hacc
    simpa [Run.Accounted] using hacc

/-- A step of a stuck target whose caller waits leaves it as it is (rule R244). -/
theorem step_of_stuck {s : State} {call : PortCall} (hs : s.phase = .stuck call)
    (hwaits : nextOverlaps s.callers = false) : step s = .next s := by
  unfold step
  rw [hs]
  simp [stepStuck, hwaits]

/-- Settles O46: a waiting caller's step does nothing (`step_of_stuck`); of the ways an operation can end only an
EXECUTE's hang is stuck, and its command met a scripted answer that was never given. -/
theorem aStuckOperationNeverReturns : Obligations.AStuckOperationNeverReturns := by
  refine ⟨fun s call hs hwaits => step_of_stuck hs hwaits, fun i s t call h hcall => ?_⟩
  obtain ⟨hi, hret⟩ := isExecute_of_stuck h hcall
  obtain ⟨j, -, hj, hexec⟩ := exists_runsCommand hi h
  exact ⟨hi, hret, command_scripted_of_nothing hj hexec hret⟩

end Sys2Proof.Machine
end

section
/-! Buffers that end too early. -/

namespace Sys2Proof.Machine

/-- The decoder refuses a buffer exactly when it ends at or before a byte its opcode's row reads (rules R85, R88). -/
theorem decode_error_iff (p : Config.Params) (op : Byte) (rest : List Byte) :
    (∃ e, decode p (op :: rest) = .error e) ↔ ∃ k ∈ operandPositions p op, rest.length + 1 ≤ k := by
  rcases decode_cases p op rest with ⟨herror, hshort⟩ | ⟨⟨i, hi⟩, hlong⟩
  · exact iff_of_true herror hshort
  · refine iff_of_false (fun ⟨e, he⟩ => ?_) fun ⟨k, hk, hle⟩ => absurd (hlong k hk) (by omega)
    rw [hi] at he
    cases he

/-- EXECUTE of a buffer on an idle target is `F_CDBSHORT` exactly when the decoder refuses the buffer: no handler
raises that fault (`command_fault`). -/
theorem exec_execute_cdbShort_iff {s : State} (hs : s.Idle) (cdb : List Byte) :
    exec (.execute cdb) s = .fault .cdbShort ↔ ∃ e, decode s.params cdb = .error e := by
  cases hd : decode s.params cdb with
  | error e => exact iff_of_true (exec_execute_of_short hs hd) ⟨e, rfl⟩
  | ok i =>
    refine iff_of_false (fun h => ?_) (by simp)
    obtain ⟨hexec, hcommand⟩ := exec_execute_of_decode s hd
    exact command_fault (decode_isCommand hd) hs (hcommand.symm.trans (hexec.symm.trans h))

/-- Where the row of an opcode ends, by the opcodes that have a row (rule R85): `n` is at or before a byte that is
read. -/
theorem exists_operandPosition_ge_iff {p : Config.Params} (hp : (acceptedOpcodes p).Nodup) (op : Byte) (n : Nat) :
    (∃ k ∈ operandPositions p op, n ≤ k) ↔
      (op = p.opcInquiry ∧ (n ≤ p.inqEvpdByte ∨ n ≤ p.inqPageByte)) ∨
      (op = p.opcRequestSense ∧ (n ≤ 3 ∨ n ≤ p.rsAllocByte)) ∨
      ((op = p.opcRead10 ∨ op = p.opcWrite10) ∧ (n ≤ p.rwLbaOff + 3 ∨ n ≤ p.rwCntOff + 1)) := by
  have hsense : p.opcRequestSense ≠ p.opcInquiry := fun h => by simp [acceptedOpcodes, h] at hp
  have hread : p.opcRead10 ≠ p.opcInquiry ∧ p.opcRead10 ≠ p.opcRequestSense := by
    constructor <;> exact fun h => by simp [acceptedOpcodes, h] at hp
  have hwrite : p.opcWrite10 ≠ p.opcInquiry ∧ p.opcWrite10 ≠ p.opcRequestSense := by
    constructor <;> exact fun h => by simp [acceptedOpcodes, h] at hp
  unfold operandPositions
  by_cases hinq : op = p.opcInquiry
  · subst hinq
    simp [inquiryPositions, hsense.symm, hread.1.symm, hwrite.1.symm]
  by_cases hreq : op = p.opcRequestSense
  · subst hreq
    simp [requestSensePositions, hsense, hread.2.symm, hwrite.2.symm]
    omega
  by_cases hdata : op = p.opcRead10 ∨ op = p.opcWrite10
  · simp [dataRequestPositions, hinq, hreq, hdata]
    omega
  · simp [hinq, hreq, hdata]

/-- The smallest safe lengths with the default positions, opcode by opcode (rule R85). -/
theorem smallestSafeLength_default (op : Byte) : smallestSafeLength Config.defaultParams op =
    if op = 0x12 then 3 else if op = 0x03 then 5 else if op = 0x28 ∨ op = 0x2A then 9 else 1 := by
  show List.foldr _ 1 (if op = 0x12 then [1, 2] else if op = 0x03 then [1, 2, 3, 4]
    else if op = 0x28 ∨ op = 0x2A then [2, 3, 4, 5, 7, 8] else []) = _
  split_ifs <;> rfl

/-- Settles O19: EXECUTE is `F_CDBSHORT` exactly when the decoder refuses the buffer, which it does exactly when the
buffer is empty or ends at or before a byte of its opcode's row. -/
theorem shortBuffersFaultAndNoOthers : Obligations.ShortBuffersFaultAndNoOthers := by
  refine ⟨fun s cdb hs hp => ?_, smallestSafeLength_default⟩
  rw [exec_execute_cdbShort_iff hs]
  cases cdb with
  | nil => exact iff_of_true ⟨.cdbShort 0, rfl⟩ (.inl rfl)
  | cons op rest =>
    rw [decode_error_iff, exists_operandPosition_ge_iff hp.opcodes]
    simp

end Sys2Proof.Machine
end

section
/-! Fixed responses and geometry queries that are never answered, and transmits answered with too much. -/

namespace Sys2Proof.Machine

variable {s : State} {ref : Nat} {c : Configuration}

theorem inquiryHandler_valid (hb : s.Bound ref c) {flags : Byte} (hflags : flags &&& s.params.inqEvpdMask = 0)
    (hl : s.params.inquiryLen.toNat ≤ c.inq.length) :
    inquiryHandler flags 0 s = transmitData (c.inq.take s.params.inquiryLen.toNat) s.params.inquiryLen s := by
  unfold inquiryHandler
  rw [if_pos (by simp [inquiryFieldsValid, hflags]), withTemplate_bound hb hl]

theorem requestSenseHandler_valid (s : State) : requestSenseHandler 0 0 0 18 s = transmitData s.sense.toList 18 s := rfl

theorem dataTransfer_stuck (hb : s.Bound ref c) (dir : Direction) (lba : Word32) (cnt : Word16)
    (hr : (s.answer c.dev 0).responds = false) :
    dataTransfer dir lba cnt s = .stuck ((s.latchRequest lba cnt dir).stuckAt .devInfo) := by
  unfold dataTransfer
  rw [devInfo_stuck (s := s.latchRequest lba cnt dir) (hb.congr rfl rfl) hr]
  rfl

theorem readCapacityHandler_stuck (hb : s.Bound ref c) (hr : (s.answer c.dev 0).responds = false) :
    readCapacityHandler s = .stuck (s.stuckAt .devInfo) := by
  unfold readCapacityHandler; rw [devInfo_stuck hb hr]; rfl

theorem modeSenseHandler_stuck (hb : s.Bound ref c) (hr : (s.answer c.dev 0).responds = false) :
    modeSenseHandler s = .stuck (s.stuckAt .devInfo) := by
  unfold modeSenseHandler; rw [devInfo_stuck hb hr]; rfl

/-- The state in which a fixed response that has its geometry goes on. -/
abbrev afterQuery (s : State) (c : Configuration) (g : Geometry) : State := s.consume.emit (.getInfo c.dev g)

theorem readCapacityHandler_answered (hb : s.Bound ref c) (hr : (s.answer c.dev 0).responds = true) :
    readCapacityHandler s =
      transmitData (packReadCapacity10 s.params.order (s.answer c.dev 0).geom.blockSize
        (s.answer c.dev 0).geom.blockCount) 8 (afterQuery s c (s.answer c.dev 0).geom) := by
  unfold readCapacityHandler; rw [devInfo_done hb hr]; rfl

theorem modeSenseHandler_answered (hb : s.Bound ref c) (hr : (s.answer c.dev 0).responds = true) :
    modeSenseHandler s =
      transmitData (packModeSense6 (s.answer c.dev 0).geom.writeProtected) 4
        (afterQuery s c (s.answer c.dev 0).geom) := by
  unfold modeSenseHandler; rw [devInfo_done hb hr]; rfl

theorem afterQuery_bound (hb : s.Bound ref c) (g : Geometry) : (afterQuery s c g).Bound ref c := hb.congr rfl rfl

/-! ## The commands from step 1 on -/

/-- A handler that gets stuck is an EXECUTE that is stuck there (rule R70). -/
theorem runExecute_stuck {rs : Bool} {handler : State → Run Status} {t : State} (hs : s.Idle)
    (h : handler (s.enterExecute rs) = .stuck t) : runExecute rs handler s = .next t := by
  rw [runExecute_idle hs, h]; rfl

theorem runExecute_fault {rs : Bool} {handler : State → Run Status} {f : Fault} (hs : s.Idle)
    (h : handler (s.enterExecute rs) = .fault f) : runExecute rs handler s = .fault f := by
  rw [runExecute_idle hs, h]; rfl

theorem enterExecute_answer (s : State) (rs : Bool) (h : Handle) (limit : Word32) :
    (s.enterExecute rs).answer h limit = s.answer h limit := (enterExecute_ahead rs).answer h limit

/-- Step 1 takes no answer: the transmit after a geometry query meets the second one. -/
theorem afterQuery_answer (s : State) (c : Configuration) (g : Geometry) (h : Handle) (limit : Word32) :
    (afterQuery (s.enterExecute false) c g).answer h limit = s.answerAfter 1 h limit :=
  (enterExecute_ahead false).consume.answer h limit

/-- READ CAPACITY(10) after step 1, its geometry query answered. -/
theorem readCapacityHandler_from {g : Geometry} (hb : s.Bound ref c) (hr : (s.answerAfter 0 c.dev 0).responds = true)
    (hg : (s.answerAfter 0 c.dev 0).geom = g) :
    readCapacityHandler (s.enterExecute false) =
      transmitData (packReadCapacity10 s.params.order g.blockSize g.blockCount) 8
        (afterQuery (s.enterExecute false) c g) := by
  have he : (s.enterExecute false).answer c.dev 0 = s.answerAfter 0 c.dev 0 := (enterExecute_ahead false).answer _ _
  rw [readCapacityHandler_answered (enterExecute_bound hb false) (he ▸ hr), he, hg, State.enterExecute_params]

/-- MODE SENSE(6) after step 1, its geometry query answered. -/
theorem modeSenseHandler_from {g : Geometry} (hb : s.Bound ref c) (hr : (s.answerAfter 0 c.dev 0).responds = true)
    (hg : (s.answerAfter 0 c.dev 0).geom = g) :
    modeSenseHandler (s.enterExecute false) =
      transmitData (packModeSense6 g.writeProtected) 4 (afterQuery (s.enterExecute false) c g) := by
  have he : (s.enterExecute false).answer c.dev 0 = s.answerAfter 0 c.dev 0 := (enterExecute_ahead false).answer _ _
  rw [modeSenseHandler_answered (enterExecute_bound hb false) (he ▸ hr), he, hg]

/-- INQUIRY after step 1, its fields valid and its template long enough. -/
theorem inquiryHandler_from {flags : Byte} (hb : s.Bound ref c) (hflags : flags &&& s.params.inqEvpdMask = 0)
    (hl : s.params.inquiryLen.toNat ≤ c.inq.length) :
    inquiryHandler flags 0 (s.enterExecute false) =
      transmitData (c.inq.take s.params.inquiryLen.toNat) s.params.inquiryLen (s.enterExecute false) := by
  rw [inquiryHandler_valid (enterExecute_bound hb false) (by simpa using hflags) (by simpa using hl),
    State.enterExecute_params]

/-- The transmit as the first call after step 1, never answered. -/
theorem transmitData_first_stuck {rs : Bool} {bytes : List Byte} {len : Word32} (hb : s.Bound ref c)
    (hr : (s.answer c.tr len).responds = false) :
    transmitData bytes len (s.enterExecute rs) = .stuck ((s.enterExecute rs).stuckAt .txResponse) :=
  transmitData_stuck (enterExecute_bound hb rs) _ _ (by rwa [enterExecute_answer])

/-- The transmit as the first call after step 1, answered with more than its length. -/
theorem transmitData_first_over {rs : Bool} {bytes : List Byte} {len : Word32} (hb : s.Bound ref c)
    (hr : (s.answer c.tr len).responds = true) (hover : len < (s.answer c.tr len).count) :
    transmitData bytes len (s.enterExecute rs) = .fault (.txOver s.trace) := by
  rw [transmitData_over (enterExecute_bound hb rs) _ _ (by rwa [enterExecute_answer]) (by rwa [enterExecute_answer]),
    State.enterExecute_trace]

/-- The transmit after a geometry query, never answered. -/
theorem transmitData_afterQuery_stuck {g : Geometry} {bytes : List Byte} {len : Word32} (hb : s.Bound ref c)
    (hr : (s.answerAfter 1 c.tr len).responds = false) :
    transmitData bytes len (afterQuery (s.enterExecute false) c g) =
      .stuck ((afterQuery (s.enterExecute false) c g).stuckAt .txResponse) :=
  transmitData_stuck (afterQuery_bound (enterExecute_bound hb false) g) _ _ (by rwa [afterQuery_answer])

/-- The transmit after a geometry query, answered with more than its length. -/
theorem transmitData_afterQuery_over {g : Geometry} {bytes : List Byte} {len : Word32} (hb : s.Bound ref c)
    (hr : (s.answerAfter 1 c.tr len).responds = true) (hover : len < (s.answerAfter 1 c.tr len).count) :
    transmitData bytes len (afterQuery (s.enterExecute false) c g) =
      .fault (.txOver (s.trace ++ [.getInfo c.dev g])) := by
  rw [transmitData_over (afterQuery_bound (enterExecute_bound hb false) g) _ _ (by rwa [afterQuery_answer])
    (by rwa [afterQuery_answer])]
  simp

/-! ## Where the calls outside the block loop hang -/

/-- Neither a geometry query nor a fixed response's transmit has the scratch buffer (rule R67). -/
theorem bufOwner_stuckAt {call : PortCall} (hc : call = .devInfo ∨ call = .txResponse) (s : State) :
    (s.stuckAt call).bufOwner = .none := by
  rcases hc with rfl | rfl <;> rfl

/-- Stuck at the first call after step 1. -/
theorem hangsAt_first {call : PortCall} (hc : call = .devInfo ∨ call = .txResponse) (s : State) (rs : Bool) :
    HangsAt s ((s.enterExecute rs).stuckAt call) [] call (entrySense s rs) s.latch := by
  constructor
  case owner => exact bufOwner_stuckAt hc _
  all_goals simp

/-- Stuck at the geometry query of a data command. -/
theorem hangsAt_latchRequest (s : State) (lba : Word32) (cnt : Word16) (dir : Direction) :
    HangsAt s (((s.enterExecute false).latchRequest lba cnt dir).stuckAt .devInfo) [] .devInfo (senseOk s.params)
      { s.latch with lba := lba, cnt := cnt, dir := dir } := by
  constructor
  case owner => rfl
  all_goals simp

/-- Stuck at the transmit after a geometry query. -/
theorem hangsAt_afterQuery (s : State) (c : Configuration) (g : Geometry) :
    HangsAt s ((afterQuery (s.enterExecute false) c g).stuckAt .txResponse) [.getInfo c.dev g] .txResponse
      (senseOk s.params) s.latch := by
  constructor
  case owner => rfl
  all_goals simp

/-- Settles O55: each of the four asks for the geometry first after step 1, and stays there. -/
theorem geometryQueriesCanHang : Obligations.GeometryQueriesCanHang := by
  intro s ref c hs hb hr
  have hb' := enterExecute_bound hb false
  have hr' : ((s.enterExecute false).answer c.dev 0).responds = false := by rwa [enterExecute_answer]
  have hangs := hangsAt_first (.inl rfl) s false
  rw [State.entrySense_false] at hangs
  exact ⟨⟨_, runExecute_stuck hs (readCapacityHandler_stuck hb' hr'), hangs⟩,
    ⟨_, runExecute_stuck hs (modeSenseHandler_stuck hb' hr'), hangs⟩,
    fun lba cnt =>
      ⟨⟨_, runExecute_stuck hs (dataTransfer_stuck hb' .read lba cnt hr'), hangsAt_latchRequest s lba cnt .read⟩,
        ⟨_, runExecute_stuck hs (dataTransfer_stuck hb' .write lba cnt hr'), hangsAt_latchRequest s lba cnt .write⟩⟩⟩

/-- The record a REQUEST SENSE sends: what step 1 makes of it, by the policy (rule R151). -/
theorem entrySense_true_always (h : s.params.policy = .alwaysAtEntry) : entrySense s true = senseOk s.params := by
  simp [entrySense, resetsSense, h]

theorem entrySense_true_skip (h : s.params.policy = .skipOnRequestSense) : entrySense s true = s.sense := by
  simp [entrySense, resetsSense, h]

/-- Settles O56: INQUIRY and REQUEST SENSE hang at the first call after step 1, the other two at the transmit after the
geometry query. -/
theorem fixedResponsesCanHangAtTheirTransmit : Obligations.FixedResponsesCanHangAtTheirTransmit := by
  intro s ref c hs hb
  refine ⟨fun flags hflags hl hr => ?_, fun hr => ?_, fun g hinfo hg => ⟨fun hr => ?_, fun hr => ?_⟩⟩
  · have hangs := hangsAt_first (.inr rfl) s false
    rw [State.entrySense_false] at hangs
    exact ⟨_, runExecute_stuck hs ((inquiryHandler_from hb hflags hl).trans (transmitData_first_stuck hb hr)), hangs⟩
  · exact ⟨_, _, runExecute_stuck hs ((requestSenseHandler_valid _).trans (transmitData_first_stuck hb hr)),
      entrySense_true_always, entrySense_true_skip, hangsAt_first (.inr rfl) s true⟩
  · exact ⟨_, runExecute_stuck hs ((readCapacityHandler_from hb hinfo hg).trans (transmitData_afterQuery_stuck hb hr)),
      hangsAt_afterQuery s c g⟩
  · exact ⟨_, runExecute_stuck hs ((modeSenseHandler_from hb hinfo hg).trans (transmitData_afterQuery_stuck hb hr)),
      hangsAt_afterQuery s c g⟩

/-- Settles O27: the overlong answer meets the transmit after step 1, or after the geometry query, and the fault carries
the trace up to there. -/
theorem overlongTransmitAnswersFault : Obligations.OverlongTransmitAnswersFault := by
  rintro s ref c n hs hb rfl
  refine ⟨fun hl hr hover flags hflags => ?_, fun hr hover => ?_,
    fun g hinfo hg => ⟨fun hr hover => ?_, fun hr hover => ?_⟩⟩
  · exact runExecute_fault hs ((inquiryHandler_from hb hflags hl).trans (transmitData_first_over hb hr hover))
  · exact runExecute_fault hs ((requestSenseHandler_valid _).trans (transmitData_first_over hb hr hover))
  · exact runExecute_fault hs ((readCapacityHandler_from hb hinfo hg).trans (transmitData_afterQuery_over hb hr hover))
  · exact runExecute_fault hs ((modeSenseHandler_from hb hinfo hg).trans (transmitData_afterQuery_over hb hr hover))

end Sys2Proof.Machine
end

section
/-! Data commands that end at a block: at a call that is never answered, or at a transmit answered with too much. -/

namespace Sys2Proof.Machine

/-! ## One block whose calls are not all answered within the contract -/

section Block

variable {s : State} {ref : Nat} {c : Configuration}

theorem moveBlock_read_fill_stuck (hb : s.Bound ref c) (hd : s.latch.dir = .read)
    (hr : (s.answer c.dev 0).responds = false) :
    moveBlock s = .stuck (s.stuckAt (.devRead (blockLba s.latch))) := by
  unfold moveBlock
  rw [hd]
  dsimp only
  rw [devRead_stuck hb _ hr]
  rfl

theorem moveBlock_read_drain_stuck (hb : s.Bound ref c) (hd : s.latch.dir = .read)
    (hr : (s.answer c.dev 0).responds = true)
    (hr' : (s.answerAfter 1 c.tr s.latch.geom.blockSize).responds = false) :
    moveBlock s = .stuck ((afterFill s ref c).stuckAt .txBlock) := by
  rw [moveBlock_read hb hd hr, trTx_stuck (afterFill_bound hb) _ _ _ (by rwa [afterFill_answer])]
  rfl

theorem moveBlock_read_drain_over (hb : s.Bound ref c) (hd : s.latch.dir = .read)
    (hr : (s.answer c.dev 0).responds = true)
    (hr' : (s.answerAfter 1 c.tr s.latch.geom.blockSize).responds = true)
    (hover : s.latch.geom.blockSize < (s.answerAfter 1 c.tr s.latch.geom.blockSize).count) :
    moveBlock s = .fault (.txOver (s.trace ++
      [.devRead c.dev (blockLba s.latch) (fill c.buf (s.answer c.dev 0).data)])) := by
  rw [moveBlock_read hb hd hr, trTx_answered (afterFill_bound hb) _ _ _ (by rwa [afterFill_answer]),
    if_neg (by rw [afterFill_answer]; exact BitVec.not_le.2 hover)]
  rfl

theorem moveBlock_write_fill_stuck (hb : s.Bound ref c) (hd : s.latch.dir = .write)
    (hr : (s.answer c.tr s.latch.geom.blockSize).responds = false) :
    moveBlock s = .stuck (s.stuckAt .rxBlock) := by
  unfold moveBlock
  rw [hd]
  dsimp only
  rw [trRx_stuck hb _ hr]
  rfl

theorem moveBlock_write_drain_stuck (hb : s.Bound ref c) (hd : s.latch.dir = .write)
    (hr : (s.answer c.tr s.latch.geom.blockSize).responds = true)
    (hr' : (s.answerAfter 1 c.dev 0).responds = false) :
    moveBlock s = .stuck ((afterReceive s ref c).stuckAt (.devWrite (blockLba s.latch))) := by
  rw [moveBlock_write hb hd hr, devWrite_stuck (afterReceive_bound hb) _ (by rwa [afterReceive_answer])]

end Block

/-! ## The command that ends at its k-th block -/

section AtBlock

variable {s t : State} {ref : Nat} {c : Configuration} {lba : Word32} {cnt : Word16} {dir : Direction} {g : Geometry}
  {k : Nat} (hb : s.Bound ref c) (hinfo : (s.answerAfter 0 c.dev 0).responds = true)
  (hg : (s.answerAfter 0 c.dev 0).geom = g) (hrange : lba.toNat + cnt.toNat ≤ g.blockCount.toNat)
  (hbuf : c.buf.length = g.blockSize.toNat) (hk : k < cnt.toNat)
  (ht : blockLoop k (loopStart s c lba cnt dir g) = .done () t)

include hb hinfo hg hrange hbuf hk ht

/-- The handler of a data command in range whose buffer is one block, from its k-th block on: `t` is where the blocks
before it have led. -/
theorem dataTransfer_at_block : ∃ m, dataTransfer dir lba cnt (s.enterExecute false) =
    ((moveBlock t).bind fun _ u => blockLoop m (u.setIdx (u.latch.idx + 1))).bind
      fun _ u => .done .success u.dropLatches := by
  obtain ⟨m, hm⟩ := blockLoop_at ht hk
  exact ⟨m, by rw [dataTransfer_from hb hinfo hg, if_pos hrange, if_neg fun h => h.2 hbuf, hm]⟩

theorem dataTransfer_stuck_at_block {u : State} (hu : moveBlock t = .stuck u) :
    dataTransfer dir lba cnt (s.enterExecute false) = .stuck u := by
  obtain ⟨m, hm⟩ := dataTransfer_at_block hb hinfo hg hrange hbuf hk ht
  rw [hm, hu]
  rfl

theorem dataTransfer_fault_at_block {f : Fault} (hf : moveBlock t = .fault f) :
    dataTransfer dir lba cnt (s.enterExecute false) = .fault f := by
  obtain ⟨m, hm⟩ := dataTransfer_at_block hb hinfo hg hrange hbuf hk ht
  rw [hm, hf]
  rfl

end AtBlock

/-! ## Where the blocks before have led -/

namespace BlocksMoved

variable {s t : State} {ref : Nat} {c : Configuration} {lba : Word32} {cnt : Word16} {dir : Direction} {g : Geometry}
  {k : Nat} {evs : List Event} {buf : List Byte}

theorem dir_eq (h : BlocksMoved (loopStart s c lba cnt dir g) t ref c k evs buf) : t.latch.dir = dir :=
  congrArg Latches.dir h.latch

theorem geom_eq (h : BlocksMoved (loopStart s c lba cnt dir g) t ref c k evs buf) : t.latch.geom = g :=
  congrArg Latches.geom h.latch

theorem blockLba_eq (h : BlocksMoved (loopStart s c lba cnt dir g) t ref c k evs buf) :
    blockLba t.latch = lba + BitVec.ofNat 32 k := by
  rw [h.latch, blockLba_after, blockLba_loopStart]

theorem trace_eq (h : BlocksMoved (loopStart s c lba cnt dir g) t ref c k evs buf) :
    t.trace = s.trace ++ (.getInfo c.dev g :: evs) := by
  simp [h.trace]

/-- The next block's calls meet the answers numbered `1 + 2 * k` and `2 + 2 * k` of the command. -/
theorem answer_eq (h : BlocksMoved (loopStart s c lba cnt dir g) t ref c k evs buf) (hd : Handle) (limit : Word32) :
    t.answer hd limit = s.answerAfter (1 + 2 * k) hd limit :=
  ((loopStart_ahead s c lba cnt dir g).trans h.ahead).answer hd limit

theorem answerAfter_one_eq (h : BlocksMoved (loopStart s c lba cnt dir g) t ref c k evs buf) (hd : Handle)
    (limit : Word32) : t.answerAfter 1 hd limit = s.answerAfter (2 + 2 * k) hd limit := by
  rw [((loopStart_ahead s c lba cnt dir g).trans h.ahead).answerAfter]
  congr 1
  omega

/-- Stuck at the fill of the next block. -/
theorem transferStuck (h : BlocksMoved (loopStart s c lba cnt dir g) t ref c k evs buf) (call : PortCall) :
    TransferStuck s (t.stuckAt call) ref c (.getInfo c.dev g :: evs) call buf where
  phase   := rfl
  run     := by simp [h.run]
  cfg     := by simp [h.cfg]
  sense   := by simp [h.sense]
  residue := by simp [h.residue]
  bound   := h.bound.record
  others  := fun r hr => by simpa using h.others r hr
  params  := by simp [h.params]
  callers := by simp [h.callers]
  trace   := h.trace_eq
  ret     := by simp [h.ret]

/-- Stuck at the drain of the next block, which was filled with `bytes`. -/
theorem transferStuck_filled (h : BlocksMoved (loopStart s c lba cnt dir g) t ref c k evs buf) (bytes : List Byte)
    (e : Event) (call : PortCall) :
    TransferStuck s (((t.consume.setBuf ref { c with buf := buf } bytes).emit e).stuckAt call) ref c
      (.getInfo c.dev g :: evs ++ [e]) call bytes :=
  { h.transferStuck call with
    bound  := Memory.read_write_same _ _ _
    others := fun r hr => (Memory.read_write_other _ _ _ _ hr).trans ((h.transferStuck call).others r hr)
    trace  := by simp [h.trace_eq] }

end BlocksMoved

/-- Settles O36: after the blocks before it the k-th is stuck at its fill or at its drain. -/
theorem readCanHangAtEitherCallOfABlock : Obligations.ReadCanHangAtEitherCallOfABlock := by
  intro s ref c lba cnt g k hs hb hinfo hg hrange hbuf hk hbefore
  obtain ⟨t, ht, hm⟩ := loopStart_read (lba := lba) (cnt := cnt) hb hbefore
  refine ⟨fun hfill => ?_, fun hfill hdrain => ?_⟩
  · have hstuck := moveBlock_read_fill_stuck hm.bound hm.dir_eq (by rwa [hm.answer_eq])
    rw [hm.blockLba_eq] at hstuck
    exact ⟨_, runExecute_stuck hs (dataTransfer_stuck_at_block hb hinfo hg hrange hbuf hk ht hstuck), rfl,
      hm.transferStuck _⟩
  · have hstuck := moveBlock_read_drain_stuck hm.bound hm.dir_eq (by rwa [hm.answer_eq])
      (by rwa [hm.answerAfter_one_eq, hm.geom_eq])
    unfold afterFill at hstuck
    rw [hm.blockLba_eq, hm.answer_eq] at hstuck
    exact ⟨_, runExecute_stuck hs (dataTransfer_stuck_at_block hb hinfo hg hrange hbuf hk ht hstuck), rfl,
      hm.transferStuck_filled _ _ _⟩

/-- Settles O37: the same for WRITE(10), the transport filling the buffer and the device draining it. -/
theorem writeCanHangAtEitherCallOfABlock : Obligations.WriteCanHangAtEitherCallOfABlock := by
  intro s ref c lba cnt g k hs hb hinfo hg hrange hbuf hk hbefore
  obtain ⟨t, ht, hm⟩ := loopStart_write (lba := lba) (cnt := cnt) hb hbefore
  refine ⟨fun hfill => ?_, fun hfill hdrain => ?_⟩
  · have hstuck := moveBlock_write_fill_stuck hm.bound hm.dir_eq (by rwa [hm.geom_eq, hm.answer_eq])
    exact ⟨_, runExecute_stuck hs (dataTransfer_stuck_at_block hb hinfo hg hrange hbuf hk ht hstuck), rfl,
      hm.transferStuck _⟩
  · have hstuck := moveBlock_write_drain_stuck hm.bound hm.dir_eq (by rwa [hm.geom_eq, hm.answer_eq])
      (by rwa [hm.answerAfter_one_eq])
    unfold afterReceive at hstuck
    rw [hm.blockLba_eq, hm.geom_eq, hm.answer_eq] at hstuck
    exact ⟨_, runExecute_stuck hs (dataTransfer_stuck_at_block hb hinfo hg hrange hbuf hk ht hstuck), rfl,
      hm.transferStuck_filled _ _ _⟩

/-- Settles O38: after the blocks before it and its own fill, the k-th block's transmit is the fault. -/
theorem readFaultsOnAnOverlongBlockTransmit : Obligations.ReadFaultsOnAnOverlongBlockTransmit := by
  intro s ref c lba cnt g k hs hb hinfo hg hrange hbuf hk hbefore hfill hdrain hover
  obtain ⟨t, ht, hm⟩ := loopStart_read (lba := lba) (cnt := cnt) hb hbefore
  have hfault := moveBlock_read_drain_over hm.bound hm.dir_eq (by rwa [hm.answer_eq])
    (by rwa [hm.answerAfter_one_eq, hm.geom_eq]) (by rwa [hm.answerAfter_one_eq, hm.geom_eq])
  rw [hm.blockLba_eq, hm.answer_eq, hm.trace_eq, List.append_assoc] at hfault
  exact runExecute_fault hs (dataTransfer_fault_at_block hb hinfo hg hrange hbuf hk ht hfault)

end Sys2Proof.Machine
end

section
/-! The decoder against the encoder: what it means for a buffer to hold a command, and that the decoder reads exactly
that. -/

namespace Sys2Proof

/-! ## The field codec -/

/-- The two bytes of a 16-bit field give it back (rules R110, R112). -/
theorem be16_extract (v : Word16) : be16 (v.extractLsb' 8 8) (v.extractLsb' 0 8) = v := by
  unfold be16
  rw [BitVec.extractLsb'_append_extractLsb'_eq_extractLsb' (by rfl)]
  exact BitVec.extractLsb'_eq_self

/-- The four bytes of a 32-bit field give it back (rules R111, R113). -/
theorem be32_extract (v : Word32) :
    be32 (v.extractLsb' 24 8) (v.extractLsb' 16 8) (v.extractLsb' 8 8) (v.extractLsb' 0 8) = v := by
  unfold be32
  rw [BitVec.extractLsb'_append_extractLsb'_eq_extractLsb' (by rfl),
    BitVec.extractLsb'_append_extractLsb'_eq_extractLsb' (by rfl),
    BitVec.extractLsb'_append_extractLsb'_eq_extractLsb' (by rfl)]
  exact BitVec.extractLsb'_eq_self

/-- The decoder reads back the data request that the encoder has put at its positions (rules R114, R115). -/
theorem decodeDataRequest_encodeDataRequest {p : Config.Params} (hfit : FieldsFit (dataRequestPositions p) 10)
    (op : Byte) (lba : Word32) (cnt : Word16) :
    decodeDataRequest p (encodeDataRequest p op lba cnt) = .ok (lba, cnt) := by
  have hread (j : Fin 6) := cdbByte_eq ((getElem?_encodeFields (op := op) (values := enc32 lba ++ enc16 cnt) hfit rfl
    j j.isLt).trans (List.getElem?_eq_getElem j.isLt))
  have hbytes : decodeDataRequest p (encodeDataRequest p op lba cnt) =
      .ok (be32 (lba.extractLsb' 24 8) (lba.extractLsb' 16 8) (lba.extractLsb' 8 8) (lba.extractLsb' 0 8),
        be16 (cnt.extractLsb' 8 8) (cnt.extractLsb' 0 8)) := by
    rw [decodeDataRequest, encodeDataRequest, show cdbByte _ p.rwLbaOff = _ from hread 0,
      show cdbByte _ (p.rwLbaOff + 1) = _ from hread 1, show cdbByte _ (p.rwLbaOff + 2) = _ from hread 2,
      show cdbByte _ (p.rwLbaOff + 3) = _ from hread 3, show cdbByte _ p.rwCntOff = _ from hread 4,
      show cdbByte _ (p.rwCntOff + 1) = _ from hread 5]
    rfl
  rw [hbytes, be32_extract, be16_extract]

/-! ## Buffers that hold a command -/

/-- The buffer holds the command: its opcode first, and every operand at the positions that the opcode's row of rule
R85 names. -/
inductive HoldsCommand (p : Config.Params) (cdb : List Byte) : Instr → Prop where
  | tur : cdb[0]? = some p.opcTestUnitReady → HoldsCommand p cdb .tur
  | reqsense {r1 r2 r3 alloc : Byte} : cdb[0]? = some p.opcRequestSense → cdb[1]? = some r1 → cdb[2]? = some r2 →
      cdb[3]? = some r3 → cdb[p.rsAllocByte]? = some alloc → HoldsCommand p cdb (.reqsense r1 r2 r3 alloc)
  | inquiry {flags page : Byte} : cdb[0]? = some p.opcInquiry → cdb[p.inqEvpdByte]? = some flags →
      cdb[p.inqPageByte]? = some page → HoldsCommand p cdb (.inquiry flags page)
  | modesense6 : cdb[0]? = some p.opcModeSense6 → HoldsCommand p cdb .modesense6
  | prevallow : cdb[0]? = some p.opcPreventAllowMediumRemoval → HoldsCommand p cdb .prevallow
  | readcap10 : cdb[0]? = some p.opcReadCapacity10 → HoldsCommand p cdb .readcap10
  | read10 {lba : Word32} {cnt : Word16} : cdb[0]? = some p.opcRead10 → decodeDataRequest p cdb = .ok (lba, cnt) →
      HoldsCommand p cdb (.read10 lba cnt)
  | write10 {lba : Word32} {cnt : Word16} : cdb[0]? = some p.opcWrite10 → decodeDataRequest p cdb = .ok (lba, cnt) →
      HoldsCommand p cdb (.write10 lba cnt)
  | unknown {op : Byte} : cdb[0]? = some op → op ∉ acceptedOpcodes p → HoldsCommand p cdb (.unknown op)

/-- The encoder makes a buffer that holds the command: the fields of its format do not overlap (rules R81, R82). -/
theorem holdsCommand_of_encode {p : Config.Params} {i : Instr} {bytes : List Byte} (hp : ParamsOk p)
    (hwf : i.wellFormed p = true) (henc : encode p i = some bytes) : HoldsCommand p bytes i := by
  have hopcode (len : Nat) (op : Byte) (hl : 0 < len) : (encodeFields len op [] [])[0]? = some op :=
    getElem?_encodeFields_zero ⟨List.nodup_nil, fun _ h => absurd h List.not_mem_nil⟩ hl
  cases i <;> cases henc
  case tur => exact .tur (hopcode 6 _ (by decide))
  case modesense6 => exact .modesense6 (hopcode 6 _ (by decide))
  case prevallow => exact .prevallow (hopcode 6 _ (by decide))
  case readcap10 => exact .readcap10 (hopcode 10 _ (by decide))
  case reqsense r1 r2 r3 alloc =>
    have hfield (j : Fin 4) := getElem?_encodeFields (op := p.opcRequestSense) (values := [r1, r2, r3, alloc])
      hp.requestSense rfl j j.isLt
    exact .reqsense (getElem?_encodeFields_zero hp.requestSense (by decide)) (hfield 0) (hfield 1) (hfield 2) (hfield 3)
  case inquiry flags page =>
    have hfield (j : Fin 2) := getElem?_encodeFields (op := p.opcInquiry) (values := [flags, page]) hp.inquiry rfl
      j j.isLt
    exact .inquiry (getElem?_encodeFields_zero hp.inquiry (by decide)) (hfield 0) (hfield 1)
  case read10 lba cnt =>
    exact .read10 (getElem?_encodeFields_zero hp.dataRequest (by decide))
      (decodeDataRequest_encodeDataRequest hp.dataRequest _ lba cnt)
  case write10 lba cnt =>
    exact .write10 (getElem?_encodeFields_zero hp.dataRequest (by decide))
      (decodeDataRequest_encodeDataRequest hp.dataRequest _ lba cnt)
  case unknown op => exact .unknown rfl (by simpa [Instr.wellFormed] using hwf)

/-- The commands are the operations that have an encoding (rule R95). -/
theorem isSome_encode (p : Config.Params) (i : Instr) : (encode p i).isSome = i.isCommand := by
  cases i <;> rfl

/-! ## What the decoder reads -/

/-- The accepted opcodes in the order in which the decoder asks for them: each is none of those before it. -/
theorem decoderOrder_pairwise_ne {p : Config.Params} (hp : (acceptedOpcodes p).Nodup) :
    [p.opcInquiry, p.opcRequestSense, p.opcRead10, p.opcWrite10, p.opcReadCapacity10, p.opcTestUnitReady,
      p.opcPreventAllowMediumRemoval, p.opcModeSense6].Pairwise (fun a b => b ≠ a) := by
  simp only [acceptedOpcodes, List.nodup_cons, List.pairwise_cons, List.mem_cons, List.not_mem_nil] at hp ⊢
  grind

/-- With pairwise different opcodes the decoder gives the command that the buffer holds (rules R84, R85). -/
theorem HoldsCommand.decode_eq {p : Config.Params} {cdb : List Byte} {i : Instr} (hp : (acceptedOpcodes p).Nodup)
    (h : HoldsCommand p cdb i) : decode p cdb = .ok i := by
  have hne := decoderOrder_pairwise_ne hp
  simp only [List.pairwise_cons, List.forall_mem_cons] at hne
  unfold decode
  cases h with
  | tur h0 => simp [cdbByte_eq h0, hne, bind, Except.bind]
  | reqsense h0 h1 h2 h3 h4 =>
    simp [cdbByte_eq h0, cdbByte_eq h1, cdbByte_eq h2, cdbByte_eq h3, cdbByte_eq h4, hne, bind, Except.bind]
  | inquiry h0 h1 h2 => simp [cdbByte_eq h0, cdbByte_eq h1, cdbByte_eq h2, bind, Except.bind]
  | modesense6 h0 => simp [cdbByte_eq h0, hne, bind, Except.bind]
  | prevallow h0 => simp [cdbByte_eq h0, hne, bind, Except.bind]
  | readcap10 h0 => simp [cdbByte_eq h0, hne, bind, Except.bind]
  | read10 h0 hreq => simp [cdbByte_eq h0, hreq, hne, bind, Except.bind]
  | write10 h0 hreq => simp [cdbByte_eq h0, hreq, hne, bind, Except.bind]
  | unknown h0 hop =>
    simp only [acceptedOpcodes, List.mem_cons, List.not_mem_nil, or_false, not_or] at hop
    simp [cdbByte_eq h0, hop, bind, Except.bind]

/-- A byte that has been read stands in the buffer (rule R13). -/
theorem getElem?_of_cdbByte {cdb : List Byte} {k : Nat} {b : Byte} (h : cdbByte cdb k = .ok b) : cdb[k]? = some b := by
  unfold cdbByte at h
  split at h
  · next hb => cases h; exact hb
  · cases h

/-- What a read followed by a continuation can have answered. -/
theorem exceptBind_eq_ok {ε α β : Type} {x : Except ε α} {k : α → Except ε β} {b : β} (h : x >>= k = .ok b) :
    ∃ a, x = .ok a ∧ k a = .ok b := by
  cases x with
  | error e => cases h
  | ok a => exact ⟨a, rfl, h⟩

/-- Whatever the parameters, the decoder gives only a command that the buffer holds (rules R84, R85). -/
theorem holdsCommand_of_decode {p : Config.Params} {cdb : List Byte} {i : Instr} (h : decode p cdb = .ok i) :
    HoldsCommand p cdb i := by
  obtain ⟨op, hop, h⟩ := exceptBind_eq_ok h
  have h0 := getElem?_of_cdbByte hop
  split_ifs at h with hinq hsense hread hwrite hcap htur hprevent hmode
  · obtain ⟨flags, hflags, h⟩ := exceptBind_eq_ok h
    obtain ⟨page, hpage, h⟩ := exceptBind_eq_ok h
    cases h
    exact .inquiry (hinq ▸ h0) (getElem?_of_cdbByte hflags) (getElem?_of_cdbByte hpage)
  · obtain ⟨r1, h1, h⟩ := exceptBind_eq_ok h
    obtain ⟨r2, h2, h⟩ := exceptBind_eq_ok h
    obtain ⟨r3, h3, h⟩ := exceptBind_eq_ok h
    obtain ⟨alloc, halloc, h⟩ := exceptBind_eq_ok h
    cases h
    exact .reqsense (hsense ▸ h0) (getElem?_of_cdbByte h1) (getElem?_of_cdbByte h2) (getElem?_of_cdbByte h3)
      (getElem?_of_cdbByte halloc)
  · obtain ⟨req, hreq, h⟩ := exceptBind_eq_ok h
    cases h
    exact .read10 (hread ▸ h0) hreq
  · obtain ⟨req, hreq, h⟩ := exceptBind_eq_ok h
    cases h
    exact .write10 (hwrite ▸ h0) hreq
  · cases h; exact .readcap10 (hcap ▸ h0)
  · cases h; exact .tur (htur ▸ h0)
  · cases h; exact .prevallow (hprevent ▸ h0)
  · cases h; exact .modesense6 (hmode ▸ h0)
  · cases h
    refine .unknown h0 ?_
    simp [acceptedOpcodes, hinq, hsense, hread, hwrite, hcap, htur, hprevent, hmode]

/-- Two buffers that agree on the bytes of a data request give the same one (rule R114). -/
theorem decodeDataRequest_congr {p : Config.Params} {cdb cdb' : List Byte}
    (h : ∀ k ∈ dataRequestPositions p, cdbByte cdb k = cdbByte cdb' k) :
    decodeDataRequest p cdb = decodeDataRequest p cdb' := by
  simp only [dataRequestPositions, List.forall_mem_cons] at h
  simp only [decodeDataRequest, h]

/-- The decoder gives two buffers the same answer when they agree on the opcode and on its row of rule R85, whether the
answer is a command or a refusal. -/
theorem decode_congr {p : Config.Params} {op : Byte} {rest rest' : List Byte}
    (h : ∀ k ∈ operandPositions p op, (op :: rest)[k]? = (op :: rest')[k]?) :
    decode p (op :: rest) = decode p (op :: rest') := by
  have hread (k : Nat) (hk : k ∈ operandPositions p op) : cdbByte (op :: rest) k = cdbByte (op :: rest') k := by
    unfold cdbByte
    rw [h k hk]
  have hop (tail : List Byte) : cdbByte (op :: tail) 0 = .ok op := rfl
  unfold operandPositions at hread
  unfold decode
  rw [hop, hop]
  simp only [bind, Except.bind]
  by_cases hinq : op = p.opcInquiry
  · simp only [if_pos hinq, inquiryPositions, List.forall_mem_cons] at hread ⊢
    simp only [hread]
  by_cases hsense : op = p.opcRequestSense
  · simp only [if_neg hinq, if_pos hsense, requestSensePositions, List.forall_mem_cons] at hread ⊢
    simp only [hread]
  by_cases hdata : op = p.opcRead10 ∨ op = p.opcWrite10
  · simp only [if_neg hinq, if_neg hsense, if_pos hdata] at hread ⊢
    rw [decodeDataRequest_congr hread]
  · obtain ⟨hread10, hwrite10⟩ := not_or.1 hdata
    simp only [if_neg hinq, if_neg hsense, if_neg hread10, if_neg hwrite10]

end Sys2Proof
end

section
/-! The statements about encodings, and about EXECUTE as it follows from them. -/

namespace Sys2Proof.Machine

/-- Settles O53: the encoded buffer holds the command (`holdsCommand_of_encode`), and the decoder gives the command a
buffer holds (`HoldsCommand.decode_eq`). -/
theorem decodingUndoesEncoding : Obligations.DecodingUndoesEncoding := by
  intro p i hp hwf
  refine ⟨fun hc => ?_, fun hc => ?_⟩
  · obtain ⟨bytes, henc⟩ := Option.isSome_iff_exists.1 ((isSome_encode p i).trans hc)
    exact ⟨bytes, henc, (holdsCommand_of_encode hp hwf henc).decode_eq hp.opcodes⟩
  · exact Option.isNone_iff_eq_none.1 (Option.isSome_eq_false_iff.1 ((isSome_encode p i).trans hc))

/-- Settles O16: the decoded command is held by the buffer (`holdsCommand_of_decode`), so its opcode is the first
byte. -/
theorem firstByteSelectsOneOfNineCommands : Obligations.FirstByteSelectsOneOfNineCommands := by
  refine ⟨rfl, fun p op rest i h => ?_⟩
  cases holdsCommand_of_decode h with
  | tur h0 => simpa using h0
  | reqsense h0 => simpa using h0
  | inquiry h0 => simpa using h0
  | modesense6 h0 => simpa using h0
  | prevallow h0 => simpa using h0
  | readcap10 h0 => simpa using h0
  | read10 h0 => simpa using h0
  | write10 h0 => simpa using h0
  | unknown h0 hop =>
    obtain rfl := Option.some.inj h0
    simpa using hop

/-- Settles O54: each buffer is decoded byte by byte. -/
theorem writtenOutWordsDecode : Obligations.WrittenOutWordsDecode :=
  ⟨rfl, rfl, rfl, rfl, rfl, rfl, rfl, rfl, rfl, rfl, rfl⟩

/-- EXECUTE sees of a buffer only what the decoder reads from it (rule R150). -/
theorem exec_execute_congr {s : State} {cdb cdb' : List Byte} (h : decode s.params cdb = decode s.params cdb') :
    exec (.execute cdb) s = exec (.execute cdb') s := by
  show execExecute cdb s = execExecute cdb' s
  unfold execExecute onTarget
  dsimp only
  rw [h]

/-- Settles O20: the two buffers decode alike (`decode_congr`). -/
theorem unlistedBytesDoNotMatter : Obligations.UnlistedBytesDoNotMatter :=
  fun _ _ _ _ h => exec_execute_congr (decode_congr h)

/-- On an idle target the handler without data leaves the no-error record and success, nothing else (rule R153). -/
theorem runExecute_noOp {s : State} (hs : s.Idle) :
    runExecute false noOp s = .next { s with sense := senseOk s.params, ret := .status .success } := by
  unfold runExecute
  rw [onTarget_idle hs]
  unfold State.enterExecute
  split <;> rfl

/-- EXECUTE of a buffer that holds a command is that command (rules R84, R150). -/
theorem exec_execute_of_holdsCommand {s : State} {cdb : List Byte} {i : Instr} (hp : ParamsOk s.params)
    (h : HoldsCommand s.params cdb i) : exec (.execute cdb) s = exec i s := by
  obtain ⟨hexec, hcommand⟩ := exec_execute_of_decode s (h.decode_eq hp.opcodes)
  exact hexec.trans hcommand

/-- Settles O14: such a buffer holds its command whatever follows the opcode, and both commands are `noOp`. -/
theorem executeOfNoDataOpcodesSucceeds : Obligations.ExecuteOfNoDataOpcodesSucceeds := by
  intro s rest hs hp
  constructor
  · exact (exec_execute_of_holdsCommand hp (.tur rfl)).trans (runExecute_noOp hs)
  · exact (exec_execute_of_holdsCommand hp (.prevallow rfl)).trans (runExecute_noOp hs)

end Sys2Proof.Machine
end

section
/-! The field functions against each other, and a data request that is decoded and encoded again. -/

namespace Sys2Proof

/-! ## Bytes of a field -/

/-- A byte appended at the end is the least significant one. -/
theorem toNat_append_byte {w : Nat} (x : BitVec w) (b : Byte) : (x ++ b).toNat = x.toNat * 256 + b.toNat := by
  rw [BitVec.toNat_append, ← Nat.shiftLeft_add_eq_or_of_lt b.isLt, Nat.shiftLeft_eq]

/-- `be32` is the big-endian value of its bytes (rule R111). -/
theorem toNat_be32 (b0 b1 b2 b3 : Byte) : (be32 b0 b1 b2 b3).toNat =
    b0.toNat * 2 ^ 24 + b1.toNat * 2 ^ 16 + b2.toNat * 2 ^ 8 + b3.toNat := by
  unfold be32
  rw [toNat_append_byte (w := 24), toNat_append_byte (w := 16), toNat_append_byte (w := 8)]
  omega

/-- Behind an appended byte every byte of the field stands where it stood, eight bits higher. -/
theorem extractByte_append {v : Nat} {x : BitVec v} (b : Byte) (start : Nat) :
    (x ++ b).extractLsb' (start + 8) 8 = x.extractLsb' start 8 :=
  BitVec.extractLsb'_append_eq_of_le (Nat.le_add_left 8 start)

/-- The 16-bit value of two bytes gives them back (rules R110, R112). -/
theorem enc16_be16 (b0 b1 : Byte) : enc16 (be16 b0 b1) = [b0, b1] := by
  unfold enc16 be16
  rw [BitVec.extractLsb'_append_eq_left, BitVec.extractLsb'_append_eq_right]

/-- The 32-bit value of four bytes gives them back (rules R111, R113): each is moved down to the last place, past the
bytes behind it, and read there. -/
theorem enc32_be32 (b0 b1 b2 b3 : Byte) : enc32 (be32 b0 b1 b2 b3) = [b0, b1, b2, b3] := by
  unfold enc32 be32
  rw [extractByte_append b3 16, extractByte_append b3 8, extractByte_append b3 0, extractByte_append b2 8,
    extractByte_append b2 0]
  rw [BitVec.extractLsb'_append_eq_left, BitVec.extractLsb'_append_eq_right, BitVec.extractLsb'_append_eq_right,
    BitVec.extractLsb'_append_eq_right]

/-! ## The data request, decoded and encoded again -/

/-- A buffer that decodes to a request holds the request's bytes at its six positions (rule R114). -/
theorem fieldBytes_of_decodeDataRequest {p : Config.Params} {cdb : List Byte} {lba : Word32} {cnt : Word16}
    (h : decodeDataRequest p cdb = .ok (lba, cnt)) :
    (dataRequestPositions p).map (cdb[·]?) = (enc32 lba ++ enc16 cnt).map some := by
  obtain ⟨l0, hl0, h⟩ := exceptBind_eq_ok h
  obtain ⟨l1, hl1, h⟩ := exceptBind_eq_ok h
  obtain ⟨l2, hl2, h⟩ := exceptBind_eq_ok h
  obtain ⟨l3, hl3, h⟩ := exceptBind_eq_ok h
  obtain ⟨c0, hc0, h⟩ := exceptBind_eq_ok h
  obtain ⟨c1, hc1, h⟩ := exceptBind_eq_ok h
  cases h
  rw [enc32_be32, enc16_be16]
  simp [dataRequestPositions, getElem?_of_cdbByte hl0, getElem?_of_cdbByte hl1, getElem?_of_cdbByte hl2,
    getElem?_of_cdbByte hl3, getElem?_of_cdbByte hc0, getElem?_of_cdbByte hc1]

/-- Two buffers that decode to the same request hold the same field bytes (rule R114). -/
theorem getElem?_eq_of_decodeDataRequest_eq {p : Config.Params} {cdb cdb' : List Byte} {req : Word32 × Word16}
    (h : decodeDataRequest p cdb = .ok req) (h' : decodeDataRequest p cdb' = .ok req) :
    ∀ k ∈ dataRequestPositions p, cdb[k]? = cdb'[k]? :=
  List.map_inj_left.1 ((fieldBytes_of_decodeDataRequest h).trans (fieldBytes_of_decodeDataRequest h').symm)

/-- Encoding a decoded request again gives the field bytes back and zeros elsewhere (rules R115, R116): the new buffer
decodes to the same request. -/
theorem getElem?_encodeDataRequest_of_decode {p : Config.Params} (hfit : FieldsFit (dataRequestPositions p) 10)
    {cdb : List Byte} {lba : Word32} {cnt : Word16} (hdec : decodeDataRequest p cdb = .ok (lba, cnt)) (op : Byte)
    {k : Nat} (h0 : 0 < k) (hk : k < 10) :
    (encodeDataRequest p op lba cnt)[k]? = if k ∈ dataRequestPositions p then cdb[k]? else some 0 := by
  split_ifs with hfield
  · exact getElem?_eq_of_decodeDataRequest_eq (decodeDataRequest_encodeDataRequest hfit op lba cnt) hdec k hfield
  · exact getElem?_encodeFields_other h0 hk hfield

end Sys2Proof
end

section
/-! The statement about the field functions and the data request. -/

namespace Sys2Proof.Machine

/-- Settles O52: the field functions undo each other (`enc16_be16`, `be16_extract` and the same for 32 bits), so the
decoder and the encoder of the data request do (`decodeDataRequest_encodeDataRequest`,
`getElem?_encodeDataRequest_of_decode`). -/
theorem codecRoundTrips : Obligations.CodecRoundTrips := by
  refine ⟨fun b0 b1 => ⟨enc16_be16 b0 b1, toNat_be16 b0 b1⟩, fun v => ⟨_, _, rfl, be16_extract v⟩,
    fun b0 b1 b2 b3 => ⟨enc32_be32 b0 b1 b2 b3, toNat_be32 b0 b1 b2 b3⟩,
    fun v => ⟨_, _, _, _, rfl, be32_extract v⟩, fun _ _ _ => rfl, fun p hfit => ?_⟩
  refine ⟨decodeDataRequest_encodeDataRequest hfit, fun op cdb lba cnt _ hdec => ?_⟩
  exact ⟨length_encodeFields .., getElem?_encodeFields_zero hfit (by decide),
    fun _ h0 hk => getElem?_encodeDataRequest_of_decode hfit hdec op h0 hk⟩

end Sys2Proof.Machine
end

section
/-! The lifecycle operations, and how the run-state and the binding move. -/

namespace Sys2Proof.Machine

/-- Every host operation guarded by `onTarget` is F_UNINIT on a target never initialised (rule R262). -/
theorem onTarget_uninit {s : State} (hs : s.phase = .uninit) (k : State → Host.Outcome State Fault Refusal) :
    onTarget s k = .fault .uninit := by
  unfold onTarget; rw [hs]

/-- Only INIT is accepted on a target never initialised (rule R262). -/
theorem exec_uninit {i : Instr} {s : State} (hi : i ≠ .init) (hs : s.phase = .uninit) : exec i s = .fault .uninit := by
  obtain ⟨k, hk⟩ := exec_guarded i hi
  rw [hk, onTarget_uninit hs]

theorem execStart_idle {ref : Nat} {s : State} (hs : s.Idle) :
    execStart ref s = .next (State.returns { s with cfg := some ref, run := .ready } .nothing) := onTarget_idle hs _

theorem execStop_idle {s : State} (hs : s.Idle) :
    execStop s = .next (State.returns { s with cfg := none, run := .stopped } .nothing) := onTarget_idle hs _

theorem execResidue_idle {s : State} (hs : s.Idle) : execResidue s = .next (s.returns (.residue s.residue)) :=
  onTarget_idle hs _

/-- INIT needs no initialised target, only one on which nothing runs (rules R130, R265). -/
theorem execInit_of_not_stuck {s : State} (hs : ∀ call, s.phase ≠ .stuck call) : execInit s = .next s.afterInit := by
  unfold execInit
  cases hp : s.phase with
  | stuck call => exact absurd hp (hs call)
  | uninit => rfl
  | idle => rfl

/-- Settles O2: nothing runs on the target, so INIT leaves `afterInit` (`execInit_of_not_stuck`). -/
theorem initResetsTheFourFields : Obligations.InitResetsTheFourFields :=
  fun _ hs => execInit_of_not_stuck hs

/-- Settles O3: an idle target passes START's guard `onTarget`, one never initialised does not (`exec_uninit`). -/
theorem startBindsAndMakesReady : Obligations.StartBindsAndMakesReady :=
  fun _ _ => ⟨fun hs => execStart_idle hs, exec_uninit (by simp)⟩

/-- Settles O4: an idle target passes STOP's guard `onTarget`, one never initialised does not (`exec_uninit`). -/
theorem stopUnbindsAndStops : Obligations.StopUnbindsAndStops :=
  fun _ => ⟨fun hs => execStop_idle hs, exec_uninit (by simp)⟩

/-- Settles O5: an idle target passes RESIDUE's guard `onTarget`, one never initialised does not (`exec_uninit`). -/
theorem residueReturnsTheRegister : Obligations.ResidueReturnsTheRegister :=
  fun _ => ⟨fun hs => execResidue_idle hs, exec_uninit (by simp)⟩

theorem execStart_next {ref : Nat} {s t : State} (h : execStart ref s = .next t) : t.run = .ready ∧ t.cfg = some ref := by
  obtain ⟨-, ⟨⟩⟩ := onTarget_next h
  exact ⟨rfl, rfl⟩

theorem execStop_next {s t : State} (h : execStop s = .next t) : t.run = .stopped ∧ t.cfg = none := by
  obtain ⟨-, ⟨⟩⟩ := onTarget_next h
  exact ⟨rfl, rfl⟩

/-- A handler started after step 1 of EXECUTE leaves the run-state and the binding of the EXECUTE (rule R156). -/
theorem Framed.keeps_runState {s t : State} {rs : Bool} (h : Framed (s.enterExecute rs) t) :
    t.run = s.run ∧ t.cfg = s.cfg :=
  ⟨h.run.trans (s.enterExecute_run rs), h.cfg.trans (s.enterExecute_cfg rs)⟩

/-- The run-state machine (rules R135, R156): an operation stops and unbinds, makes ready and binds, or keeps both. -/
theorem exec_runState {i : Instr} {s t : State} (h : exec i s = .next t) :
    ((i = .init ∨ i = .stop) ∧ t.run = .stopped ∧ t.cfg = none) ∨
    (∃ ref, i = .start ref ∧ t.run = .ready ∧ t.cfg = some ref) ∨ (t.run = s.run ∧ t.cfg = s.cfg) := by
  cases exec_next h with
  | init => exact .inl ⟨.inl rfl, rfl, rfl⟩
  | stop _ => exact .inl ⟨.inr rfl, rfl, rfl⟩
  | start ref _ => exact .inr (.inl ⟨ref, rfl, rfl, rfl⟩)
  | residue _ => exact .inr (.inr ⟨rfl, rfl⟩)
  | returned _ _ hframe _ _ => exact .inr (.inr hframe.keeps_runState)
  | hangs _ _ hframe _ _ _ => exact .inr (.inr hframe.keeps_runState)

/-- Settles O8: INIT, START and STOP leave what they write (`execInit_next`, `execStart_next`, `execStop_next`), every
other operation keeps both fields (`exec_runState`), and in each of the three ways a binding goes with READY. -/
theorem onlyLifecycleOperationsMoveTheRunState : Obligations.OnlyLifecycleOperationsMoveTheRunState := by
  intro i s t h
  refine ⟨?init, ?start, ?stop, ?others, ?uninit, ?binding⟩
  case init =>
    rintro rfl
    cases execInit_next h
    exact ⟨rfl, rfl⟩
  case start =>
    rintro ref rfl
    exact execStart_next h
  case stop =>
    rintro rfl
    exact execStop_next h
  case others =>
    intro hinit hstart hstop
    rcases exec_runState h with ⟨hi | hi, -⟩ | ⟨ref, hi, -⟩ | hkept
    · exact absurd hi hinit
    · exact absurd hi hstop
    · exact absurd hi (hstart ref)
    · exact hkept
  case uninit =>
    intro hs
    by_contra hi
    exact absurd (h.symm.trans (exec_uninit hi hs)) (by simp)
  case binding =>
    intro hbinding
    rcases exec_runState h with ⟨-, hrun, hcfg⟩ | ⟨_, -, hrun, hcfg⟩ | ⟨hrun, hcfg⟩
    · simp [hrun, hcfg]
    · simp [hrun, hcfg]
    · rw [hrun, hcfg]
      exact hbinding

end Sys2Proof.Machine
end

section
/-! The run-state gates nothing: every computation an EXECUTE is made of commutes with a change of the run-state. -/

namespace Sys2Proof.Machine

/-- The state with another run-state. -/
def State.withRun (s : State) (x : RunState) : State := { s with run := x }

@[simp] theorem State.withRun_phase (s : State) (x : RunState) : (s.withRun x).phase = s.phase := rfl
@[simp] theorem State.withRun_cfg (s : State) (x : RunState) : (s.withRun x).cfg = s.cfg := rfl
@[simp] theorem State.withRun_mem (s : State) (x : RunState) : (s.withRun x).mem = s.mem := rfl
@[simp] theorem State.withRun_latch (s : State) (x : RunState) : (s.withRun x).latch = s.latch := rfl
@[simp] theorem State.withRun_params (s : State) (x : RunState) : (s.withRun x).params = s.params := rfl

/-- The same end of a computation, with another run-state in its state. -/
def Run.withRun {α : Type} (x : RunState) : Run α → Run α
  | .done a s => .done a (s.withRun x)
  | .stuck s => .stuck (s.withRun x)
  | .fault f => .fault f

/-- The same outcome, with another run-state in its next state. -/
def outcomeWithRun (x : RunState) : Host.Outcome State Fault Refusal → Host.Outcome State Fault Refusal
  | .next s => .next (s.withRun x)
  | .fault f => .fault f
  | .refused r => .refused r

theorem State.enterExecute_withRun (s : State) (x : RunState) (rs : Bool) :
    (s.withRun x).enterExecute rs = (s.enterExecute rs).withRun x := by
  unfold State.enterExecute
  rw [State.withRun_params]
  split <;> rfl

/-! ## What a computation is made of -/

section Combinators

variable {α β : Type} {x : RunState} {s : State}

theorem ite_withRun {p : Prop} [Decidable p] {r r' q q' : Run α} (hr : r' = r.withRun x) (hq : q' = q.withRun x) :
    (if p then r' else q') = (if p then r else q).withRun x := by
  rw [hr, hq, apply_ite (Run.withRun x)]

theorem bind_withRun {r r' : Run α} {k : α → State → Run β} (hr : r' = r.withRun x)
    (hk : ∀ a t, k a (t.withRun x) = (k a t).withRun x) : r'.bind k = (r.bind k).withRun x := by
  subst hr
  cases r with
  | done a t => exact hk a t
  | stuck t => rfl
  | fault f => rfl

theorem withRecord_withRun {k k' : Nat → Configuration → Run α} (hk : ∀ ref c, k' ref c = (k ref c).withRun x) :
    withRecord (s.withRun x) k' = (withRecord s k).withRun x := by
  obtain rfl : k' = fun ref c => (k ref c).withRun x := funext₂ hk
  unfold withRecord
  rw [State.withRun_cfg, State.withRun_mem]
  cases s.cfg with
  | none => rfl
  | some ref => dsimp only; cases s.mem.read ref <;> rfl

theorem portCall_withRun {h : Handle} {limit : Word32} {call : PortCall} {k : Answer → State → Run α}
    (hk : ∀ a t, k a (t.withRun x) = (k a t).withRun x) :
    portCall (s.withRun x) h limit call k = (portCall s h limit call k).withRun x :=
  ite_withRun (hk _ s.consume) rfl

end Combinators

/-! ## The port calls and the handlers -/

section Handlers

variable (s : State) (x : RunState)

theorem devInfo_withRun : devInfo (s.withRun x) = (devInfo s).withRun x :=
  withRecord_withRun fun _ _ => portCall_withRun fun _ _ => rfl

theorem devRead_withRun (lba : Word32) : devRead lba (s.withRun x) = (devRead lba s).withRun x :=
  withRecord_withRun fun _ _ => portCall_withRun fun _ _ => rfl

theorem devWrite_withRun (lba : Word32) : devWrite lba (s.withRun x) = (devWrite lba s).withRun x :=
  withRecord_withRun fun _ _ => portCall_withRun fun _ _ => rfl

theorem trRx_withRun (len : Word32) : trRx len (s.withRun x) = (trRx len s).withRun x :=
  withRecord_withRun fun _ _ => portCall_withRun fun _ _ => rfl

theorem trTx_withRun (call : PortCall) (bytes : List Byte) (len : Word32) :
    trTx call bytes len (s.withRun x) = (trTx call bytes len s).withRun x :=
  withRecord_withRun fun _ _ => portCall_withRun fun _ _ => ite_withRun rfl rfl

theorem transmitData_withRun (bytes : List Byte) (len : Word32) :
    transmitData bytes len (s.withRun x) = (transmitData bytes len s).withRun x :=
  bind_withRun (trTx_withRun s x _ _ _) fun _ _ => ite_withRun rfl rfl

theorem inquiryHandler_withRun (flags page : Byte) :
    inquiryHandler flags page (s.withRun x) = (inquiryHandler flags page s).withRun x :=
  ite_withRun (withRecord_withRun fun _ _ => ite_withRun (transmitData_withRun s x _ _) rfl) rfl

theorem requestSenseHandler_withRun (r1 r2 r3 alloc : Byte) :
    requestSenseHandler r1 r2 r3 alloc (s.withRun x) = (requestSenseHandler r1 r2 r3 alloc s).withRun x :=
  ite_withRun (transmitData_withRun s x _ _) rfl

theorem readCapacityHandler_withRun : readCapacityHandler (s.withRun x) = (readCapacityHandler s).withRun x :=
  bind_withRun (devInfo_withRun s x) fun _ t => transmitData_withRun t x _ _

theorem modeSenseHandler_withRun : modeSenseHandler (s.withRun x) = (modeSenseHandler s).withRun x :=
  bind_withRun (devInfo_withRun s x) fun _ t => transmitData_withRun t x _ _

theorem moveBlock_withRun : moveBlock (s.withRun x) = (moveBlock s).withRun x := by
  unfold moveBlock
  rw [State.withRun_latch]
  cases s.latch.dir with
  | read =>
    exact bind_withRun (devRead_withRun s x _) fun _ t => withRecord_withRun fun _ _ =>
      bind_withRun (trTx_withRun t x _ _ _) fun _ _ => rfl
  | write => exact bind_withRun (trRx_withRun s x _) fun _ t => devWrite_withRun t x _

theorem blockLoop_withRun (n : Nat) : ∀ s : State, blockLoop n (s.withRun x) = (blockLoop n s).withRun x := by
  induction n with
  | zero => exact fun _ => rfl
  | succ n ih => exact fun s => bind_withRun (moveBlock_withRun s x) fun _ t => ih (t.setIdx (t.latch.idx + 1))

theorem transferBlocks_withRun : transferBlocks (s.withRun x) = (transferBlocks s).withRun x :=
  withRecord_withRun fun _ _ =>
    ite_withRun rfl (bind_withRun (blockLoop_withRun x _ (s.setIdx 0)) fun _ _ => rfl)

theorem dataTransfer_withRun (dir : Direction) (lba : Word32) (cnt : Word16) :
    dataTransfer dir lba cnt (s.withRun x) = (dataTransfer dir lba cnt s).withRun x :=
  bind_withRun (devInfo_withRun (s.latchRequest lba cnt dir) x) fun g t =>
    ite_withRun (transferBlocks_withRun (t.latchGeometry g) x) rfl

end Handlers

/-! ## EXECUTE -/

theorem onTarget_withRun {s : State} {x : RunState} {k : State → Host.Outcome State Fault Refusal}
    (hk : k (s.withRun x) = outcomeWithRun x (k s)) : onTarget (s.withRun x) k = outcomeWithRun x (onTarget s k) := by
  unfold onTarget
  rw [State.withRun_phase]
  cases s.phase with
  | uninit => rfl
  | stuck call => rfl
  | idle => exact hk

theorem runExecute_withRun {rs : Bool} {handler : State → Run Status} {s : State} {x : RunState}
    (hh : ∀ t, handler (t.withRun x) = (handler t).withRun x) :
    runExecute rs handler (s.withRun x) = outcomeWithRun x (runExecute rs handler s) := by
  refine onTarget_withRun ?_
  rw [State.enterExecute_withRun, hh]
  cases handler (s.enterExecute rs) <;> rfl

/-- No command reads the run-state (rule R136). -/
theorem command_withRun {i : Instr} (hi : i.isCommand = true) (s : State) (x : RunState) :
    exec i (s.withRun x) = outcomeWithRun x (exec i s) := by
  cases i with
  | tur => exact runExecute_withRun fun _ => rfl
  | reqsense r1 r2 r3 alloc => exact runExecute_withRun fun t => requestSenseHandler_withRun t x r1 r2 r3 alloc
  | inquiry flags page => exact runExecute_withRun fun t => inquiryHandler_withRun t x flags page
  | modesense6 => exact runExecute_withRun fun t => modeSenseHandler_withRun t x
  | prevallow => exact runExecute_withRun fun _ => rfl
  | readcap10 => exact runExecute_withRun fun t => readCapacityHandler_withRun t x
  | read10 lba cnt => exact runExecute_withRun fun t => dataTransfer_withRun t x .read lba cnt
  | write10 lba cnt => exact runExecute_withRun fun t => dataTransfer_withRun t x .write lba cnt
  | unknown op => exact runExecute_withRun fun _ => rfl
  | init => cases hi
  | start ref => cases hi
  | stop => cases hi
  | residue => cases hi
  | execute cdb => cases hi

/-- The decoder does not read the run-state, and the command it selects does not (rule R136). -/
theorem execExecute_withRun (cdb : List Byte) (s : State) (x : RunState) :
    execExecute cdb (s.withRun x) = outcomeWithRun x (execExecute cdb s) := by
  unfold execExecute
  refine onTarget_withRun ?_
  rw [State.withRun_params]
  cases hd : decode s.params cdb with
  | ok j =>
    have hj := decode_isCommand hd
    dsimp only
    rw [runCommand_eq_exec hj, runCommand_eq_exec hj]
    exact command_withRun hj s x
  | error e => rfl

/-- Settles O9: every computation an EXECUTE is made of commutes with a change of the run-state, so the nine commands
do (`command_withRun`) and EXECUTE of a buffer does (`execExecute_withRun`). -/
theorem runStateGatesNoExecute : Obligations.RunStateGatesNoExecute := by
  intro i s x hi
  have hblind : exec i (s.withRun x) = outcomeWithRun x (exec i s) := by
    rcases hi with hc | ⟨cdb, rfl⟩
    · exact command_withRun hc s x
    · exact execExecute_withRun cdb s x
  refine hblind.trans ?_
  cases exec i s <;> rfl

end Sys2Proof.Machine
end

section
/-! The statements about the sense record: what `setSense` stores, byte for byte, and the named records. -/

namespace Sys2Proof.Machine

/-- A byte of the record `setSense` stores (rule R140): of the five stores the last one at the byte's offset stands. -/
theorem getElem_senseRecord (p : Config.Params) (key code qualifier : Byte) (i : Fin Config.senseLen) :
    (senseRecord p key code qualifier)[i] =
      if i = p.senseOffAscq then qualifier else if i = p.senseOffAsc then code
      else if i = p.senseOffAddLen then Config.senseAddLen else if i = p.senseOffKey then key
      else if i = p.senseOffResponseCode then Config.senseResponseCode else 0 := by
  simp only [senseRecord, Fin.getElem_fin, Vector.getElem_set, Vector.getElem_replicate, Fin.val_inj,
    eq_comm (b := i)]

/-- The record `setSense` stores with the default offsets: byte for byte the layout of rule R140. -/
theorem toList_senseRecord_defaultParams (key code qualifier : Byte) :
    (senseRecord Config.defaultParams key code qualifier).toList =
      [0x70, 0, key, 0, 0, 0, 0, 8, 0, 0, 0, 0, code, qualifier, 0, 0, 0, 0] := rfl

/-- A byte of the record `setSense` stores with the default offsets, which are pairwise different. -/
theorem getElem_senseRecord_defaultParams (key code qualifier : Byte) (i : Fin Config.senseLen) :
    (senseRecord Config.defaultParams key code qualifier)[i] =
      if i.val = 0 then 0x70 else if i.val = 2 then key else if i.val = 7 then 8 else if i.val = 12 then code
      else if i.val = 13 then qualifier else 0 := by
  fin_cases i <;> rfl

/-- Settles O10: the bytes at the machine's offsets are `getElem_senseRecord`, those at the default offsets
`getElem_senseRecord_defaultParams`, and `setSense` updates the one field. -/
theorem setSenseStoresAllEighteenBytes : Obligations.SetSenseStoresAllEighteenBytes := by
  intro s key code qualifier
  refine ⟨getElem_senseRecord s.params key code qualifier, fun hp i hi => ?_, rfl⟩
  have hbyte := getElem_senseRecord_defaultParams key code qualifier ⟨i, hi⟩
  rwa [← hp] at hbyte

/-- Settles O11: with the defaults every named record is `toList_senseRecord_defaultParams` at its code values, and from
the machine's own it is the record `setSense` stores by definition. -/
theorem namedSenseRecordsHaveTheirBytes : Obligations.NamedSenseRecordsHaveTheirBytes :=
  ⟨rfl, toList_senseRecord_defaultParams _ _ _, toList_senseRecord_defaultParams _ _ _,
    toList_senseRecord_defaultParams _ _ _, toList_senseRecord_defaultParams _ _ _, fun _ => ⟨rfl, rfl, rfl, rfl, rfl⟩⟩

end Sys2Proof.Machine
end

section
/-! Where the calls of an EXECUTE are not needed or cannot be made: commands without a port call, fields that are not
valid, and an unbound target. -/

namespace Sys2Proof.Machine

variable {s : State}

/-- On an idle target a handler that finishes is an EXECUTE that returns its status. -/
theorem runExecute_done {rs : Bool} {handler : State → Run Status} {st : Status} {u : State} (hs : s.Idle)
    (h : handler (s.enterExecute rs) = .done st u) : runExecute rs handler s = .next (u.returns (.status st)) := by
  rw [runExecute_idle hs, h]; rfl

/-- A reported error overwrites whatever record step 1 left, under either policy (rules R151, R230). -/
theorem runExecute_failed {rs : Bool} {handler : State → Run Status} {key code qualifier : Byte} (hs : s.Idle)
    (h : handler (s.enterExecute rs) = failWith key code qualifier (s.enterExecute rs)) :
    runExecute rs handler s =
      .next { s with sense := senseRecord s.params key code qualifier, ret := .status .failed } := by
  rw [runExecute_done hs h]
  unfold State.enterExecute
  split <;> rfl

theorem exec_unknown_idle (hs : s.Idle) (op : Byte) :
    exec (.unknown op) s = .next { s with sense := senseInvalidCommand s.params, ret := .status .failed } :=
  runExecute_failed hs (by simp [failInvalidCommand])

theorem failInvalidField_enterExecute (s : State) (rs : Bool) :
    failInvalidField (s.enterExecute rs) = failWith s.params.keyIllegalRequest s.params.ascInvalidFieldInCdb
      s.params.ascqNoQualifier (s.enterExecute rs) := by
  simp [failInvalidField]

theorem exec_inquiry_invalid (hs : s.Idle) {flags page : Byte}
    (hv : ¬ (flags &&& s.params.inqEvpdMask = 0 ∧ page = 0)) :
    exec (.inquiry flags page) s = .next { s with sense := senseInvalidField s.params, ret := .status .failed } := by
  refine runExecute_failed hs ((if_neg ?_).trans (failInvalidField_enterExecute s false))
  simpa [inquiryFieldsValid] using hv

theorem exec_reqsense_invalid (hs : s.Idle) {r1 r2 r3 alloc : Byte}
    (hv : ¬ (r1 = 0 ∧ r2 = 0 ∧ r3 = 0 ∧ alloc = 18)) :
    exec (.reqsense r1 r2 r3 alloc) s =
      .next { s with sense := senseInvalidField s.params, ret := .status .failed } := by
  refine runExecute_failed hs ((if_neg ?_).trans (failInvalidField_enterExecute s true))
  simpa [requestSenseFieldsValid] using hv

/-! ## An unbound target (rule R157) -/

theorem devInfo_unbound (h : s.cfg = none) : devInfo s = .fault .noCfg := withRecord_unbound h _

theorem transmitData_unbound (h : s.cfg = none) (bytes : List Byte) (len : Word32) :
    transmitData bytes len s = .fault .noCfg := by
  unfold transmitData trTx; rw [withRecord_unbound h]; rfl

theorem dataTransfer_unbound (h : s.cfg = none) (dir : Direction) (lba : Word32) (cnt : Word16) :
    dataTransfer dir lba cnt s = .fault .noCfg := by
  unfold dataTransfer; rw [devInfo_unbound (s := s.latchRequest lba cnt dir) h]; rfl

theorem readCapacityHandler_unbound (h : s.cfg = none) : readCapacityHandler s = .fault .noCfg := by
  unfold readCapacityHandler; rw [devInfo_unbound h]; rfl

theorem modeSenseHandler_unbound (h : s.cfg = none) : modeSenseHandler s = .fault .noCfg := by
  unfold modeSenseHandler; rw [devInfo_unbound h]; rfl

theorem inquiryHandler_unbound (h : s.cfg = none) {flags page : Byte}
    (hv : flags &&& s.params.inqEvpdMask = 0 ∧ page = 0) : inquiryHandler flags page s = .fault .noCfg :=
  (if_pos (by simpa [inquiryFieldsValid] using hv)).trans (withRecord_unbound h _)

theorem requestSenseHandler_unbound (h : s.cfg = none) {r1 r2 r3 alloc : Byte}
    (hv : r1 = 0 ∧ r2 = 0 ∧ r3 = 0 ∧ alloc = 18) : requestSenseHandler r1 r2 r3 alloc s = .fault .noCfg :=
  (if_pos (by simpa [requestSenseFieldsValid] using hv)).trans (transmitData_unbound h _ _)

/-! ## The statements -/

/-- Settles O13: both commands are the handler without data (`runExecute_noOp`). -/
theorem noDataCommandsAlwaysSucceed : Obligations.NoDataCommandsAlwaysSucceed :=
  fun _ hs => ⟨runExecute_noOp hs, runExecute_noOp hs⟩

/-- Settles O17: a buffer decodes to a command (`decode_isCommand`), and EXECUTE runs it (`exec_execute_of_decode`). -/
theorem executeRunsTheDecodedCommand : Obligations.ExecuteRunsTheDecodedCommand := by
  intro cdb i s hd
  obtain ⟨hexec, hcommand⟩ := exec_execute_of_decode s hd
  exact ⟨decode_isCommand hd, hexec.trans hcommand⟩

/-- Settles O15: such a buffer decodes to the unknown command (`decode_unknown`), which fails whatever its opcode. -/
theorem unknownOpcodesFailWithInvalidCommand : Obligations.UnknownOpcodesFailWithInvalidCommand := by
  intro s op rest hs hop
  obtain ⟨-, hexec⟩ := executeRunsTheDecodedCommand _ _ s (decode_unknown rest hop)
  exact ⟨hexec.trans (exec_unknown_idle hs op), exec_unknown_idle hs op⟩

/-- Settles O21: a command without a port call does not look at the binding, nor does one whose fields are not valid;
every other handler's first port call is F_NOCFG. -/
theorem commandsOnAnUnboundTarget : Obligations.CommandsOnAnUnboundTarget := by
  intro s hs hcfg
  have hcfg' (rs : Bool) : (s.enterExecute rs).cfg = none := by simpa using hcfg
  refine ⟨runExecute_noOp hs, runExecute_noOp hs, exec_unknown_idle hs, fun flags page => ?_,
    fun r1 r2 r3 alloc => ?_, runExecute_fault hs (readCapacityHandler_unbound (hcfg' false)),
    runExecute_fault hs (modeSenseHandler_unbound (hcfg' false)),
    fun lba cnt => ⟨runExecute_fault hs (dataTransfer_unbound (hcfg' false) _ _ _),
      runExecute_fault hs (dataTransfer_unbound (hcfg' false) _ _ _)⟩⟩
  · split_ifs with hv
    · exact runExecute_fault hs (inquiryHandler_unbound (hcfg' false) (by simpa using hv))
    · exact exec_inquiry_invalid hs hv
  · split_ifs with hv
    · exact runExecute_fault hs (requestSenseHandler_unbound (hcfg' true) hv)
    · exact exec_reqsense_invalid hs hv

end Sys2Proof.Machine
end

section
/-! What an EXECUTE leaves: the frame of all of them, how a command with a fixed response ends, and how a data command
fails. -/

namespace Sys2Proof.Machine

/-! ## Every EXECUTE -/

/-- An EXECUTE that returned something is over, and what it returned is a status (rules R97, R237). -/
theorem isExecute_returned {i : Instr} {s t : State} (hi : isExecute i) (h : exec i s = .next t)
    (hret : t.ret ≠ .nothing) : t.Idle ∧ ∃ st, t.ret = .status st := by
  obtain ⟨j, -, hj, hexec⟩ := exists_runsCommand hi h
  obtain ⟨-, rs, ⟨st, u, -, hphase, -, rfl⟩ | ⟨hframe, -⟩⟩ := command_next hj hexec
  · exact ⟨hphase, st, rfl⟩
  · exact absurd (hframe.ret.trans (s.enterExecute_ret rs)) hret

/-- Settles O45: an EXECUTE that returned nothing met a scripted answer that was never given
(`command_scripted_of_nothing`), and one that returned something is over (`isExecute_returned`). -/
theorem executeReturnsAndNothingIsFatal : Obligations.ExecuteReturnsAndNothingIsFatal := by
  intro i s t hi hanswers h
  refine isExecute_returned hi h fun hret => ?_
  obtain ⟨j, -, hj, hexec⟩ := exists_runsCommand hi h
  obtain ⟨a, hmem, hsilent⟩ := command_scripted_of_nothing hj hexec hret
  exact absurd (hanswers a hmem) (by simp [hsilent])

/-- What no EXECUTE changes (rule R156): the run-state, the binding, the parameters, the caller's actions, and of the
records all but the bound one's buffer. -/
theorem isExecute_keeps {i : Instr} {s t : State} (hi : isExecute i) (h : exec i s = .next t) :
    t.run = s.run ∧ t.cfg = s.cfg ∧ t.params = s.params ∧ t.callers = s.callers ∧ MemKeeps s.cfg s.mem t.mem := by
  obtain ⟨j, -, hj, hexec⟩ := exists_runsCommand hi h
  have keeps {u : State} {rs : Bool} (hframe : Framed (s.enterExecute rs) u) :
      u.run = s.run ∧ u.cfg = s.cfg ∧ u.params = s.params ∧ u.callers = s.callers ∧ MemKeeps s.cfg s.mem u.mem :=
    ⟨by simp [hframe.run], by simp [hframe.cfg], by simp [hframe.params], by simp [hframe.callers],
      by simpa using hframe.mem⟩
  obtain ⟨-, rs, ⟨st, u, hframe, -, -, rfl⟩ | ⟨hframe, -⟩⟩ := command_next hj hexec
  · exact keeps (u := u) hframe
  · exact keeps hframe

/-- Under the default policy step 1 makes the record OK for every command (rule R151). -/
theorem entrySense_always {s : State} (h : s.params.policy = .alwaysAtEntry) (rs : Bool) :
    entrySense s rs = senseOk s.params := by
  simp [entrySense, resetsSense, h]

/-- Under the default policy a command that did not fail leaves the no-error record (rule R151). -/
theorem command_sense_of_not_failed {i : Instr} {s t : State} (hp : s.params.policy = .alwaysAtEntry)
    (hi : i.isCommand = true) (h : exec i s = .next t) (hret : t.ret ≠ .status .failed) :
    t.sense = senseOk s.params := by
  obtain ⟨-, rs, ⟨st, u, -, -, hend, rfl⟩ | ⟨-, -, hsense, -⟩⟩ := command_next hi h
  · cases hend with
    | good hsense _ => simpa [entrySense_always hp] using hsense
    | short _ _ => exact absurd rfl hret
    | error _ _ => exact absurd rfl hret
  · exact hsense.trans (entrySense_always hp rs)

/-- What is known of how a handler ends is known of its EXECUTE. -/
theorem runExecute_ends {rs : Bool} {handler : State → Run Status} {s t : State} {P : Status → State → Prop}
    {Q : State → Prop} (hends : (handler (s.enterExecute rs)).Ends P Q) (h : runExecute rs handler s = .next t) :
    (∃ st u, P st u ∧ t = u.returns (.status st)) ∨ Q t := by
  rcases (runExecute_next h).2 with ⟨st, u, hdone, rfl⟩ | hstuck
  · rw [hdone] at hends
    exact .inl ⟨st, u, hends, rfl⟩
  · rw [hstuck] at hends
    exact .inr hends

/-! ## Commands with a fixed response -/

/-- Either a record is bound or every use of the configuration is a fault (rule R157). -/
theorem exists_bound_or_fault (s : State) : (∃ ref c, s.Bound ref c) ∨
    ∃ f, ∀ {α : Type} (k : Nat → Configuration → Run α), withRecord s k = .fault f := by
  cases hcfg : s.cfg with
  | none => exact .inr ⟨_, withRecord_unbound hcfg⟩
  | some ref =>
    cases hrec : s.mem.read ref with
    | none => exact .inr ⟨_, withRecord_dangling hcfg hrec⟩
    | some c => exact .inl ⟨ref, c, hcfg, hrec⟩

/-- `u` is `s`, or `s` after one answered geometry query. -/
inductive Queried (s : State) : State → Prop where
  | no : Queried s s
  | yes (dev : Handle) (g : Geometry) : Queried s (s.consume.emit (.getInfo dev g))

/-- The ways a handler started in `s` ends that sends a fixed response (rules R170, R173 to R175): in a fault, stuck at
its geometry query or at its transmit, or with the one transmit answered in full or short. -/
inductive Responds (s : State) : Run Status → Prop where
  | fault (f : Fault) : Responds s (.fault f)
  | hangs {u : State} (call : PortCall) : Queried s u → Responds s (.stuck (u.stuckAt call))
  | full {u : State} (tr : Handle) (bytes : List Byte) (len : Word32) : Queried s u →
      Responds s (.done .success (u.consume.emit (.tx tr bytes len len)))
  | short {u : State} (tr : Handle) (bytes : List Byte) {len sent : Word32} : sent < len → Queried s u →
      Responds s (.done .failed ((u.consume.emit (.tx tr bytes len sent)).setResidue (len - sent)))

theorem transmitData_responds {s u : State} (hu : Queried s u) (bytes : List Byte) (len : Word32) :
    Responds s (transmitData bytes len u) := by
  rcases exists_bound_or_fault u with ⟨ref, c, hb⟩ | ⟨f, hf⟩
  swap
  · have hfault : transmitData bytes len u = .fault f := by unfold transmitData trTx; rw [hf]; rfl
    exact hfault ▸ .fault f
  cases hr : (u.answer c.tr len).responds with
  | false => exact transmitData_stuck hb bytes len hr ▸ .hangs _ hu
  | true =>
    by_cases hle : (u.answer c.tr len).count ≤ len
    · rw [transmitData_answered hb bytes len hr hle]
      split_ifs with hfull
      · rw [hfull]; exact .full _ _ _ hu
      · exact .short _ _ (BitVec.lt_of_le_ne hle hfull) hu
    · exact transmitData_over hb bytes len hr (BitVec.not_le.1 hle) ▸ .fault _

/-- A fixed response that is made from the geometry. -/
theorem devInfo_bind_responds (s : State) (bytes : Geometry → State → List Byte) (len : Word32) :
    Responds s ((devInfo s).bind fun g t => transmitData (bytes g t) len t) := by
  rcases exists_bound_or_fault s with ⟨ref, c, hb⟩ | ⟨f, hf⟩
  swap
  · have hfault : devInfo s = .fault f := hf _
    exact hfault ▸ .fault f
  cases hr : (s.answer c.dev 0).responds with
  | false => exact devInfo_stuck hb hr ▸ .hangs _ .no
  | true => exact devInfo_done hb hr ▸ transmitData_responds (.yes c.dev _) _ _

theorem inquiryHandler_responds (s : State) {flags page : Byte}
    (hv : flags &&& s.params.inqEvpdMask = 0 ∧ page = 0) : Responds s (inquiryHandler flags page s) := by
  unfold inquiryHandler
  rw [if_pos (by simpa [inquiryFieldsValid] using hv)]
  rcases exists_bound_or_fault s with ⟨ref, c, hb⟩ | ⟨f, hf⟩
  swap
  · unfold withTemplate; rw [hf]; exact .fault f
  by_cases hl : s.params.inquiryLen.toNat ≤ c.inq.length
  · rw [withTemplate_bound hb hl]; exact transmitData_responds .no _ _
  · rw [withTemplate_short hb (Nat.lt_of_not_le hl)]; exact .fault _

theorem requestSenseHandler_responds (s : State) {r1 r2 r3 alloc : Byte}
    (hv : r1 = 0 ∧ r2 = 0 ∧ r3 = 0 ∧ alloc = 18) : Responds s (requestSenseHandler r1 r2 r3 alloc s) := by
  unfold requestSenseHandler
  rw [if_pos (by simpa [requestSenseFieldsValid] using hv)]
  exact transmitData_responds .no _ _

/-- The commands that have a fixed response to send: their fields are valid (rules R171 to R174). -/
def SendsResponse (p : Config.Params) : Instr → Prop
  | .inquiry flags page => flags &&& p.inqEvpdMask = 0 ∧ page = 0
  | .reqsense r1 r2 r3 alloc => r1 = 0 ∧ r2 = 0 ∧ r3 = 0 ∧ alloc = 18
  | .readcap10 => True
  | .modesense6 => True
  | _ => False

theorem exec_responds {i : Instr} {s : State} (hi : SendsResponse s.params i) :
    ∃ rs handler, exec i s = runExecute rs handler s ∧ Responds (s.enterExecute rs) (handler (s.enterExecute rs)) := by
  cases i with
  | inquiry flags page =>
    exact ⟨false, inquiryHandler flags page, rfl, inquiryHandler_responds _ (by rwa [State.enterExecute_params])⟩
  | reqsense r1 r2 r3 alloc =>
    exact ⟨true, requestSenseHandler r1 r2 r3 alloc, rfl, requestSenseHandler_responds _ hi⟩
  | readcap10 => exact ⟨false, readCapacityHandler, rfl, devInfo_bind_responds _ _ _⟩
  | modesense6 => exact ⟨false, modeSenseHandler, rfl, devInfo_bind_responds _ _ _⟩
  | _ => exact hi.elim

/-- The last event since `s` is a transmit that fell short. -/
def ShortLast (s t : State) : Prop :=
  ∃ (evs : List Event) (tr : Handle) (bytes : List Byte) (len sent : Word32),
    t.trace = s.trace ++ evs ++ [.tx tr bytes len sent] ∧ sent < len

theorem not_shortLast_of_trace_eq {s t : State} (h : t.trace = s.trace) : ¬ ShortLast s t := by
  rintro ⟨evs, tr, bytes, len, sent, htrace, -⟩
  simp [h] at htrace

theorem ShortLast.lt_of_trace {s t : State} {pre : List Event} {tr : Handle} {bytes : List Byte} {len sent : Word32}
    (h : ShortLast s t) (htrace : t.trace = pre ++ [.tx tr bytes len sent]) : sent < len := by
  obtain ⟨evs, tr', bytes', len', sent', htrace', hlt⟩ := h
  have hlast := congrArg List.getLast? (htrace.symm.trans htrace')
  simp only [List.getLast?_append, List.getLast?_singleton, Option.some_or, Option.some.injEq, Event.tx.injEq] at hlast
  obtain ⟨-, -, rfl, rfl⟩ := hlast
  exact hlt

/-- A geometry query is no transmit. -/
theorem Queried.not_shortLast {s u : State} (h : Queried s u) : ¬ ShortLast s u := by
  cases h with
  | no => exact not_shortLast_of_trace_eq rfl
  | yes dev g =>
    rintro ⟨evs, tr, bytes, len, sent, htrace, -⟩
    have hlast := congrArg List.getLast? htrace
    simp at hlast

/-- A short transmit as the last event is what a fixed response fails with, and nothing else (rule R170). -/
theorem Responds.failed_of_shortLast {s : State} {r : Run Status} (h : Responds s r) :
    r.Ends (fun st t => ShortLast s t → st = .failed) (fun t => ¬ ShortLast s t) := by
  cases h with
  | fault f => exact True.intro
  | hangs call hu => exact hu.not_shortLast
  | full tr bytes len hu => exact fun hshort => absurd (hshort.lt_of_trace rfl) (BitVec.lt_irrefl len)
  | short tr bytes hlt hu => exact fun _ => rfl

theorem Queried.keeps {s u : State} (h : Queried s u) : u.mem = s.mem ∧ u.latch = s.latch ∧ u.sense = s.sense := by
  cases h with
  | no => exact ⟨rfl, rfl, rfl⟩
  | yes dev g => exact ⟨rfl, rfl, rfl⟩

/-- A fixed response touches no record, no latch and not the sense record (rules R156, R170). -/
theorem Responds.keeps {s : State} {r : Run Status} (h : Responds s r) :
    r.Ends (fun _ t => t.mem = s.mem ∧ t.latch = s.latch ∧ t.sense = s.sense)
      (fun t => t.mem = s.mem ∧ t.latch = s.latch ∧ t.sense = s.sense) := by
  cases h with
  | fault f => exact True.intro
  | hangs call hu => simpa [Run.Ends] using hu.keeps
  | full tr bytes len hu => simpa [Run.Ends] using hu.keeps
  | short tr bytes hlt hu => simpa [Run.Ends] using hu.keeps

/-- What a command with a fixed response leaves alone: the records, the latches, and the record step 1 made. -/
theorem sendsResponse_keeps {i : Instr} {s t : State} (hi : SendsResponse s.params i) (h : exec i s = .next t) :
    t.mem = s.mem ∧ t.latch = s.latch ∧ ∃ rs, t.sense = entrySense s rs := by
  obtain ⟨rs, handler, he, hresponds⟩ := exec_responds hi
  rw [he] at h
  rcases runExecute_ends hresponds.keeps h with ⟨st, u, ⟨hmem, hlatch, hsense⟩, rfl⟩ | ⟨hmem, hlatch, hsense⟩
  · exact ⟨by simp [hmem], by simp [hlatch], rs, by simp [hsense]⟩
  · exact ⟨by simp [hmem], by simp [hlatch], rs, by simp [hsense]⟩

theorem sendsResponse_failed_of_shortLast {i : Instr} {s t : State} (hi : SendsResponse s.params i)
    (h : exec i s = .next t) (hshort : ShortLast s t) : t.ret = .status .failed := by
  obtain ⟨rs, handler, he, hresponds⟩ := exec_responds hi
  rw [he] at h
  have hshort : ShortLast (s.enterExecute rs) t := by simpa [ShortLast] using hshort
  rcases runExecute_ends hresponds.failed_of_shortLast h with ⟨st, u, hfailed, rfl⟩ | hnone
  · exact congrArg Returned.status (hfailed hshort)
  · exact absurd hshort hnone

/-- Every other command but READ(10) and WRITE(10) writes the sense record and returns, and that is all. -/
theorem exec_quiet {i : Instr} {s : State} (hs : s.Idle) (hi : i.isCommand = true)
    (hdata : ∀ lba cnt, i ≠ .read10 lba cnt ∧ i ≠ .write10 lba cnt) (hn : ¬ SendsResponse s.params i) :
    ∃ sense st, exec i s = .next { s with sense := sense, ret := .status st } := by
  cases i with
  | tur => exact ⟨_, _, runExecute_noOp hs⟩
  | prevallow => exact ⟨_, _, runExecute_noOp hs⟩
  | unknown op => exact ⟨_, _, exec_unknown_idle hs op⟩
  | inquiry flags page => exact ⟨_, _, exec_inquiry_invalid hs hn⟩
  | reqsense r1 r2 r3 alloc => exact ⟨_, _, exec_reqsense_invalid hs hn⟩
  | modesense6 => exact absurd True.intro hn
  | readcap10 => exact absurd True.intro hn
  | read10 lba cnt => exact absurd rfl (hdata lba cnt).1
  | write10 lba cnt => exact absurd rfl (hdata lba cnt).2
  | _ => cases hi

/-! ## Data commands -/

/-- A data command past its range check never fails (rule R205). -/
theorem transferBlocks_done {s t : State} {st : Status} (h : transferBlocks s = .done st t) : st = .success := by
  rcases exists_bound_or_fault s with ⟨ref, c, hb⟩ | ⟨f, hf⟩
  · rw [transferBlocks_bound hb] at h
    split_ifs at h
    obtain ⟨-, u, -, hdone⟩ := Run.bind_eq_done h
    cases hdone
    rfl
  · unfold transferBlocks at h
    rw [hf] at h
    cases h

theorem transferBlocks_keeps (s : State) :
    (transferBlocks s).Ends (fun st t => Keeps s t ∧ st = .success) (Keeps s) := by
  have hframe := transferBlocks_frame s
  cases hr : transferBlocks s with
  | fault f => exact True.intro
  | stuck t =>
    rw [hr] at hframe
    exact hframe.1
  | done st t =>
    rw [hr] at hframe
    exact ⟨hframe.1, transferBlocks_done hr⟩

/-- A data command never touches the residue, and it fails only with the error of a request beyond the device (rules
R206, R209, R233). -/
theorem dataTransfer_fails_only_outOfRange (dir : Direction) (lba : Word32) (cnt : Word16) (s : State) :
    (dataTransfer dir lba cnt s).Ends
      (fun st t => t.residue = s.residue ∧ (st = .failed → t.sense = senseLbaOutOfRange s.params))
      (fun t => t.residue = s.residue ∧ t.ret = s.ret) := by
  refine Run.Ends.bind (devInfo_frame (s.latchRequest lba cnt dir)) (fun g t ⟨ht, _⟩ => ?_)
    fun t ⟨ht, _⟩ => ⟨ht.residue, ht.ret⟩
  split
  · refine (transferBlocks_keeps (t.latchGeometry g)).mono (fun st u ⟨hu, hst⟩ => ?_)
      fun u hu => ⟨hu.residue.trans ht.residue, hu.ret.trans ht.ret⟩
    exact ⟨hu.residue.trans ht.residue, fun hfailed => absurd (hst.symm.trans hfailed) (by simp)⟩
  · exact ⟨ht.residue, fun _ => congrArg senseLbaOutOfRange ht.params⟩

theorem dataCommand_next {i : Instr} {s t : State} {lba : Word32} {cnt : Word16}
    (hi : i = .read10 lba cnt ∨ i = .write10 lba cnt) (h : exec i s = .next t) :
    t.residue = s.residue ∧ (t.ret = .status .failed → t.sense = senseLbaOutOfRange s.params) := by
  obtain ⟨dir, he⟩ : ∃ dir, exec i s = runExecute false (dataTransfer dir lba cnt) s := by
    rcases hi with rfl | rfl
    · exact ⟨.read, rfl⟩
    · exact ⟨.write, rfl⟩
  rw [he] at h
  rcases runExecute_ends (dataTransfer_fails_only_outOfRange dir lba cnt _) h with
    ⟨st, u, ⟨hresidue, hfailed⟩, rfl⟩ | ⟨hresidue, hret⟩
  · exact ⟨by simp [hresidue], fun hret => by simpa using hfailed (Returned.status.inj hret)⟩
  · exact ⟨by simp [hresidue], fun hfailed => by simp [hret] at hfailed⟩

/-! ## The frame of EXECUTE -/

/-- A command that moves no block touches no record and no latch (rules R156, R175). -/
theorem command_keeps_records {i : Instr} {s t : State} (hi : i.isCommand = true)
    (hdata : ∀ lba cnt, i ≠ .read10 lba cnt ∧ i ≠ .write10 lba cnt) (h : exec i s = .next t) :
    t.mem = s.mem ∧ t.latch = s.latch := by
  by_cases hresponse : SendsResponse s.params i
  · obtain ⟨hmem, hlatch, -⟩ := sendsResponse_keeps hresponse h
    exact ⟨hmem, hlatch⟩
  · obtain ⟨sense, st, hexec⟩ := exec_quiet (command_next hi h).1 hi hdata hresponse
    cases hexec.symm.trans h
    exact ⟨rfl, rfl⟩

/-- A command that sends no fixed response leaves the residue (rule R176). -/
theorem command_keeps_residue {i : Instr} {s t : State} (hi : i.isCommand = true)
    (hn : ¬ SendsResponse s.params i) (h : exec i s = .next t) : t.residue = s.residue := by
  by_cases hdata : ∃ lba cnt, i = .read10 lba cnt ∨ i = .write10 lba cnt
  · obtain ⟨lba, cnt, hdata⟩ := hdata
    exact (dataCommand_next hdata h).1
  · obtain ⟨sense, st, hexec⟩ := exec_quiet (command_next hi h).1 hi (by simpa using hdata) hn
    cases hexec.symm.trans h
    rfl

/-- Settles O42: what no EXECUTE changes is `isExecute_keeps`; a command that moves no block keeps the records and the
latches (`command_keeps_records`), one that sends no fixed response keeps the residue (`command_keeps_residue`). -/
theorem executeChangesNothingElse : Obligations.ExecuteChangesNothingElse := by
  intro i s t hi h
  obtain ⟨hrun, hcfg, hparams, hcallers, hmem⟩ := isExecute_keeps hi h
  refine ⟨hrun, hcfg, hparams, hcallers, hmem.none, hmem.some,
    fun hc hdata => command_keeps_records hc hdata h, fun hc => ?_⟩
  rcases hc with rfl | rfl | ⟨op, rfl⟩ | ⟨lba, cnt, rfl | rfl⟩ <;> exact command_keeps_residue rfl id h

/-! ## The sense record under the default policy -/

/-- A short transmit as the last event of a command that moves no block: it failed, with the no-error record (rules
R170, R231). -/
theorem command_failed_of_shortLast {i : Instr} {s t : State} (hp : s.params.policy = .alwaysAtEntry)
    (hi : i.isCommand = true) (hdata : ∀ lba cnt, i ≠ .read10 lba cnt ∧ i ≠ .write10 lba cnt)
    (h : exec i s = .next t) (hshort : ShortLast s t) : t.ret = .status .failed ∧ t.sense = senseOk s.params := by
  by_cases hresponse : SendsResponse s.params i
  · obtain ⟨-, -, rs, hsense⟩ := sendsResponse_keeps hresponse h
    exact ⟨sendsResponse_failed_of_shortLast hresponse h hshort, hsense.trans (entrySense_always hp rs)⟩
  · obtain ⟨sense, st, hexec⟩ := exec_quiet (command_next hi h).1 hi hdata hresponse
    cases hexec.symm.trans h
    exact absurd hshort (not_shortLast_of_trace_eq rfl)

theorem exec_of_runsCommand {i j : Instr} {s : State} (h : runsCommand s.params i j) :
    j.isCommand = true ∧ exec i s = exec j s := by
  rcases h with ⟨hc, rfl⟩ | ⟨cdb, rfl, hd⟩
  · exact ⟨hc, rfl⟩
  · exact executeRunsTheDecodedCommand cdb j s hd

/-- Settles O12: the EXECUTE is its command's (`exec_of_runsCommand`), and each clause is what is known of that
command: of the ones that did not fail, of an unknown opcode, of invalid fields, of a data command, and of a fixed
response. -/
theorem senseAfterExecuteIsThisCommandsOwn : Obligations.SenseAfterExecuteIsThisCommandsOwn := by
  intro i j s t hp hruns h
  obtain ⟨hj, hexec⟩ := exec_of_runsCommand hruns
  rw [hexec] at h
  have hs : s.Idle := (command_next hj h).1
  have response (hr : SendsResponse s.params j) : t.sense = senseOk s.params := by
    obtain ⟨-, -, rs, hsense⟩ := sendsResponse_keeps hr h
    exact hsense.trans (entrySense_always hp rs)
  refine ⟨command_sense_of_not_failed hp hj h, ?unknown, ?inquiry, ?reqsense,
    fun lba cnt hdata => (dataCommand_next hdata h).2, ?errorFree, ?short⟩
  case unknown =>
    rintro op rfl
    cases (exec_unknown_idle hs op).symm.trans h
    exact ⟨rfl, rfl⟩
  case inquiry =>
    rintro flags page rfl hv
    cases (exec_inquiry_invalid hs hv).symm.trans h
    exact ⟨rfl, rfl⟩
  case reqsense =>
    rintro r1 r2 r3 alloc rfl hv
    cases (exec_reqsense_invalid hs hv).symm.trans h
    exact ⟨rfl, rfl⟩
  case errorFree =>
    rintro (rfl | rfl | rfl | rfl | ⟨flags, page, rfl, hv⟩ | rfl)
    · cases (runExecute_noOp hs).symm.trans h
      rfl
    · cases (runExecute_noOp hs).symm.trans h
      rfl
    · exact response True.intro
    · exact response True.intro
    · exact response hv
    · exact response ⟨rfl, rfl, rfl, rfl⟩
  case short =>
    intro evs tr bytes len sent hdata htrace hlt
    exact command_failed_of_shortLast hp hj hdata h ⟨evs, tr, bytes, len, sent, htrace, hlt⟩

end Sys2Proof.Machine
end

section
/-! An EXECUTE whose port calls are answered within the contract. -/

namespace Sys2Proof.Machine

variable {s : State} {ref : Nat} {c : Configuration}

/-- A handler finishes. -/
def Run.IsDone {α : Type} (r : Run α) : Prop := ∃ a t, r = .done a t

/-- An EXECUTE whose handler finishes returns a status, on an idle target (rule R158). -/
theorem exec_completes_of_isDone {i : Instr} {rs : Bool} {handler : State → Run Status} (hs : s.Idle)
    (hi : i.isCommand = true) (he : exec i s = runExecute rs handler s)
    (hdone : (handler (s.enterExecute rs)).IsDone) : ∃ t st, exec i s = .next t ∧ t.Idle ∧ t.ret = .status st := by
  obtain ⟨st, u, hu⟩ := hdone
  have hnext := he.trans (runExecute_done hs hu)
  obtain ⟨hidle, st', hret⟩ := isExecute_returned (.inl hi) hnext (by simp)
  exact ⟨_, st', hnext, hidle, hret⟩

/-- A fixed response answered within the contract is sent. -/
theorem transmitData_isDone (hb : s.Bound ref c) (bytes : List Byte) {len : Word32}
    (hr : (s.answer c.tr len).responds = true) (hle : (s.answer c.tr len).count ≤ len) :
    (transmitData bytes len s).IsDone := by
  rw [transmitData_answered hb bytes len hr hle]
  split_ifs
  · exact ⟨_, _, rfl⟩
  · exact ⟨_, _, rfl⟩

theorem transmitData_first_isDone {rs : Bool} (hb : s.Bound ref c) (bytes : List Byte) {len : Word32}
    (hr : (s.answer c.tr len).responds = true) (hle : (s.answer c.tr len).count ≤ len) :
    (transmitData bytes len (s.enterExecute rs)).IsDone :=
  transmitData_isDone (enterExecute_bound hb rs) bytes (by rwa [enterExecute_answer]) (by rwa [enterExecute_answer])

theorem transmitData_afterQuery_isDone (hb : s.Bound ref c) (bytes : List Byte) (g : Geometry) {len : Word32}
    (hr : (s.answerAfter 1 c.tr len).responds = true) (hle : (s.answerAfter 1 c.tr len).count ≤ len) :
    (transmitData bytes len (afterQuery (s.enterExecute false) c g)).IsDone :=
  transmitData_isDone (afterQuery_bound (enterExecute_bound hb false) g) bytes (by rwa [afterQuery_answer])
    (by rwa [afterQuery_answer])

/-- A data command whose geometry query is answered finishes where its blocks do, when it is in range (rule R202). -/
theorem dataTransfer_isDone {lba : Word32} {cnt : Word16} {dir : Direction} {g : Geometry} (hb : s.Bound ref c)
    (hinfo : (s.answerAfter 0 c.dev 0).responds = true) (hg : (s.answerAfter 0 c.dev 0).geom = g)
    (hblocks : lba.toNat + cnt.toNat ≤ g.blockCount.toNat → (1 ≤ cnt.toNat → c.buf.length = g.blockSize.toNat) ∧
      (blockLoop cnt.toNat (loopStart s c lba cnt dir g)).IsDone) :
    (dataTransfer dir lba cnt (s.enterExecute false)).IsDone := by
  rw [dataTransfer_from hb hinfo hg]
  split_ifs with hrange hsize
  · exact absurd ((hblocks hrange).1 hsize.1) hsize.2
  · obtain ⟨⟨⟩, t, ht⟩ := (hblocks hrange).2
    rw [ht]
    exact ⟨_, _, rfl⟩
  · exact ⟨_, _, rfl⟩

/-- Every command whose port calls are answered within the contract returns a status (rules R53, R54, R158). -/
theorem exec_completes {i : Instr} (hs : s.Idle) (hi : i.isCommand = true) (ha : s.AnsweredInContract i) :
    ∃ t st, exec i s = .next t ∧ t.Idle ∧ t.ret = .status st := by
  cases i with
  | tur => exact ⟨_, _, runExecute_noOp hs, hs, rfl⟩
  | prevallow => exact ⟨_, _, runExecute_noOp hs, hs, rfl⟩
  | unknown op => exact ⟨_, _, exec_unknown_idle hs op, hs, rfl⟩
  | inquiry flags page =>
    by_cases hv : flags &&& s.params.inqEvpdMask = 0 ∧ page = 0
    · obtain ⟨ref, c, hb, hl, hr, hle⟩ := ha (by simpa [inquiryFieldsValid] using hv)
      obtain ⟨hflags, rfl⟩ := hv
      exact exec_completes_of_isDone (handler := inquiryHandler flags 0) hs hi rfl
        (inquiryHandler_from hb hflags hl ▸ transmitData_first_isDone hb _ hr hle)
    · exact ⟨_, _, exec_inquiry_invalid hs hv, hs, rfl⟩
  | reqsense r1 r2 r3 alloc =>
    by_cases hv : r1 = 0 ∧ r2 = 0 ∧ r3 = 0 ∧ alloc = 18
    · obtain ⟨ref, c, hb, hr, hle⟩ := ha (by simpa [requestSenseFieldsValid] using hv)
      obtain ⟨rfl, rfl, rfl, rfl⟩ := hv
      exact exec_completes_of_isDone (handler := requestSenseHandler 0 0 0 18) hs hi rfl
        (requestSenseHandler_valid _ ▸ transmitData_first_isDone hb _ hr hle)
    · exact ⟨_, _, exec_reqsense_invalid hs hv, hs, rfl⟩
  | readcap10 =>
    obtain ⟨ref, c, hb, hinfo, hr, hle⟩ := ha
    exact exec_completes_of_isDone (handler := readCapacityHandler) hs hi rfl
      (readCapacityHandler_from hb hinfo rfl ▸ transmitData_afterQuery_isDone hb _ _ hr hle)
  | modesense6 =>
    obtain ⟨ref, c, hb, hinfo, hr, hle⟩ := ha
    exact exec_completes_of_isDone (handler := modeSenseHandler) hs hi rfl
      (modeSenseHandler_from hb hinfo rfl ▸ transmitData_afterQuery_isDone hb _ _ hr hle)
  | read10 lba cnt =>
    obtain ⟨ref, c, g, hb, hinfo, hg, hblocks⟩ := ha
    refine exec_completes_of_isDone (handler := dataTransfer .read lba cnt) hs hi rfl
      (dataTransfer_isDone hb hinfo hg fun hrange => ⟨(hblocks hrange).1, ?_⟩)
    obtain ⟨t, ht, -⟩ := loopStart_read (lba := lba) (cnt := cnt) hb (hblocks hrange).2
    exact ⟨_, t, ht⟩
  | write10 lba cnt =>
    obtain ⟨ref, c, g, hb, hinfo, hg, hblocks⟩ := ha
    refine exec_completes_of_isDone (handler := dataTransfer .write lba cnt) hs hi rfl
      (dataTransfer_isDone hb hinfo hg fun hrange => ⟨(hblocks hrange).1, ?_⟩)
    obtain ⟨t, ht, -⟩ := loopStart_write (lba := lba) (cnt := cnt) hb (hblocks hrange).2
    exact ⟨_, t, ht⟩
  | init => cases hi
  | start ref => cases hi
  | stop => cases hi
  | residue => cases hi
  | execute cdb => cases hi

/-- Settles O18: a long enough buffer decodes (`decode_of_cdbLongEnough`), EXECUTE is the decoded command, and that
command completes (`exec_completes`). -/
theorem executeCompletesWithinTheContract : Obligations.ExecuteCompletesWithinTheContract := by
  intro s cdb hs _ hlong
  obtain ⟨i, hd⟩ := decode_of_cdbLongEnough hlong
  refine ⟨i, hd, fun ha => ?_⟩
  obtain ⟨hi, hexec⟩ := executeRunsTheDecodedCommand cdb i s hd
  rw [hexec]
  exact exec_completes hs hi ha

end Sys2Proof.Machine
end

section
/-! Fixed responses whose port calls are answered within the contract, and commands whose fields are not valid. -/

namespace Sys2Proof.Machine

variable {s u : State} {ref : Nat} {c : Configuration} {bytes : List Byte} {len : Word32}

/-! ## The transmit -/

/-- A transmit within the contract, full or short in one form: a full one keeps the residue (rule R170). -/
theorem transmitData_done (hb : u.Bound ref c) (hr : (u.answer c.tr len).responds = true)
    (hle : (u.answer c.tr len).count ≤ len) :
    transmitData bytes len u =
      .done (if (u.answer c.tr len).count = len then .success else .failed)
        ((u.consume.emit (.tx c.tr bytes len (u.answer c.tr len).count)).setResidue
          (if (u.answer c.tr len).count = len then u.residue else len - (u.answer c.tr len).count)) := by
  rw [transmitData_answered hb bytes len hr hle]
  split_ifs
  · rfl
  · rfl

/-- What the transmit leaves when it is answered. `HangsAt` says of `u`, where it could have hung, what the command has
done up to there; the answered transmit adds its event, its status and a shortfall (rules R156, R170). -/
theorem respondsWith_of_hangsAt {evs : List Event} {sense : Vector Byte Config.senseLen}
    (hu : HangsAt s (u.stuckAt .txResponse) evs .txResponse sense s.latch) (hidle : u.Idle) (e : Event)
    (len sent : Word32) :
    RespondsWith s
      (((u.consume.emit e).setResidue (if sent = len then u.residue else len - sent)).returns
        (.status (if sent = len then .success else .failed)))
      (evs ++ [e]) sense len sent where
  phase := hidle
  run := hu.run
  cfg := hu.cfg
  sense := hu.sense
  residue := congrArg (fun r => if sent = len then r else len - sent) hu.residue
  latch := hu.latch
  mem := hu.mem
  params := hu.params
  callers := hu.callers
  answers := by
    have h : u.answers = s.answers.drop evs.length := hu.answers
    simp [h]
  trace := by
    have h : u.trace = s.trace ++ evs := hu.trace
    simp [h]
  ret := rfl

/-- An EXECUTE whose handler comes down to a transmit from `u`, answered within the contract. -/
theorem runExecute_respondsWith {rs : Bool} {handler : State → Run Status} {evs : List Event}
    {sense : Vector Byte Config.senseLen} {a : Answer} (hs : s.Idle)
    (hh : handler (s.enterExecute rs) = transmitData bytes len u) (hb : u.Bound ref c) (hidle : u.Idle)
    (hu : HangsAt s (u.stuckAt .txResponse) evs .txResponse sense s.latch) (ha : u.answer c.tr len = a)
    (hr : a.responds = true) (hle : a.count ≤ len) :
    ∃ t, runExecute rs handler s = .next t ∧
      RespondsWith s t (evs ++ [.tx c.tr bytes len a.count]) sense len a.count := by
  subst ha
  exact ⟨_, runExecute_done hs (hh.trans (transmitData_done hb hr hle)), respondsWith_of_hangsAt hu hidle _ _ _⟩

/-- The transmit is the first port call: INQUIRY and REQUEST SENSE (rules R171, R172). -/
theorem runExecute_first_respondsWith {rs : Bool} {handler : State → Run Status} (hs : s.Idle) (hb : s.Bound ref c)
    (hh : handler (s.enterExecute rs) = transmitData bytes len (s.enterExecute rs))
    (hr : (s.answer c.tr len).responds = true) (hle : (s.answer c.tr len).count ≤ len) :
    ∃ t, runExecute rs handler s = .next t ∧
      RespondsWith s t [.tx c.tr bytes len (s.answer c.tr len).count] (entrySense s rs) len
        (s.answer c.tr len).count :=
  runExecute_respondsWith hs hh (enterExecute_bound hb rs) ((s.enterExecute_phase rs).trans hs)
    (hangsAt_first (.inr rfl) s rs) (enterExecute_answer s rs c.tr len) hr hle

/-- The transmit follows a geometry query: READ CAPACITY(10) and MODE SENSE(6) (rules R173, R174). -/
theorem runExecute_afterQuery_respondsWith {handler : State → Run Status} {g : Geometry} (hs : s.Idle)
    (hb : s.Bound ref c)
    (hh : handler (s.enterExecute false) = transmitData bytes len (afterQuery (s.enterExecute false) c g))
    (hr : (s.answerAfter 1 c.tr len).responds = true) (hle : (s.answerAfter 1 c.tr len).count ≤ len) :
    ∃ t, runExecute false handler s = .next t ∧
      RespondsWith s t [.getInfo c.dev g, .tx c.tr bytes len (s.answerAfter 1 c.tr len).count] (senseOk s.params) len
        (s.answerAfter 1 c.tr len).count :=
  runExecute_respondsWith hs hh (afterQuery_bound (enterExecute_bound hb false) g)
    ((s.enterExecute_phase false).trans hs) (hangsAt_afterQuery s c g) (afterQuery_answer s c g c.tr len) hr hle

/-! ## The statements -/

/-- Settles O22: the three outcomes of the answered count, and F_NOCFG on an unbound target. -/
theorem transmitDataRecordsTheShortfall : Obligations.TransmitDataRecordsTheShortfall := by
  intro s ref c bytes len
  refine ⟨fun hb hr => ⟨fun hfull => ?full, fun hshort => ?short, transmitData_over hb bytes len hr⟩,
    fun hcfg => transmitData_unbound hcfg bytes len⟩
  case full =>
    rw [transmitData_answered hb bytes len hr (BitVec.le_of_eq hfull), if_pos hfull, hfull]
  case short =>
    rw [transmitData_answered hb bytes len hr (BitVec.le_of_lt hshort), if_neg (BitVec.ne_of_lt hshort)]
    rfl

/-- Settles O23: with valid fields INQUIRY comes down to its transmit (`inquiryHandler_from`); otherwise it fails
before that (`exec_inquiry_invalid`). -/
theorem inquirySendsTheTemplateOrFails : Obligations.InquirySendsTheTemplateOrFails := by
  rintro s flags page n hs rfl
  refine ⟨?_, fun hv => exec_inquiry_invalid hs (not_and_or.2 hv)⟩
  rintro ref c hflags rfl hb hl hr hle
  rw [← s.entrySense_false]
  exact runExecute_first_respondsWith hs hb (inquiryHandler_from hb hflags hl) hr hle

/-- Settles O24: with valid fields REQUEST SENSE comes down to the transmit of the record step 1 has left, which is
`entrySense` under either policy; otherwise it fails before that (`exec_reqsense_invalid`). -/
theorem requestSenseSendsTheRecordOrFails : Obligations.RequestSenseSendsTheRecordOrFails := by
  intro s r1 r2 r3 alloc hs
  refine ⟨?_, fun hv => exec_reqsense_invalid hs (by tauto)⟩
  rintro ref c rfl rfl rfl rfl hb hr hle
  have hsends : requestSenseHandler 0 0 0 18 (s.enterExecute true) =
      transmitData (entrySense s true).toList 18 (s.enterExecute true) := by
    rw [requestSenseHandler_valid, State.enterExecute_sense]
  obtain ⟨t, hexec, hresp⟩ := runExecute_first_respondsWith hs hb hsends hr hle
  exact ⟨t, entrySense s true, hexec, entrySense_true_always, entrySense_true_skip, hresp⟩

/-- Settles O25: READ CAPACITY(10) comes down to the transmit after its geometry query (`readCapacityHandler_from`),
and what it transmits is packed in the order of the parameter. -/
theorem readCapacitySendsSizeAndLastBlock : Obligations.ReadCapacitySendsSizeAndLastBlock := by
  rintro s ref c g sent hs hb hinfo hg hr rfl hle
  obtain ⟨t, hexec, hresp⟩ := runExecute_afterQuery_respondsWith hs hb (readCapacityHandler_from hb hinfo hg) hr hle
  exact ⟨t, _, hexec, fun horder => by rw [horder, packReadCapacity10],
    fun horder => by rw [horder, packReadCapacity10], hresp⟩

/-- Settles O26: MODE SENSE(6) comes down to the transmit after its geometry query (`modeSenseHandler_from`). -/
theorem modeSenseSendsTheWriteProtectBit : Obligations.ModeSenseSendsTheWriteProtectBit := by
  rintro s ref c g sent hs hb hinfo hg hr rfl hle
  exact runExecute_afterQuery_respondsWith hs hb (modeSenseHandler_from hb hinfo hg) hr hle

end Sys2Proof.Machine
end

section
/-! A data command, in either direction: what its blocks do where their answers are known, and every way it can end. -/

namespace Sys2Proof.Machine

variable {s t : State} {ref : Nat} {c : Configuration} {g : Geometry} {dir : Direction} {lba : Word32} {cnt : Word16}

/-! ## The blocks of a data command -/

/-- Both calls of the k-th block of a data command, its fill and then its drain, are answered within the contract (rules
R53, R54). -/
def BlockAnswered (s : State) (c : Configuration) (g : Geometry) : Direction → Nat → Prop
  | .read, k => (s.answerAfter (1 + 2 * k) c.dev 0).responds = true ∧
      (s.answerAfter (2 + 2 * k) c.tr g.blockSize).responds = true ∧
      (s.answerAfter (2 + 2 * k) c.tr g.blockSize).count ≤ g.blockSize
  | .write, k => (s.answerAfter (1 + 2 * k) c.tr g.blockSize).responds = true ∧
      (s.answerAfter (2 + 2 * k) c.dev 0).responds = true

/-- The events of the first `n` blocks of a data command started in `s` (rules R203, R204). -/
def blockEvents (s : State) (c : Configuration) (g : Geometry) (lba : Word32) : Direction → Nat → List Event
  | .read, n => readEvents c g.blockSize lba (fun k => (s.answerAfter (2 + 2 * k) c.tr g.blockSize).count)
      (bufferAfter s c.dev 0 1 c.buf) n
  | .write, n => writeEvents c g.blockSize lba (fun k => (s.answerAfter (1 + 2 * k) c.tr g.blockSize).count)
      (bufferAfter s c.tr g.blockSize 1 c.buf) n

/-- The buffer after the first `n` blocks of a data command started in `s`. -/
def blockBuffer (s : State) (c : Configuration) (g : Geometry) : Direction → Nat → List Byte
  | .read, n => bufferAfter s c.dev 0 1 c.buf n
  | .write, n => bufferAfter s c.tr g.blockSize 1 c.buf n

theorem length_blockEvents (s : State) (c : Configuration) (g : Geometry) (lba : Word32) (dir : Direction) (n : Nat) :
    (blockEvents s c g lba dir n).length = 2 * n := by
  cases dir with
  | read => exact length_readEvents ..
  | write => exact length_writeEvents ..

/-- The first `n` blocks, answered within the contract. -/
theorem loopStart_blocks {n : Nat} (hb : s.Bound ref c) (h : ∀ k, k < n → BlockAnswered s c g dir k) :
    ∃ t, blockLoop n (loopStart s c lba cnt dir g) = .done () t ∧
      BlocksMoved (loopStart s c lba cnt dir g) t ref c n (blockEvents s c g lba dir n) (blockBuffer s c g dir n) := by
  cases dir with
  | read => exact loopStart_read hb h
  | write => exact loopStart_write hb h

/-- The device events of the blocks are on the bound device, at addresses of the request. -/
theorem block_of_mem_blockEvents {n : Nat} {dev : Handle} {l : Word32} {data : List Byte}
    (h : Event.devRead dev l data ∈ blockEvents s c g lba dir n ∨
      Event.devWrite dev l data ∈ blockEvents s c g lba dir n) :
    dev = c.dev ∧ ∃ k, k < n ∧ l = lba + BitVec.ofNat 32 k := by
  cases dir with
  | read =>
    simp only [blockEvents, readEvents, List.mem_flatMap, List.mem_range] at h
    rcases h with ⟨k, hk, h⟩ | ⟨k, hk, h⟩
    · obtain ⟨hdev, hl, -⟩ : dev = c.dev ∧ l = lba + BitVec.ofNat 32 k ∧ data = _ := by simpa using h
      exact ⟨hdev, k, hk, hl⟩
    · simp at h
  | write =>
    simp only [blockEvents, writeEvents, List.mem_flatMap, List.mem_range] at h
    rcases h with ⟨k, hk, h⟩ | ⟨k, hk, h⟩
    · simp at h
    · obtain ⟨hdev, hl, -⟩ : dev = c.dev ∧ l = lba + BitVec.ofNat 32 k ∧ data = _ := by simpa using h
      exact ⟨hdev, k, hk, hl⟩

/-! ## Where the answers are known -/

/-- What a data command leaves whose blocks are moved. -/
theorem BlocksMoved.transferEnds {n : Nat} {evs : List Event} {buf : List Byte} (hs : s.Idle)
    (h : BlocksMoved (loopStart s c lba cnt dir g) t ref c n evs buf) (hl : evs.length = 2 * n) :
    TransferEnds s (t.dropLatches.returns (.status .success)) ref c (.getInfo c.dev g :: evs) (senseOk s.params) .success
      buf where
  phase   := by simpa [h.phase] using hs
  run     := by simp [h.run]
  cfg     := by simp [h.cfg]
  sense   := by simp [h.sense]
  residue := by simp [h.residue]
  bound   := h.bound.record
  others  := fun r hr => by simpa using h.others r hr
  params  := by simp [h.params]
  callers := by simp [h.callers]
  answers := by simpa [hl, Nat.add_comm] using ((loopStart_ahead s c lba cnt dir g).trans h.ahead).answers
  trace   := h.trace_eq
  ret     := rfl

section Query

variable (hs : s.Idle) (hb : s.Bound ref c) (hinfo : (s.answerAfter 0 c.dev 0).responds = true)
  (hg : (s.answerAfter 0 c.dev 0).geom = g)

include hs hb hinfo hg

/-- A request beyond the device ends at its range check (rules R202, R233). -/
theorem dataTransfer_outOfRange (dir : Direction) (hrange : g.blockCount.toNat < lba.toNat + cnt.toNat) :
    ∃ t, runExecute false (dataTransfer dir lba cnt) s = .next t ∧
      TransferEnds s t ref c [.getInfo c.dev g] (senseLbaOutOfRange s.params) .failed c.buf := by
  refine ⟨_, runExecute_done hs ((dataTransfer_from hb hinfo hg).trans (if_neg (Nat.not_le.2 hrange))), ?_⟩
  constructor
  case phase => simpa using hs
  case bound => simpa using hb.record
  case sense => simp [senseLbaOutOfRange]
  all_goals simp

/-- A request in range whose buffer is one block moves its blocks and succeeds, where they are answered (rules R203 to
R206). -/
theorem dataTransfer_moves (dir : Direction) (hrange : lba.toNat + cnt.toNat ≤ g.blockCount.toNat)
    (hbuf : 1 ≤ cnt.toNat → c.buf.length = g.blockSize.toNat)
    (hblocks : ∀ k, k < cnt.toNat → BlockAnswered s c g dir k) :
    ∃ t, runExecute false (dataTransfer dir lba cnt) s = .next t ∧
      TransferEnds s t ref c (.getInfo c.dev g :: blockEvents s c g lba dir cnt.toNat) (senseOk s.params) .success
        (blockBuffer s c g dir cnt.toNat) := by
  obtain ⟨t, ht, hm⟩ := loopStart_blocks (lba := lba) (cnt := cnt) hb hblocks
  have hdone : dataTransfer dir lba cnt (s.enterExecute false) = .done .success t.dropLatches := by
    rw [dataTransfer_from hb hinfo hg, if_pos hrange, if_neg fun h => h.2 (hbuf h.1), ht]
    rfl
  exact ⟨_, runExecute_done hs hdone, hm.transferEnds hs (length_blockEvents ..)⟩

/-- A request in range with a block to move and a buffer of another size (rule R202). -/
theorem dataTransfer_bufSize (dir : Direction) (hrange : lba.toNat + cnt.toNat ≤ g.blockCount.toNat)
    (hcnt : 1 ≤ cnt.toNat) (hbuf : c.buf.length ≠ g.blockSize.toNat) :
    runExecute false (dataTransfer dir lba cnt) s = .fault (.bufSize (s.trace ++ [.getInfo c.dev g])) :=
  runExecute_fault hs (by rw [dataTransfer_from hb hinfo hg, if_pos hrange, if_pos ⟨hcnt, hbuf⟩])

/-- A request in range whose k-th block is the first that is not answered within the contract: a fault, or stuck in that
block, the events of the blocks so far having happened (rules R70, R213). -/
theorem dataTransfer_stops_at_block {k : Nat} (hrange : lba.toNat + cnt.toNat ≤ g.blockCount.toNat)
    (hbuf : c.buf.length = g.blockSize.toNat) (hk : k < cnt.toNat) (hbefore : ∀ j, j < k → BlockAnswered s c g dir j)
    (hblock : ¬ BlockAnswered s c g dir k) :
    (∃ f, runExecute false (dataTransfer dir lba cnt) s = .fault f) ∨
    ∃ t evs call buf, runExecute false (dataTransfer dir lba cnt) s = .next t ∧
      TransferStuck s t ref c (.getInfo c.dev g :: evs) call buf ∧ evs <+: blockEvents s c g lba dir (k + 1) := by
  cases dir with
  | read =>
    obtain ⟨hfill, hdrain⟩ :=
      readCanHangAtEitherCallOfABlock s ref c lba cnt g k hs hb hinfo hg hrange hbuf hk hbefore
    cases h1 : (s.answerAfter (1 + 2 * k) c.dev 0).responds with
    | false =>
      obtain ⟨t, h, -, hstuck⟩ := hfill h1
      exact .inr ⟨t, _, _, _, h, hstuck, by rw [blockEvents, readEvents_succ]; exact List.prefix_append _ _⟩
    | true =>
      cases h2 : (s.answerAfter (2 + 2 * k) c.tr g.blockSize).responds with
      | false =>
        obtain ⟨t, h, -, hstuck⟩ := hdrain h1 h2
        exact .inr ⟨t, _, _, _, h, hstuck, by rw [blockEvents, readEvents_succ]; simp⟩
      | true =>
        have hover := BitVec.not_le.1 fun hle => hblock ⟨h1, h2, hle⟩
        exact .inl ⟨_, readFaultsOnAnOverlongBlockTransmit s ref c lba cnt g k hs hb hinfo hg hrange hbuf hk hbefore h1
          h2 hover⟩
  | write =>
    obtain ⟨hfill, hdrain⟩ :=
      writeCanHangAtEitherCallOfABlock s ref c lba cnt g k hs hb hinfo hg hrange hbuf hk hbefore
    cases h1 : (s.answerAfter (1 + 2 * k) c.tr g.blockSize).responds with
    | false =>
      obtain ⟨t, h, -, hstuck⟩ := hfill h1
      exact .inr ⟨t, _, _, _, h, hstuck, by rw [blockEvents, writeEvents_succ]; exact List.prefix_append _ _⟩
    | true =>
      obtain ⟨t, h, -, hstuck⟩ := hdrain h1 (Bool.eq_false_iff.2 fun h2 => hblock ⟨h1, h2⟩)
      exact .inr ⟨t, _, _, _, h, hstuck, by rw [blockEvents, writeEvents_succ]; simp⟩

end Query

/-! ## Whatever is answered -/

/-- The next states of a data command: stuck at the geometry query, failed at the range check, all blocks moved, or
stuck in a block (rules R70, R202, R206). -/
inductive DataCommandEnds (dir : Direction) (lba : Word32) (cnt : Word16) (s t : State) : Prop where
  | queryHangs {latch : Latches} : HangsAt s t [] .devInfo (senseOk s.params) latch → DataCommandEnds dir lba cnt s t
  | outOfRange {ref : Nat} {c : Configuration} {g : Geometry} : g.blockCount.toNat < lba.toNat + cnt.toNat →
      TransferEnds s t ref c [.getInfo c.dev g] (senseLbaOutOfRange s.params) .failed c.buf →
      DataCommandEnds dir lba cnt s t
  | moved {ref : Nat} {c : Configuration} {g : Geometry} : lba.toNat + cnt.toNat ≤ g.blockCount.toNat →
      (1 ≤ cnt.toNat → c.buf.length = g.blockSize.toNat) →
      TransferEnds s t ref c (.getInfo c.dev g :: blockEvents s c g lba dir cnt.toNat) (senseOk s.params) .success
        (blockBuffer s c g dir cnt.toNat) → DataCommandEnds dir lba cnt s t
  | blockHangs {ref : Nat} {c : Configuration} {g : Geometry} {k : Nat} {evs : List Event} {call : PortCall}
      {buf : List Byte} : lba.toNat + cnt.toNat ≤ g.blockCount.toNat → k < cnt.toNat →
      evs <+: blockEvents s c g lba dir (k + 1) → TransferStuck s t ref c (.getInfo c.dev g :: evs) call buf →
      DataCommandEnds dir lba cnt s t

/-- Either all of the first `n` have a property or there is a first one that has not. -/
theorem forall_lt_or_exists_first (P : Nat → Prop) (n : Nat) :
    (∀ k, k < n → P k) ∨ ∃ k, k < n ∧ (∀ j, j < k → P j) ∧ ¬ P k := by
  induction n with
  | zero => exact .inl fun k hk => absurd hk (Nat.not_lt_zero k)
  | succ n ih =>
    rcases ih with hall | ⟨k, hk, hfirst⟩
    · by_cases hn : P n
      · exact .inl fun k hk => (Nat.lt_succ_iff_lt_or_eq.1 hk).elim (hall k) fun h => h ▸ hn
      · exact .inr ⟨n, Nat.lt_succ_self n, hall, hn⟩
    · exact .inr ⟨k, Nat.lt_succ_of_lt hk, hfirst⟩

theorem dataTransfer_unusable {f : Fault}
    (hf : ∀ {α : Type} (k : Nat → Configuration → Run α), withRecord (s.latchRequest lba cnt dir) k = .fault f) :
    dataTransfer dir lba cnt s = .fault f := by
  unfold dataTransfer devInfo; rw [hf]; rfl

/-- Every data command that answers a next state ends in one of these ways. -/
theorem dataTransfer_next (h : runExecute false (dataTransfer dir lba cnt) s = .next t) :
    DataCommandEnds dir lba cnt s t := by
  have hs : s.Idle := (runExecute_next h).1
  rcases exists_bound_or_fault ((s.enterExecute false).latchRequest lba cnt dir) with ⟨ref, c, hb'⟩ | ⟨f, hf⟩
  swap
  · exact absurd ((runExecute_fault hs (dataTransfer_unusable hf)).symm.trans h) (by simp)
  have hb : s.Bound ref c := hb'.congr (by simp) (by simp)
  cases hinfo : (s.answerAfter 0 c.dev 0).responds with
  | false =>
    have hstuck := runExecute_stuck hs
      (dataTransfer_stuck (enterExecute_bound hb false) dir lba cnt (by rwa [enterExecute_answer]))
    cases hstuck.symm.trans h
    exact .queryHangs (hangsAt_latchRequest s lba cnt dir)
  | true =>
    by_cases hrange : lba.toNat + cnt.toNat ≤ (s.answerAfter 0 c.dev 0).geom.blockCount.toNat
    swap
    · obtain ⟨u, hu, hends⟩ := dataTransfer_outOfRange hs hb hinfo rfl dir (Nat.not_le.1 hrange)
      cases hu.symm.trans h
      exact .outOfRange (Nat.not_le.1 hrange) hends
    by_cases hbuf : 1 ≤ cnt.toNat → c.buf.length = (s.answerAfter 0 c.dev 0).geom.blockSize.toNat
    swap
    · obtain ⟨hcnt, hsize⟩ := Classical.not_imp.1 hbuf
      exact absurd ((dataTransfer_bufSize hs hb hinfo rfl dir hrange hcnt hsize).symm.trans h) (by simp)
    rcases forall_lt_or_exists_first (BlockAnswered s c (s.answerAfter 0 c.dev 0).geom dir) cnt.toNat with
      hblocks | ⟨k, hk, hbefore, hblock⟩
    · obtain ⟨u, hu, hends⟩ := dataTransfer_moves hs hb hinfo rfl dir hrange hbuf hblocks
      cases hu.symm.trans h
      exact .moved hrange hbuf hends
    · rcases dataTransfer_stops_at_block hs hb hinfo rfl hrange (hbuf (Nat.one_le_of_lt hk)) hk hbefore hblock with
        ⟨f, hf⟩ | ⟨u, evs, call, buf, hu, hstuck, hevs⟩
      · exact absurd (hf.symm.trans h) (by simp)
      · cases hu.symm.trans h
        exact .blockHangs hrange hk hevs hstuck

theorem dataCommand_ends {i : Instr} (hi : i = .read10 lba cnt ∨ i = .write10 lba cnt) (h : exec i s = .next t) :
    ∃ dir, DataCommandEnds dir lba cnt s t := by
  rcases hi with rfl | rfl
  · exact ⟨.read, dataTransfer_next h⟩
  · exact ⟨.write, dataTransfer_next h⟩

/-- An address of a request in range does not wrap (rule R207). -/
theorem toNat_block {k : Nat} (hrange : lba.toNat + cnt.toNat ≤ g.blockCount.toNat) (hk : k < cnt.toNat) :
    (lba + BitVec.ofNat 32 k).toNat = lba.toNat + k := by
  have := g.blockCount.isLt
  rw [BitVec.toNat_add, BitVec.toNat_ofNat]
  omega

end Sys2Proof.Machine
end

section
/-! The statements about data commands one block at a time. -/

namespace Sys2Proof.Machine

/-- Settles O29: `dataTransfer_outOfRange` in both directions. -/
theorem outOfRangeRequestsFailBeforeAnyData : Obligations.OutOfRangeRequestsFailBeforeAnyData :=
  fun _ _ _ _ _ _ hs hb hinfo hg hrange =>
    ⟨dataTransfer_outOfRange hs hb hinfo hg .read hrange, dataTransfer_outOfRange hs hb hinfo hg .write hrange⟩

/-- Settles O30: `dataTransfer_moves` for a read. -/
theorem readMovesEveryBlockFromDeviceToTransport : Obligations.ReadMovesEveryBlockFromDeviceToTransport :=
  fun _ _ _ _ _ _ hs hb hinfo hg hrange hbuf hblocks => dataTransfer_moves hs hb hinfo hg .read hrange hbuf hblocks

/-- Settles O31: `dataTransfer_moves` for a write. -/
theorem writeMovesEveryBlockFromTransportToDevice : Obligations.WriteMovesEveryBlockFromTransportToDevice :=
  fun _ _ _ _ _ _ hs hb hinfo hg hrange hbuf hblocks => dataTransfer_moves hs hb hinfo hg .write hrange hbuf hblocks

/-- Settles O32: a count of zero passes or fails the range check like any other, and past it there is no block to
answer. -/
theorem zeroCountMovesNothing : Obligations.ZeroCountMovesNothing := by
  intro s ref c lba g hs hb hinfo hg
  refine ⟨fun hle => ?_, fun hlt => ?_⟩
  · have moves (dir : Direction) := dataTransfer_moves (cnt := 0) hs hb hinfo hg dir (BitVec.le_def.1 hle)
      (fun h => absurd h (by simp)) (fun k hk => absurd hk (Nat.not_lt_zero k))
    exact ⟨moves .read, moves .write⟩
  · have fails (dir : Direction) := dataTransfer_outOfRange (cnt := 0) hs hb hinfo hg dir (BitVec.lt_def.1 hlt)
    exact ⟨fails .read, fails .write⟩

/-- Settles O33: `dataTransfer_bufSize` in both directions. -/
theorem wrongBufferSizeFaults : Obligations.WrongBufferSizeFaults :=
  fun _ _ _ _ _ _ hs hb hinfo hg hrange hcnt hbuf =>
    ⟨dataTransfer_bufSize hs hb hinfo hg .read hrange hcnt hbuf,
      dataTransfer_bufSize hs hb hinfo hg .write hrange hcnt hbuf⟩

/-- Settles O34: of the ways a data command can end the stuck ones are not idle, and of the other two one is out of
range and failed, the other in range and succeeded. -/
theorem dataCommandsFailOnlyOnRange : Obligations.DataCommandsFailOnlyOnRange := by
  intro i lba cnt s t evs hi h hidle htrace
  obtain ⟨dir, hends⟩ := dataCommand_ends hi h
  cases hends with
  | queryHangs hhangs => exact absurd (hhangs.phase.symm.trans hidle) (by simp)
  | blockHangs _ _ _ hstuck => exact absurd (hstuck.phase.symm.trans hidle) (by simp)
  | @outOfRange _ c g hrange hends =>
    obtain rfl := List.append_cancel_left (htrace.symm.trans hends.trace)
    exact ⟨c.dev, g, rfl, fun _ => ⟨hends.ret, hends.sense⟩, fun hle => absurd hrange (Nat.not_lt.2 hle)⟩
  | @moved _ c g hrange _ hends =>
    obtain rfl := List.append_cancel_left (htrace.symm.trans hends.trace)
    exact ⟨c.dev, g, rfl, fun hlt => absurd hlt (Nat.not_lt.2 hrange), fun _ => ⟨hends.ret, hends.sense⟩⟩

/-- The device events behind the geometry query of a request in range stay in the request. -/
theorem block_in_range {s : State} {c : Configuration} {g : Geometry} {lba : Word32} {cnt : Word16} {dir : Direction}
    {n : Nat} {evs : List Event} {dev : Handle} {l : Word32} {data : List Byte}
    (hrange : lba.toNat + cnt.toNat ≤ g.blockCount.toNat) (hn : n ≤ cnt.toNat)
    (hevs : evs ⊆ blockEvents s c g lba dir n)
    (hmem : Event.devRead dev l data ∈ Event.getInfo c.dev g :: evs ∨
      Event.devWrite dev l data ∈ Event.getInfo c.dev g :: evs) :
    ∃ (g' : Geometry) (k : Nat), (Event.getInfo c.dev g :: evs).head? = some (.getInfo dev g') ∧ k < cnt.toNat ∧
      l.toNat = lba.toNat + k ∧ l.toNat < g'.blockCount.toNat := by
  simp only [List.mem_cons, reduceCtorEq, false_or] at hmem
  obtain ⟨rfl, k, hk, rfl⟩ := block_of_mem_blockEvents (hmem.imp (hevs ·) (hevs ·))
  have hk' : k < cnt.toNat := Nat.lt_of_lt_of_le hk hn
  have hl := toNat_block hrange hk'
  exact ⟨g, k, rfl, hk', hl, by omega⟩

/-- Settles O35: the device events of a data command, stuck in a block or not, are among those of its blocks
(`block_in_range`); the other two ways to end have none. -/
theorem dataCommandsStayInTheRequestedRange : Obligations.DataCommandsStayInTheRequestedRange := by
  intro i lba cnt s t evs hi h htrace dev l data hmem
  obtain ⟨dir, hends⟩ := dataCommand_ends hi h
  cases hends with
  | queryHangs hhangs =>
    obtain rfl := List.append_cancel_left (htrace.symm.trans hhangs.trace)
    simp at hmem
  | outOfRange _ hends =>
    obtain rfl := List.append_cancel_left (htrace.symm.trans hends.trace)
    simp at hmem
  | moved hrange _ hends =>
    obtain rfl := List.append_cancel_left (htrace.symm.trans hends.trace)
    exact block_in_range hrange (Nat.le_refl _) (List.Subset.refl _) hmem
  | blockHangs hrange hk hprefix hstuck =>
    obtain rfl := List.append_cancel_left (htrace.symm.trans hstuck.trace)
    exact block_in_range hrange hk hprefix.subset hmem

end Sys2Proof.Machine
end

section
/-! What the events of the blocks are to the initiator and to the device, under the assumptions of rule R56. -/

namespace Sys2Proof.Machine

/-! ## Traces in two parts -/

@[simp] theorem transmitted_append (evs evs' : List Event) :
    transmitted (evs ++ evs') = transmitted evs ++ transmitted evs' := by
  induction evs with
  | nil => rfl
  | cons e evs ih => cases e <;> simp [transmitted, ih]

@[simp] theorem contentAfter_append (d : DeviceContent) (evs evs' : List Event) :
    contentAfter d (evs ++ evs') = contentAfter (contentAfter d evs) evs' := by
  induction evs generalizing d with
  | nil => rfl
  | cons e evs ih => cases e <;> exact ih _

@[simp] theorem readsReturnContent_append (d : DeviceContent) (evs evs' : List Event) :
    readsReturnContent d (evs ++ evs') ↔ readsReturnContent d evs ∧ readsReturnContent (contentAfter d evs) evs' := by
  induction evs generalizing d with
  | nil => simp [readsReturnContent, contentAfter]
  | cons e evs ih => cases e <;> simp [readsReturnContent, contentAfter, ih, and_assoc]

/-- The number of bytes the receives of a trace ask for. -/
def bytesAsked : List Event → Nat
  | [] => 0
  | .rx _ len _ _ :: rest => len.toNat + bytesAsked rest
  | .getInfo _ _ :: rest => bytesAsked rest
  | .devRead _ _ _ :: rest => bytesAsked rest
  | .devWrite _ _ _ :: rest => bytesAsked rest
  | .tx _ _ _ _ :: rest => bytesAsked rest

@[simp] theorem bytesAsked_append (evs evs' : List Event) :
    bytesAsked (evs ++ evs') = bytesAsked evs + bytesAsked evs' := by
  induction evs with
  | nil => simp [bytesAsked]
  | cons e evs ih => cases e <;> simp [bytesAsked, ih, Nat.add_assoc]

@[simp] theorem receivesInOrder_append (incoming : List Byte) (evs evs' : List Event) :
    receivesInOrder incoming (evs ++ evs') ↔
      receivesInOrder incoming evs ∧ receivesInOrder (incoming.drop (bytesAsked evs)) evs' := by
  induction evs generalizing incoming with
  | nil => simp [receivesInOrder, bytesAsked]
  | cons e evs ih => cases e <;> simp [receivesInOrder, bytesAsked, ih, and_assoc]

/-! ## The blocks of a READ(10) -/

section Read

variable (c : Configuration) (bs lba : Word32) (sent : Nat → Word32) (buf : Nat → List Byte)

theorem transmitted_readEvents (n : Nat) : transmitted (readEvents c bs lba sent buf n) =
    (List.range n).flatMap fun k => (buf (k + 1)).take (sent k).toNat := by
  induction n with
  | zero => rfl
  | succ n ih => rw [readEvents_succ, transmitted_append, ih]; simp [transmitted, List.range_succ]

/-- A READ(10) writes no block. -/
theorem contentAfter_readEvents (d : DeviceContent) (n : Nat) :
    contentAfter d (readEvents c bs lba sent buf n) = d := by
  induction n with
  | zero => rfl
  | succ n ih => rw [readEvents_succ, contentAfter_append, ih]; rfl

theorem readsReturnContent_readEvents (d : DeviceContent) (n : Nat) :
    readsReturnContent d (readEvents c bs lba sent buf n) ↔
      ∀ k, k < n → buf (k + 1) = d (lba + BitVec.ofNat 32 k).toNat := by
  induction n with
  | zero => simp [readEvents, readsReturnContent]
  | succ n ih =>
    rw [readEvents_succ, readsReturnContent_append, ih, contentAfter_readEvents, Nat.forall_lt_succ_right]
    simp only [readsReturnContent, and_true]

theorem fullTransmits_readEvents {n : Nat} (h : fullTransmits (readEvents c bs lba sent buf n)) {k : Nat} (hk : k < n) :
    sent k = bs :=
  h c.tr (buf (k + 1)) bs (sent k) (List.mem_flatMap.2 ⟨k, List.mem_range.2 hk, by simp⟩)

end Read

/-! ## The blocks of a WRITE(10) -/

section Write

variable (c : Configuration) (bs lba : Word32) (got : Nat → Word32) (buf : Nat → List Byte)

theorem bytesAsked_writeEvents (n : Nat) : bytesAsked (writeEvents c bs lba got buf n) = n * bs.toNat := by
  induction n with
  | zero => simp [writeEvents, bytesAsked]
  | succ n ih => rw [writeEvents_succ, bytesAsked_append, ih]; simp [bytesAsked, Nat.succ_mul]

theorem receivesInOrder_writeEvents (incoming : List Byte) (n : Nat) :
    receivesInOrder incoming (writeEvents c bs lba got buf n) ↔
      ∀ k, k < n → buf (k + 1) = (incoming.drop (k * bs.toNat)).take bs.toNat := by
  induction n with
  | zero => simp [writeEvents, receivesInOrder]
  | succ n ih =>
    rw [writeEvents_succ, receivesInOrder_append, ih, bytesAsked_writeEvents, Nat.forall_lt_succ_right]
    simp only [receivesInOrder, and_true]

/-- The blocks that do not wrap hold what the buffer held when they were written, every other block what it did. -/
theorem contentAfter_writeEvents (d : DeviceContent) (n : Nat)
    (hl : ∀ k, k < n → (lba + BitVec.ofNat 32 k).toNat = lba.toNat + k) (b : Nat) :
    contentAfter d (writeEvents c bs lba got buf n) b =
      if lba.toNat ≤ b ∧ b < lba.toNat + n then buf (b - lba.toNat + 1) else d b := by
  induction n with
  | zero => rw [if_neg (by omega)]; rfl
  | succ n ih =>
    rw [writeEvents_succ, contentAfter_append]
    show (if b = (lba + BitVec.ofNat 32 n).toNat then _ else contentAfter d (writeEvents c bs lba got buf n) b) = _
    rw [ih fun k hk => hl k (Nat.lt_succ_of_lt hk), hl n (Nat.lt_succ_self n)]
    by_cases hb : b = lba.toNat + n
    · rw [if_pos hb, if_pos (by omega), hb, Nat.add_sub_cancel_left]
    · rw [if_neg hb]
      exact if_congr (by omega) rfl rfl

end Write

/-- Consecutive slices of one length are a front of the list. -/
theorem flatMap_slices (l : List Byte) (b n : Nat) :
    ((List.range n).flatMap fun k => (l.drop (k * b)).take b) = l.take (n * b) := by
  induction n with
  | zero => simp
  | succ n ih => rw [List.range_succ, List.flatMap_append, ih, Nat.succ_mul, List.take_add]; simp

end Sys2Proof.Machine
end

section
/-! The statements about data commands under well-behaved collaborators (rule R212). -/

namespace Sys2Proof.Machine

/-- A data command that succeeded has moved all its blocks, in range (rule R206). -/
theorem dataTransfer_succeeded {dir : Direction} {lba : Word32} {cnt : Word16} {s t : State} {evs : List Event}
    (h : runExecute false (dataTransfer dir lba cnt) s = .next t) (hret : t.ret = .status .success)
    (htrace : t.trace = s.trace ++ evs) :
    ∃ c g, evs = .getInfo c.dev g :: blockEvents s c g lba dir cnt.toNat ∧
      lba.toNat + cnt.toNat ≤ g.blockCount.toNat ∧ (1 ≤ cnt.toNat → c.buf.length = g.blockSize.toNat) := by
  cases dataTransfer_next h with
  | queryHangs hhangs => exact absurd (hhangs.ret.symm.trans hret) (by simp)
  | outOfRange _ hends => exact absurd (hends.ret.symm.trans hret) (by simp)
  | blockHangs _ _ _ hstuck => exact absurd (hstuck.ret.symm.trans hret) (by simp)
  | @moved _ c g hrange hbuf hends =>
    exact ⟨c, g, List.append_cancel_left (htrace.symm.trans hends.trace), hrange, hbuf⟩

/-- Settles O39: each block's transmit is the whole buffer, one block long, which holds that block's content. -/
theorem readTransmitsTheDeviceContents : Obligations.ReadTransmitsTheDeviceContents := by
  intro lba cnt s t evs d h hret htrace hreads hfull
  obtain ⟨c, g, rfl, hrange, hbuf⟩ := dataTransfer_succeeded (dir := .read) h hret htrace
  have hcontent := (readsReturnContent_readEvents _ _ _ _ _ d cnt.toNat).1 hreads
  have hlength {k : Nat} (hk : k < cnt.toNat) : (d (lba.toNat + k)).length = g.blockSize.toNat := by
    rw [← toNat_block hrange hk, ← hcontent k hk, length_bufferAfter, hbuf (Nat.one_le_of_lt hk)]
  have hblocks : transmitted (.getInfo c.dev g :: blockEvents s c g lba .read cnt.toNat) =
      (List.range cnt.toNat).flatMap fun k => d (lba.toNat + k) := by
    refine (transmitted_readEvents _ _ _ _ _ cnt.toNat).trans (List.flatMap_congr fun k hmem => ?_)
    have hk := List.mem_range.1 hmem
    have hsent := fullTransmits_readEvents _ _ _ _ _ (fun _ _ _ _ hmem => hfull _ _ _ _ (.tail _ hmem)) hk
    rw [hsent, hcontent k hk, toNat_block hrange hk, List.take_of_length_le (Nat.le_of_eq (hlength hk))]
  refine ⟨hblocks, c.dev, g, rfl, ?_⟩
  rw [hblocks, List.length_flatMap, List.map_congr_left fun k hk => hlength (List.mem_range.1 hk)]
  simp

/-- Settles O40: a block of the request holds what the buffer held at its write (`contentAfter_writeEvents`), which is
the slice its receive delivered. -/
theorem writeStoresTheReceivedBytes : Obligations.WriteStoresTheReceivedBytes := by
  intro lba cnt s t evs d incoming h hret htrace hreceives
  obtain ⟨c, g, rfl, hrange, -⟩ := dataTransfer_succeeded (dir := .write) h hret htrace
  have hslices := (receivesInOrder_writeEvents _ _ _ _ _ incoming cnt.toNat).1 hreceives
  refine ⟨c.dev, g, rfl, fun b => ?_⟩
  refine (contentAfter_writeEvents _ _ _ _ _ d cnt.toNat (fun k hk => toNat_block hrange hk) b).trans ?_
  split_ifs with hb
  · exact hslices _ (by omega)
  · rfl

/-- Settles O41: the WRITE(10) leaves the slices received in its blocks (O40), the READ(10) transmits these blocks
(O39), and the slices are the bytes received in order. -/
theorem readAfterWriteTransmitsTheReceivedBytes : Obligations.ReadAfterWriteTransmitsTheReceivedBytes := by
  intro lba cnt s t u evs evs' d incoming dev dev' g hw hwret hwtrace hr hrret hrtrace hg _ hreceives hreads hfull
  obtain ⟨_, _, hg', hstored⟩ := writeStoresTheReceivedBytes lba cnt s t evs d incoming hw hwret hwtrace hreceives
  cases hg.symm.trans hg'
  obtain ⟨-, hreads'⟩ := (readsReturnContent_append d evs evs').1 hreads
  obtain ⟨htransmitted, -⟩ :=
    readTransmitsTheDeviceContents lba cnt t u evs' (contentAfter d evs) hr hrret hrtrace hreads' hfull
  rw [htransmitted, ← flatMap_slices]
  refine List.flatMap_congr fun k hmem => ?_
  have hk := List.mem_range.1 hmem
  rw [hstored, if_pos (by omega), Nat.add_sub_cancel_left]

end Sys2Proof.Machine
end

section
/-! Reset, what the caller may not do, and the records it prepares. -/

namespace Sys2Proof.Machine

/-- Between operations a caller with nothing more to do leaves the block as it is (rules R247, R261). -/
theorem step_of_no_action {s : State} (hs : ∀ call, s.phase ≠ .stuck call) (hc : s.callers = []) :
    step s = .next s := by
  rw [step_of_not_stuck hs]
  simp [stepCaller, hc]

/-- Settles O1: reset gives the four fields, and leaves no action pending (`step_of_no_action`). -/
theorem resetIsStoppedUnboundAndWaits : Obligations.ResetIsStoppedUnboundAndWaits :=
  ⟨rfl, rfl, rfl, rfl, step_of_no_action (fun _ h => by cases h) rfl⟩

/-- Settles O6: every other operation is guarded (`exec_uninit`), and INIT leaves `afterInit`, which is idle
(`execInit_of_not_stuck`). -/
theorem uninitialisedTargetAcceptsOnlyInit : Obligations.UninitialisedTargetAcceptsOnlyInit := by
  intro i s hs
  refine ⟨fun hi => exec_uninit hi hs, ?_⟩
  rintro rfl
  exact ⟨s.afterInit, execInit_of_not_stuck (by simp [hs]), rfl⟩

/-! ## Re-entry (rule R265) -/

theorem onTarget_stuck {s : State} {call : PortCall} (hs : s.phase = .stuck call)
    (k : State → Host.Outcome State Fault Refusal) : onTarget s k = .fault .reentry := by
  unfold onTarget; rw [hs]

theorem execInit_stuck {s : State} {call : PortCall} (hs : s.phase = .stuck call) :
    execInit s = .fault .reentry := by
  unfold execInit; rw [hs]

/-- No operation starts on a target inside another one, INIT included. -/
theorem exec_stuck {s : State} {call : PortCall} (hs : s.phase = .stuck call) (i : Instr) :
    exec i s = .fault .reentry := by
  by_cases hi : i = .init
  · subst hi
    exact execInit_stuck hs
  · obtain ⟨k, hk⟩ := exec_guarded i hi
    rw [hk, onTarget_stuck hs]

/-- A step whose operation the caller does not wait for is a re-entry, initialised or not. -/
theorem step_overlapped {s : State} {op : HostOp} {ov : Bool} {rest : List CallerAction}
    (hs : ∀ call, s.phase ≠ .stuck call) (hc : s.callers = .call op ov :: rest) (ho : nextOverlaps rest = true) :
    step s = .fault .reentry := by
  rw [step_of_not_stuck hs]
  simp [stepCaller, hc, stepAction, ho]

/-- A step of a stuck target whose caller does not wait is a re-entry. -/
theorem step_stuck_overlapped {s : State} {call : PortCall} (hs : s.phase = .stuck call)
    (ho : nextOverlaps s.callers = true) : step s = .fault .reentry := by
  unfold step
  rw [hs]
  simp [stepStuck, ho]

/-- Settles O7: `exec` on a stuck target (`exec_stuck`), and a step whose caller does not wait, between operations
(`step_overlapped`) and inside one (`step_stuck_overlapped`). -/
theorem startingAnOperationWhileOneRunsFaults : Obligations.StartingAnOperationWhileOneRunsFaults := by
  refine ⟨fun i s call hs => exec_stuck hs i, fun s op op' ov rest hs hc => ?between,
    fun s call op rest hs hc => ?inside⟩
  case between => exact step_overlapped (by rcases hs with hs | hs <;> simp [hs]) hc rfl
  case inside => exact step_stuck_overlapped hs (by rw [hc]; rfl)

/-! ## Preparing a record (rule R267) -/

theorem step_prepare {s : State} {ref : Nat} {record : Configuration} {rest : List CallerAction}
    (hs : ∀ call, s.phase ≠ .stuck call) (hc : s.callers = .prepare ref record :: rest) :
    step s = .next { s with mem := s.mem.write ref record, callers := rest } := by
  rw [step_of_not_stuck hs]
  simp [stepCaller, hc, stepAction]

/-- Settles O48: the step writes the record under its reference (`step_prepare`), and a read sees the write there and
nowhere else (`Memory.read_write_same`, `Memory.read_write_other`). -/
theorem preparedRecordsAreSeenByTheNextCommand : Obligations.PreparedRecordsAreSeenByTheNextCommand := by
  intro s ref record rest hs hc
  have hread : (s.mem.write ref record).read ref = some record := Memory.read_write_same _ _ _
  exact ⟨_, step_prepare hs hc, rfl, fun hcfg => ⟨hcfg, hread⟩, hread,
    fun r hr => Memory.read_write_other _ _ _ _ hr, rfl⟩

end Sys2Proof.Machine
end

section
/-! Handlers on a record that is not as rules R264 and R267 ask. -/

namespace Sys2Proof.Machine

variable {s : State} {ref : Nat} {c : Configuration} {f : Fault}

section Unusable

variable (hf : ∀ {α : Type} (k : Nat → Configuration → Run α), withRecord s k = .fault f)

include hf

/-! ## Every use of the configuration is the fault `f` -/

theorem devInfo_unusable : devInfo s = .fault f := hf _

theorem transmitData_unusable (bytes : List Byte) (len : Word32) : transmitData bytes len s = .fault f := by
  unfold transmitData trTx; rw [hf]; rfl

theorem readCapacityHandler_unusable : readCapacityHandler s = .fault f := by
  unfold readCapacityHandler; rw [devInfo_unusable hf]; rfl

theorem modeSenseHandler_unusable : modeSenseHandler s = .fault f := by
  unfold modeSenseHandler; rw [devInfo_unusable hf]; rfl

end Unusable

/-- A valid INQUIRY ends as its use of the template does. -/
theorem inquiryHandler_of_valid {flags : Byte} (hflags : flags &&& s.params.inqEvpdMask = 0) :
    inquiryHandler flags 0 s =
      withTemplate s fun template => transmitData template s.params.inquiryLen s := by
  unfold inquiryHandler
  rw [if_pos (by simp [inquiryFieldsValid, hflags])]

/-- Settles O57: the commands without a port call do not look at the record; every other handler uses it, which a
dangling reference makes noRecord (`withRecord_dangling`), and a valid INQUIRY uses its template, which makes
shortTemplate of a short one (`withTemplate_short`). -/
theorem unsuitableRecordsStopByName : Obligations.UnsuitableRecordsStopByName := by
  intro s hs
  refine ⟨fun ref hcfg hrec => ?dangling, fun ref c hb hl flags hflags => ?short⟩
  case dangling =>
    have hf (rs : Bool) {α : Type} (k : Nat → Configuration → Run α) :
        withRecord (s.enterExecute rs) k = .fault .noRecord :=
      withRecord_dangling (by simpa using hcfg) (by simpa using hrec) k
    have data (dir : Direction) (lba : Word32) (cnt : Word16) :
        runExecute false (dataTransfer dir lba cnt) s = .fault .noRecord :=
      runExecute_fault hs (dataTransfer_unusable (hf false))
    exact ⟨runExecute_noOp hs, runExecute_noOp hs,
      fun flags hflags => runExecute_fault hs ((inquiryHandler_of_valid (by simpa using hflags)).trans (hf false _)),
      runExecute_fault hs ((requestSenseHandler_valid _).trans (transmitData_unusable (hf true) _ _)),
      runExecute_fault hs (readCapacityHandler_unusable (hf false)),
      runExecute_fault hs (modeSenseHandler_unusable (hf false)),
      fun lba cnt => ⟨data .read lba cnt, data .write lba cnt⟩⟩
  case short =>
    have hshort := withTemplate_short (enterExecute_bound hb false) (by simpa using hl)
      fun template => transmitData template (s.enterExecute false).params.inquiryLen (s.enterExecute false)
    exact runExecute_fault hs ((inquiryHandler_of_valid (by simpa using hflags)).trans hshort)

end Sys2Proof.Machine
end

section
/-! The number of port calls of an operation that has run to its end (rule R274). -/

namespace Sys2Proof.Machine

variable {α β : Type} {s t : State} {m n : Nat}

/-- A computation started in `s` that finishes has made `n` port calls; one that does not is stuck. -/
def Run.Calls (n : Nat) (s : State) (r : Run α) : Prop :=
  r.Ends (fun _ t => t.trace.length = s.trace.length + n) (fun t => ¬ t.Idle)

theorem Run.Calls.bind {r : Run α} {k : α → State → Run β} (hr : r.Calls m s) (hk : ∀ a t, (k a t).Calls n t) :
    (r.bind k).Calls (m + n) s :=
  Run.Ends.bind hr
    (fun a t ht => (hk a t).mono (fun _ _ hu => by rw [hu, ht, Nat.add_assoc]) fun _ hu => hu)
    fun _ h => h

theorem withRecord_calls {k : Nat → Configuration → Run α} (hk : ∀ ref c, (k ref c).Calls n s) :
    (withRecord s k).Calls n s := by
  rcases exists_bound_or_fault s with ⟨ref, c, hb⟩ | ⟨f, hf⟩
  · rw [hb.withRecord]; exact hk ref c
  · rw [hf]; exact True.intro

/-- A port call counts once what is done with its answer has recorded it. -/
theorem portCall_calls {h : Handle} {limit : Word32} {call : PortCall} {k : Answer → State → Run α}
    (hk : ∀ a, (k a s.consume).Calls n s) : (portCall s h limit call k).Calls n s := by
  cases hr : (s.answer h limit).responds with
  | true => rw [portCall_answered _ _ hr]; exact hk _
  | false =>
    rw [portCall_unanswered _ _ hr]
    show ¬ (s.stuckAt call).Idle
    simp

theorem devInfo_calls (s : State) : (devInfo s).Calls 1 s :=
  withRecord_calls fun _ _ => portCall_calls fun _ => List.length_append

theorem trTx_calls (call : PortCall) (bytes : List Byte) (len : Word32) (s : State) :
    (trTx call bytes len s).Calls 1 s :=
  withRecord_calls fun _ _ => portCall_calls fun a => by
    split_ifs
    · exact List.length_append
    · exact True.intro

/-- What is done with the number of bytes sent makes no further call (rule R170). -/
theorem transmitData_calls (bytes : List Byte) (len : Word32) (s : State) : (transmitData bytes len s).Calls 1 s :=
  (trTx_calls .txResponse bytes len s).bind (n := 0) fun sent t => by split_ifs <;> rfl

theorem readCapacityHandler_calls (s : State) : (readCapacityHandler s).Calls 2 s :=
  (devInfo_calls s).bind fun _ t => transmitData_calls _ _ t

theorem modeSenseHandler_calls (s : State) : (modeSenseHandler s).Calls 2 s :=
  (devInfo_calls s).bind fun _ t => transmitData_calls _ _ t

theorem inquiryHandler_calls {flags page : Byte} (hv : flags &&& s.params.inqEvpdMask = 0 ∧ page = 0) :
    (inquiryHandler flags page s).Calls 1 s := by
  obtain ⟨hflags, rfl⟩ := hv
  rw [inquiryHandler_of_valid hflags]
  refine withRecord_calls fun _ c => ?_
  split_ifs
  · exact transmitData_calls _ _ s
  · exact True.intro

/-- The calls of a handler are those of its EXECUTE: step 1 makes none (rule R151). -/
theorem runExecute_calls {rs : Bool} {handler : State → Run Status}
    (hcalls : (handler (s.enterExecute rs)).Calls n (s.enterExecute rs)) (h : runExecute rs handler s = .next t)
    (hidle : t.Idle) : t.trace.length = s.trace.length + n := by
  rcases runExecute_ends hcalls h with ⟨st, u, hu, rfl⟩ | hstuck
  · simpa using hu
  · exact absurd hidle hstuck

/-- The lifecycle operations make no port call (rule R57). -/
theorem trace_of_not_isExecute {i : Instr} (hi : ¬ isExecute i) (h : exec i s = .next t) : t.trace = s.trace := by
  cases exec_next h with
  | init => rfl
  | start _ _ => rfl
  | stop _ => rfl
  | residue _ => rfl
  | returned _ hruns _ _ _ => exact absurd (isExecute_of_runsCommand hruns) hi
  | hangs _ hruns _ _ _ _ => exact absurd (isExecute_of_runsCommand hruns) hi

/-- A command that moves no block and sends no fixed response makes no port call. -/
theorem command_keeps_trace {i : Instr} (hi : i.isCommand = true)
    (hdata : ∀ lba cnt, i ≠ .read10 lba cnt ∧ i ≠ .write10 lba cnt) (hn : ¬ SendsResponse s.params i)
    (h : exec i s = .next t) : t.trace = s.trace := by
  obtain ⟨sense, st, hexec⟩ := exec_quiet (command_next hi h).1 hi hdata hn
  cases hexec.symm.trans h
  rfl

/-- A data command makes its geometry query, and two calls for each block unless it fails (rules R200, R202). -/
theorem dataCommand_calls {i : Instr} {lba : Word32} {cnt : Word16} (hi : i = .read10 lba cnt ∨ i = .write10 lba cnt)
    (h : exec i s = .next t) (hidle : t.Idle) :
    t.trace.length = s.trace.length + if t.ret = .status .success then 1 + 2 * cnt.toNat else 1 := by
  obtain ⟨dir, hends⟩ := dataCommand_ends hi h
  cases hends with
  | queryHangs hhangs => exact absurd (hhangs.phase.symm.trans hidle) (by simp)
  | blockHangs _ _ _ hstuck => exact absurd (hstuck.phase.symm.trans hidle) (by simp)
  | outOfRange _ hends => simp [hends.trace, hends.ret]
  | moved _ _ hends => simp [hends.trace, hends.ret, length_blockEvents, Nat.add_comm]

/-- Settles O44: the lifecycle operations (`trace_of_not_isExecute`) and the commands with nothing to send
(`command_keeps_trace`) make no call, a fixed response makes those of its handler (`runExecute_calls`), and a data
command is `dataCommand_calls`. -/
theorem portCallCountsAreExact : Obligations.PortCallCountsAreExact := by
  intro i s t h hidle
  refine ⟨?none, ?inquiry, ?reqsense, ?geometry, fun lba cnt hi => dataCommand_calls hi h hidle⟩
  case none =>
    have lifecycle (hi : ¬ isExecute i) := congrArg List.length (trace_of_not_isExecute hi h)
    have quiet (hi : i.isCommand = true) (hdata : ∀ lba cnt, i ≠ .read10 lba cnt ∧ i ≠ .write10 lba cnt)
        (hn : ¬ SendsResponse s.params i) := congrArg List.length (command_keeps_trace hi hdata hn h)
    rintro (rfl | rfl | ⟨op, rfl⟩ | rfl | ⟨ref, rfl⟩ | rfl | rfl)
    · exact quiet rfl (by simp) id
    · exact quiet rfl (by simp) id
    · exact quiet rfl (by simp) id
    all_goals exact lifecycle (by simp [isExecute, Instr.isCommand])
  case inquiry =>
    rintro flags page rfl
    split_ifs with hv
    · exact runExecute_calls (inquiryHandler_calls (by simpa using hv)) h hidle
    · exact congrArg List.length (command_keeps_trace (i := .inquiry flags page) rfl (by simp) hv h)
  case reqsense =>
    rintro r1 r2 r3 alloc rfl
    split_ifs with hv
    · obtain ⟨rfl, rfl, rfl, rfl⟩ := hv
      exact runExecute_calls (transmitData_calls _ _ _) h hidle
    · exact congrArg List.length (command_keeps_trace (i := .reqsense r1 r2 r3 alloc) rfl (by simp) hv h)
  case geometry =>
    rintro (rfl | rfl)
    · exact runExecute_calls (readCapacityHandler_calls _) h hidle
    · exact runExecute_calls (modeSenseHandler_calls _) h hidle

end Sys2Proof.Machine
end
